-- ==== Sys2Proof/Word.lean ====
section
/-! DEFINITION. The scalar: the one kind of value the hardware computes with (spec rules R6, R7, R8, R14),
the real number it stands for in the reference instance, and the numerics record `Num` of rule R6.

A `Scalar` is written down as the expression that computes it: literals, the three irrational constants of
rule R7, and one node for every operation of `NUM` a rule performs, in the order the rule's pseudocode gives
(R8). So it is plain data that can be compared and printed, it loses no digit, and it can be read in any
numerics record (`Scalar.evalIn`). `Scalar.val` reads it in the reference instance, the real numbers.
`Format` is a finite-precision instance of the record.
-/

namespace Sys2Proof

/-- One scalar of the machine, as the `NUM` operations that make it (R6, R8). Log entry 1. -/
inductive Scalar where
  /-- `of_rat q`: a rational literal entering `NUM` (R6, R7). -/
  | lit (q : Rat)
  /-- The constant `SQRT3_2`, √3/2 (R7). -/
  | sqrt3Div2
  /-- The constant `TWO_PI`, 2π (R7). -/
  | twoPi
  /-- The constant `TWO_PI_3`, 2π/3 (R7). -/
  | twoPiDiv3
  /-- A scalar the outside world supplies and of which nothing is known: the `n`th such number. -/
  | free (n : Nat)
  | add (a b : Scalar)
  | sub (a b : Scalar)
  | mul (a b : Scalar)
  | div (a b : Scalar)
  | cos (a : Scalar)
  | sin (a : Scalar)
  /-- `if a > b then x else y`, decided by `NUM`'s `gt` (R6, R10, R130 step 6). -/
  | ifGt (a b x y : Scalar)
  /-- `if a < b then x else y`, decided by `NUM`'s `lt` (R6, R10). -/
  | ifLt (a b x y : Scalar)
deriving DecidableEq, Repr, Inhabited

/-- The real number behind `Scalar.free n`. It has no body: a claim about a state that holds such a scalar
holds whatever real number the outside world supplied. Log entry 1. -/
opaque Config.freeReal : Nat → ℝ

/-- What stands where a divisor is zero: R6 says that such a division never returns a value, so the constant has no
body and nothing can be proved of it. Log entry 1. -/
opaque Config.noQuotient : Scalar → Scalar → ℝ

/-- The real number a scalar stands for: the reference instance of R6, with every constant of R7 exact. -/
noncomputable def Scalar.val : Scalar → ℝ
  | .lit q => (q : ℝ)
  | .sqrt3Div2 => Real.sqrt 3 / 2
  | .twoPi => 2 * Real.pi
  | .twoPiDiv3 => 2 * Real.pi / 3
  | .free n => Config.freeReal n
  | .add a b => a.val + b.val
  | .sub a b => a.val - b.val
  | .mul a b => a.val * b.val
  | .div a b => if b.val = 0 then Config.noQuotient a b else a.val / b.val
  | .cos a => Real.cos a.val
  | .sin a => Real.sin a.val
  | .ifGt a b x y => if a.val > b.val then x.val else y.val
  | .ifLt a b x y => if a.val < b.val then x.val else y.val

/-- The numerics record `NUM` of R6, with the irrational constants of R7 in its format. `div` is partial: a
zero divisor gives no value. -/
structure Num where
  S : Type
  add : S → S → S
  sub : S → S → S
  mul : S → S → S
  div : S → S → Option S
  gt : S → S → Bool
  lt : S → S → Bool
  cos : S → S
  sin : S → S
  ofRat : Rat → S
  sqrt3Div2 : S
  twoPi : S
  twoPiDiv3 : S

/-- The reference instance of R6: the real numbers. -/
@[reducible] noncomputable def Num.real : Num where
  S := ℝ
  add x y := x + y
  sub x y := x - y
  mul x y := x * y
  div x y := if y = 0 then none else some (x / y)
  gt x y := decide (x > y)
  lt x y := decide (x < y)
  cos := Real.cos
  sin := Real.sin
  ofRat q := (q : ℝ)
  sqrt3Div2 := Real.sqrt 3 / 2
  twoPi := 2 * Real.pi
  twoPiDiv3 := 2 * Real.pi / 3

/-- The value of a scalar in the numerics record `N`, one operation of `N` for each node and in the order of
the nodes (R8); `ext` gives the numbers the outside world supplied. No value where a divisor is zero. -/
def Scalar.evalIn (N : Num) (ext : Nat → N.S) : Scalar → Option N.S
  | .lit q => some (N.ofRat q)
  | .sqrt3Div2 => some N.sqrt3Div2
  | .twoPi => some N.twoPi
  | .twoPiDiv3 => some N.twoPiDiv3
  | .free n => some (ext n)
  | .add a b => do return N.add (← a.evalIn N ext) (← b.evalIn N ext)
  | .sub a b => do return N.sub (← a.evalIn N ext) (← b.evalIn N ext)
  | .mul a b => do return N.mul (← a.evalIn N ext) (← b.evalIn N ext)
  | .div a b => do N.div (← a.evalIn N ext) (← b.evalIn N ext)
  | .cos a => do return N.cos (← a.evalIn N ext)
  | .sin a => do return N.sin (← a.evalIn N ext)
  | .ifGt a b x y => do if N.gt (← a.evalIn N ext) (← b.evalIn N ext) then x.evalIn N ext else y.evalIn N ext
  | .ifLt a b x y => do if N.lt (← a.evalIn N ext) (← b.evalIn N ext) then x.evalIn N ext else y.evalIn N ext

/-- Of all the patterns that stand for a number, `p` stands for the nearest to the real number `r` (R7). -/
def Nearest {S : Type} (value : S → Option Rat) (p : S) (r : ℝ) : Prop :=
  ∃ v, value p = some v ∧ ∀ q w, value q = some w → |(v : ℝ) - r| ≤ |(w : ℝ) - r|

/-- A finite-precision instance of `NUM` (R6, R7): its scalars are the patterns of `W` bits (R14), of which some stand
for a rational number and others (infinities and the like, U5) for none. The operations are the format's own; what the
spec says of every instance is a law. Nothing more is one: what `of_rat` makes of a rational that is no constant of R7,
and what an operation makes of a pattern that stands for no number, is the format's own affair (R7, D31). The defaults
only show that there is a format; no format of a build is known to be it. Log entry 1. -/
structure Format where
  /-- `W` (R14). -/
  width : Nat := 0
  value : BitVec width → Option Rat := fun _ => some 0
  add : BitVec width → BitVec width → BitVec width := fun _ _ => 0
  sub : BitVec width → BitVec width → BitVec width := fun _ _ => 0
  mul : BitVec width → BitVec width → BitVec width := fun _ _ => 0
  div : BitVec width → BitVec width → Option (BitVec width) := fun _ _ => none
  gt : BitVec width → BitVec width → Bool := fun _ _ => false
  lt : BitVec width → BitVec width → Bool := fun _ _ => false
  cos : BitVec width → BitVec width := fun _ => 0
  sin : BitVec width → BitVec width := fun _ => 0
  ofRat : Rat → BitVec width := fun _ => 0
  sqrt3Div2 : BitVec width := 0
  twoPi : BitVec width := 0
  twoPiDiv3 : BitVec width := 0
  /-- Of numbers, a zero divisor, and no other, gives no value (R6). -/
  div_none : ∀ x y v w, value x = some v → value y = some w → (div x y = none ↔ w = 0) := by
    rintro _ _ v w ⟨⟩ ⟨⟩; simp
  /-- `>` is the strict comparison of the numbers (R6). -/
  gt_iff : ∀ x y v w, value x = some v → value y = some w → (gt x y = true ↔ v > w) := by
    rintro _ _ v w ⟨⟩ ⟨⟩; simp
  /-- `<` is the strict comparison of the numbers (R6). -/
  lt_iff : ∀ x y v w, value x = some v → value y = some w → (lt x y = true ↔ v < w) := by
    rintro _ _ v w ⟨⟩ ⟨⟩; simp
  /-- Each rational constant, `ZERO`, `ONE`, `HALF`, `THREE`, `TWO_THIRDS`, enters as the nearest value to it (R7). -/
  ofRat_nearest : ∀ q ∈ [(0 : Rat), 1, 1 / 2, 3, 2 / 3], Nearest value (ofRat q) (q : ℝ) := by
    exact fun _ _ => ⟨0, rfl, by rintro _ w ⟨⟩; exact le_refl _⟩
  /-- Each irrational constant is the nearest value to the exact one (R7). -/
  sqrt3Div2_nearest : Nearest value sqrt3Div2 (Real.sqrt 3 / 2) := by
    exact ⟨0, rfl, by rintro _ w ⟨⟩; exact le_refl _⟩
  twoPi_nearest : Nearest value twoPi (2 * Real.pi) := by
    exact ⟨0, rfl, by rintro _ w ⟨⟩; exact le_refl _⟩
  twoPiDiv3_nearest : Nearest value twoPiDiv3 (2 * Real.pi / 3) := by
    exact ⟨0, rfl, by rintro _ w ⟨⟩; exact le_refl _⟩
deriving Inhabited

/-- The numerics record of a format (R6): a scalar is a pattern of the format's width (R14). -/
@[reducible] def Format.num (F : Format) : Num where
  S := BitVec F.width
  add := F.add
  sub := F.sub
  mul := F.mul
  div := F.div
  gt := F.gt
  lt := F.lt
  cos := F.cos
  sin := F.sin
  ofRat := F.ofRat
  sqrt3Div2 := F.sqrt3Div2
  twoPi := F.twoPi
  twoPiDiv3 := F.twoPiDiv3

end Sys2Proof
end

