-- ==== Sys2Proof/Config.lean ====
section
/-! DEFINITION. What an implementation fixes: the parameters of rule R5 and the structure of the parameter
`WIRING` (R91), and the model's free values. A build is data held in the state (never written by any step),
because the hardware has no program memory to load a wiring into (R74, log entry 2). -/

namespace Sys2Proof

/-- The instance field of a command word, `inst` in bits 3:0 (R81): 0 to 15. -/
abbrev Inst := Fin 16

/-- A source of a wiring step (R91). -/
inductive Src where
  | sa
  | sb
  | sc
  | net (k : Nat)
  | hold (k : Nat)
  | dt
  | const (x : Scalar)
deriving DecidableEq, Repr, Inhabited

/-- One step of a wiring (R91): a command word, its sources, and for each result a net or nothing. -/
structure WireStep where
  cmd : BitVec 8
  args : List Src
  dst : List (Option Nat)
deriving DecidableEq, Repr, Inhabited

/-- The parameter `WIRING` (R91). -/
structure Wiring where
  steps : List WireStep
  actSrc : List Nat
  holdSrc : List Nat
deriving DecidableEq, Repr, Inhabited

/-- Which instance of `NUM` a build has (R5, R6): the reference instance, or the finite-precision format number
`k`. -/
inductive Numerics where
  | real
  | format (k : Nat)
deriving DecidableEq, Repr, Inhabited

/-- The finite-precision formats. The spec gives none (R6, R14), so the constant has no body: a claim about format
`k` holds for every format that keeps the laws of R6 and R7. Log entry 1. -/
opaque Config.format : Nat → Format

/-- What the outside world supplies as its `n`th number to a build of format `k`. Log entry 1. -/
opaque Config.formatInput (k n : Nat) : BitVec (Config.format k).width

/-- The numerics record of a build. -/
@[reducible] noncomputable def Numerics.num : Numerics → Num
  | .real => Num.real
  | .format k => (Config.format k).num

/-- `W`, the width of a scalar register and of every port that carries a scalar (R14, R155); the reference instance has
none. -/
noncomputable def Numerics.width : Numerics → Option Nat
  | .real => none
  | .format k => some (Config.format k).width

/-- The numbers the outside world supplies to a build. -/
noncomputable def Numerics.input : (c : Numerics) → Nat → c.num.S
  | .real => Config.freeReal
  | .format k => Config.formatInput k

/-- The value of a scalar in the numerics of a build; none where a divisor is zero (R6). -/
noncomputable def Scalar.valueIn (c : Numerics) (a : Scalar) : Option c.num.S := a.evalIn c.num c.input

/-- The scalar has a value in the real numbers: no divisor in it is zero (R6). -/
def Scalar.HasReal (a : Scalar) : Prop := ∃ x : ℝ, a.valueIn .real = some x

/-- The parameters of R5. `N_ACT` and `N_HOLD` are the lengths of the two arrays of the wiring (R91). -/
structure Build where
  num : Numerics
  nLpf : Nat
  nIntg : Nat
  nPi : Nat
  nPll : Nat
  bufEn : Bool
  bufCap : Nat
  wiring : Wiring
deriving DecidableEq, Repr, Inhabited

/-- `N_ACT` (R5, R91). -/
def Build.nAct (b : Build) : Nat := b.wiring.actSrc.length

/-- `N_HOLD` (R5, R91). -/
def Build.nHold (b : Build) : Nat := b.wiring.holdSrc.length

/-- The parameters of this hardware. The spec leaves every one of them `OPEN` (R5), so the constant has no
body and a claim about a machine after reset holds for every build. Log entry 2. -/
opaque Config.build : Build

/-- What the clamp of an enabled bound pair with lower bound above upper bound gives: R10 does not define it
and U3 of spec/93 gives it no value, so it is a free value that may depend on the operand and the two bounds.
Log entry 5. -/
opaque Config.clampReversed : Scalar → Scalar → Scalar → Scalar

end Sys2Proof
end

