-- ==== Sys2Proof/Syntax.lean ====
section
/-! DEFINITION. The instructions: one constructor for each row of spec/opcode_table.json (R82, R83). -/

namespace Sys2Proof

/-- The seven operations a command word can select (R82) and the one event (R83). Operands travel in the
operand registers (R84), so an instruction names at most an instance or a trigger level. -/
inductive Instr where
  /-- `CLARKE`, `toOrthogonalStationaryFrame` (R103). -/
  | clarke
  /-- `PARK`, `toRotatingFrame` (R101). -/
  | park
  /-- `IPARK`, `toStationaryFrame` (R102). -/
  | ipark
  /-- `LPF i`, the filter's `update` (R110). -/
  | lpf (i : Inst)
  /-- `INTG i`, the integrator's `update` (R113). -/
  | intg (i : Inst)
  /-- `PI i`, the PI controller's `update` (R120). -/
  | pi (i : Inst)
  /-- `PLL i`, the PLL's per-cycle steps (R130). -/
  | pll (i : Inst)
  /-- `CYCLE t`, one invocation of the sampling cycle driver with trigger level `t` (R140, R141). -/
  | cycle (trig : Bool)
deriving DecidableEq, Repr, Inhabited

/-- How many operand registers the operation names (R84). -/
def Instr.argCount : Instr → Nat
  | .clarke => 3
  | .park => 4
  | .ipark => 4
  | .lpf _ => 1
  | .intg _ => 3
  | .pi _ => 1
  | .pll _ => 3
  | .cycle _ => 0

/-- How many result registers the operation writes a value to (R84). -/
def Instr.resCount : Instr → Nat
  | .clarke => 2
  | .park => 3
  | .ipark => 3
  | .lpf _ => 1
  | .intg _ => 1
  | .pi _ => 1
  | .pll _ => 3
  | .cycle _ => 0

/-- The operation is one a command word selects (R82), not the event `CYCLE`. -/
def Instr.isCommand : Instr → Bool
  | .cycle _ => false
  | .clarke => true
  | .park => true
  | .ipark => true
  | .lpf _ => true
  | .intg _ => true
  | .pi _ => true
  | .pll _ => true

end Sys2Proof
end

