-- ==== Sys2Proof/WellFormed.lean ====
section
/-! DEFINITION. When an instruction is well formed on a build: the instance it names exists (R82, R87). -/

namespace Sys2Proof

/-- The instance field is legal: less than the instance count of the block (R82, R87). The stateless
operations and `CYCLE` name no instance. -/
def Instr.wf (b : Build) : Instr → Bool
  | .clarke => true
  | .park => true
  | .ipark => true
  | .lpf i => decide (i.val < b.nLpf)
  | .intg i => decide (i.val < b.nIntg)
  | .pi i => decide (i.val < b.nPi)
  | .pll i => decide (i.val < b.nPll)
  | .cycle _ => true

/-- The counts and capacities of R5 are in their ranges. -/
def Build.inRange (b : Build) : Bool :=
  decide (b.nLpf ≤ 16) && decide (b.nIntg ≤ 16) && decide (b.nPi ≤ 16) && decide (b.nPll ≤ 16)
    && decide (1 ≤ b.nAct) && decide (b.nAct ≤ 16) && decide (b.nHold ≤ 16)
    && (!b.bufEn || (decide (1 ≤ b.bufCap) && decide (b.bufCap ≤ 16384)))

end Sys2Proof
end

