-- ==== Sys2Proof/Decode.lean ====
section
/-! DEFINITION. Decoding of the two formats (R80 to R83, R86 to R88), and after it the encoder. Total on any
word; a word that is no instruction is rejected by name. -/

namespace Sys2Proof

/-- Why a word is no instruction. -/
inductive DecodeError where
  /-- A command word with a reserved `op`, 0 or 8 to 15 (R86). -/
  | illegalOp (w : BitVec 8)
  /-- A command word of a stateless operation with `inst ≠ 0` (R87). -/
  | badInstance (w : BitVec 8)
  /-- An event word with `tick = 0`: no event (R83). -/
  | noEvent (w : BitVec 2)
deriving DecidableEq, Repr

/-- `op`, bits 7:4 of a command word (R81). -/
def commandOp (w : BitVec 8) : BitVec 4 := w.extractLsb' 4 4

/-- `inst`, bits 3:0 of a command word (R81). -/
def commandInst (w : BitVec 8) : Inst := (w.extractLsb' 0 4).toFin

/-- A stateless operation, whose `inst` must be zero (R82, R87). -/
def stateless (w : BitVec 8) (i : Instr) : Except DecodeError Instr :=
  if commandInst w = 0 then .ok i else .error (.badInstance w)

/-- The decoder of format `C` (R81, R82, R86, R87). Whether the instance of a stateful operation exists
depends on the build and is judged when the operation runs (`Instr.wf`). -/
def decodeCommand (w : BitVec 8) : Except DecodeError Instr :=
  match (commandOp w).toNat with
  | 1 => stateless w .clarke
  | 2 => stateless w .park
  | 3 => stateless w .ipark
  | 4 => .ok (.lpf (commandInst w))
  | 5 => .ok (.intg (commandInst w))
  | 6 => .ok (.pi (commandInst w))
  | 7 => .ok (.pll (commandInst w))
  | _ => .error (.illegalOp w)

/-- The decoder of format `T`: `tick` in bit 1, `trig` in bit 0 (R83). -/
def decodeEvent (w : BitVec 2) : Except DecodeError Instr :=
  if w.getLsbD 1 then .ok (.cycle (w.getLsbD 0)) else .error (.noEvent w)

/-- A word on one of the two inputs the core decodes (R80). -/
inductive BusWord where
  | command (w : BitVec 8)
  | event (w : BitVec 2)
deriving DecidableEq, Repr

/-- The decoder of both formats. -/
def decode : BusWord → Except DecodeError Instr
  | .command w => decodeCommand w
  | .event w => decodeEvent w

/-- A command word from its fields, `op` above `inst` (R81). -/
def commandWord (op : BitVec 4) (i : Inst) : BitVec 8 := op ++ BitVec.ofFin (w := 4) i

/-- The word of an instruction (R82, R83). -/
def encode : Instr → BusWord
  | .clarke => .command (commandWord 1#4 0)
  | .park => .command (commandWord 2#4 0)
  | .ipark => .command (commandWord 3#4 0)
  | .lpf i => .command (commandWord 4#4 i)
  | .intg i => .command (commandWord 5#4 i)
  | .pi i => .command (commandWord 6#4 i)
  | .pll i => .command (commandWord 7#4 i)
  | .cycle t => .event (BitVec.ofBool true ++ BitVec.ofBool t)

/-- The command word of an instruction; all zero, which is no operation (R86), for the event `CYCLE`. -/
def encodeCommand (i : Instr) : BitVec 8 :=
  match encode i with
  | .command w => w
  | .event _ => 0#8

/-- The event word, where the result of a decoder is one; for the table's words only. -/
def okInstr? : Except DecodeError Instr → Option Instr
  | .ok i => some i
  | .error _ => none

/-- The instruction the decoder reads from a table row's bits. A row of format `C` has 8 bits; the row of
format `T` has 2, which in whole bytes is 8 too. No command word with a value below 16 is an operation (R86),
so an 8-bit number below 4 that is no command is read as the event word in its two low bits. -/
def decodeTableWord (nbits w : Nat) : Option Instr :=
  if nbits = 2 then (if w < 4 then okInstr? (decodeEvent (BitVec.ofNat 2 w)) else none)
  else if nbits = 8 then
    if w < 4 then okInstr? (decodeEvent (BitVec.ofNat 2 w))
    else if w < 256 then okInstr? (decodeCommand (BitVec.ofNat 8 w))
    else none
  else none

end Sys2Proof
end

