-- ==== Sys2Proof/Machine/State.lean ====
section
/-! DEFINITION. The state of the machine (spec/10_state.md), its faults and refusals (R171), and the state
after reset (R200 to R202). Every register of spec/10_state.md section 10 is a field; the fields the MODEL adds
(build, edge, pins, hrdata, done, inputs) say so. -/

namespace Sys2Proof.Machine

/-- A bank of up to sixteen like registers. The instances at or above the build's count do not exist: no
address and no operation reaches them and they keep their reset value. Log entry 6. -/
abbrev Bank (α : Type) : Type := Vector α 16

/-- Scalars by address, addresses strictly rising; an address that is not listed holds `⊥`, no value (R13). -/
abbrev Cells : Type := List (Nat × Scalar)

/-- `CLAMP_EN` (R32): bit 0 `INT_EN`, bit 1 `OUT_EN`. -/
structure ClampEn where
  intEn : Bool
  outEn : Bool
deriving DecidableEq, Repr, Inhabited

/-- The registers of one low-pass filter (R27, R28). -/
structure LpfRegs where
  fc : Scalar
  dt : Scalar
  y : Scalar
deriving DecidableEq, Repr, Inhabited

/-- The register of one integrator (R29). -/
structure IntgRegs where
  acc : Scalar
deriving DecidableEq, Repr, Inhabited

/-- The registers of one PI controller (R30 to R34), stand-alone or embedded in a PLL (R35). -/
structure PiRegs where
  kp : Scalar
  ki : Scalar
  outLo : Scalar
  outHi : Scalar
  intLo : Scalar
  intHi : Scalar
  clampEn : ClampEn
  acc : Scalar
  eprev : Scalar
deriving DecidableEq, Repr, Inhabited

/-- The registers of one PLL (R35 to R38). -/
structure PllRegs where
  pi : PiRegs
  theta : Scalar
  omega : Scalar
  freq : Scalar
deriving DecidableEq, Repr, Inhabited

/-- `BSTATE`, the state of the buffer machine (R41). Code 3 is never produced. -/
inductive BState where
  | idle
  | filling
  | full
deriving DecidableEq, Repr, Inhabited

/-- The operand registers `ARG0..ARG3` (R21); `none` is `⊥`. -/
structure ArgRegs where
  arg0 : Option Scalar
  arg1 : Option Scalar
  arg2 : Option Scalar
  arg3 : Option Scalar
deriving DecidableEq, Repr, Inhabited

/-- The result registers `RES0..RES2` (R21); `none` is `⊥`. -/
structure ResRegs where
  res0 : Option Scalar
  res1 : Option Scalar
  res2 : Option Scalar
deriving DecidableEq, Repr, Inhabited

/-- What the sample ports `sa`, `sb`, `sc` carry (R155). -/
structure Pins where
  sa : Scalar
  sb : Scalar
  sc : Scalar
deriving DecidableEq, Repr, Inhabited

/-- One element of an address space as a reader gets it (R60): a scalar, or a small integer or flag register. -/
inductive Elem where
  | scalar (x : Scalar)
  | bits (v : BitVec 16)
deriving DecidableEq, Repr

/-- What `hwdata` carries. The format of a scalar is open (R14), so the lines are given both as the scalar a
scalar register takes from them and as the low bits a flag register takes from them. Log entry 9. -/
structure HostData where
  scalar : Scalar
  bits : BitVec 16
deriving DecidableEq, Repr, Inhabited

/-- One access through the host port (R155): `hsel` (false `REG`, true `BUF`), `haddr`, `hwe`, `hwdata`. -/
structure HostAccess where
  hsel : Bool
  haddr : BitVec 16
  hwe : Bool
  hwdata : HostData
deriving DecidableEq, Repr, Inhabited

/-- What the outside world does to the ports at one `clk` edge (R155): `rst_n`, the event word `{tick, trig}`
(R83), the sample ports, and a host access or none. `overlap` is not a port: it is the outside world's choice
of how long the cycle a tick starts takes (R218), false for a cycle that has finished before the next edge of
the list, true for one that later edges fall into (R72, log entry 4). -/
structure PortEdge where
  rstN : Bool
  word : BitVec 2
  pins : Pins
  host : Option HostAccess
  overlap : Bool
deriving DecidableEq, Repr, Inhabited

/-- The state of the machine. -/
structure State where
  /-- The parameters of R5 with the wiring. The MODEL's own field: no step writes it. Log entry 2. -/
  build : Build
  /-- `CTRL.RUN` (R23): false INIT, true RUN. -/
  run : Bool
  /-- The global `DT` (R24). -/
  dt : Scalar
  /-- `STATUS.BSTATE` (R41). -/
  bstate : BState
  /-- `STATUS.TRIG_PREV` (R42). -/
  trigPrev : Bool
  /-- `BIDX` (R40). -/
  bidx : Nat
  /-- `SA` (R25). -/
  sa : Scalar
  /-- `SB` (R25). -/
  sb : Scalar
  /-- `SC` (R25). -/
  sc : Scalar
  /-- `ACT[j]` (R26); the ports `act[j]` show these registers (R155). -/
  act : Bank Scalar
  /-- `HOLD[k]` (R43). -/
  hold : Bank Scalar
  /-- `lpf[i]` (R27, R28). -/
  lpf : Bank LpfRegs
  /-- `intg[i]` (R29). -/
  intg : Bank IntgRegs
  /-- `pi[i]` (R30 to R34). -/
  pi : Bank PiRegs
  /-- `pll[i]` (R35 to R38). -/
  pll : Bank PllRegs
  /-- `BUF` (R39), by `BUF` address (R63): lane `l` of entry `n` at `4 n + l`. -/
  buf : Cells
  /-- `ARG0..ARG3` (R21). -/
  arg : ArgRegs
  /-- `RES0..RES2` (R21). -/
  res : ResRegs
  /-- `NET[n]` (R44), by net number. -/
  net : Cells
  /-- `step` (R22). -/
  stepIdx : Nat
  /-- `BUSY` (R45). -/
  busy : Bool
  /-- The local `edge` of R141, which lives from a cycle's prologue to its epilogue. The MODEL's own field. -/
  edge : Bool
  /-- START was performed while a cycle was in progress: the re-arming of `step`, nets, operands and results follows that
  cycle's epilogue. The MODEL's own field. Log entry 12. -/
  rearm : Bool
  /-- The levels on `sa`, `sb`, `sc` at the current `clk` edge (R155). The MODEL's own field. -/
  pins : Pins
  /-- The port `done` (R156). -/
  done : Bool
  /-- The port `hrdata` (R155): the answer to the host read of the last edge, `none` for `⊥` or no read. -/
  hrdata : Option Elem
  /-- What the outside world does at the `clk` edges to come, the next first. The MODEL's own field. -/
  inputs : List PortEdge
deriving DecidableEq, Repr

/-- Where a `NoValue` arose (R175): operand `k` of the step with index `step`, or an output of the epilogue. -/
inductive ValueSite where
  | operand (step k : Nat)
  | act (j : Nat)
  | hold (k : Nat)
deriving DecidableEq, Repr

/-- The fault outcomes of R171. Each ends the behaviour with no next state. -/
inductive Fault where
  /-- Code 1, `InvalidConfig` (R171, R172): raised by `LPF i` at a zero divisor (R110, R112 (a) and (c)) and by START
  when `ValidConfig` fails (R185, R206), with block and instance number, and nowhere else; U1 and U2 of spec/93 forbid
  any value in its place. Safe: the hardware would go on with results the spec does not claim. -/
  | invalidConfig (blk inst : Nat)
  /-- Code 2, `IllegalOp` (R173): raised by the command decoder, with the command word. Safe, as R173 says. -/
  | illegalOp (w : BitVec 8)
  /-- Code 3, `BadInstance` (R174): raised by the command decoder and by an operation whose instance the build
  does not have, with the command word. Safe, as R174 says. -/
  | badInstance (w : BitVec 8)
  /-- Code 4, `NoValue` (R175): raised by an operation whose operand register holds `⊥` and by the epilogue
  for an output routed from an empty net. Safe: a stale value is never reused. -/
  | noValue (site : ValueSite)
deriving DecidableEq, Repr

/-- The code number of a fault outcome (R171). -/
def Fault.code : Fault → Nat
  | .invalidConfig _ _ => 1
  | .illegalOp _ => 2
  | .badInstance _ => 3
  | .noValue _ => 4

/-- What the model refuses. -/
inductive Refusal where
  /-- An instruction without a meaning. No arm answers it. Safe. -/
  | notModelled (mnemonic : String)
  /-- START on a build that is not well formed (R92: a model refuses any other wiring), or whose counts are
  outside the ranges of R5. Raised by the host's write of 1 to `CTRL.RUN`. Safe: no such hardware exists. -/
  | illFormedBuild
deriving DecidableEq, Repr

/-- The outcome of an operation. -/
abbrev Out : Type := Host.Outcome State Fault Refusal

/-- The constant `ZERO` (R7). -/
abbrev zero : Scalar := .lit 0

/-- The reset values of one filter (R202). -/
def LpfRegs.reset : LpfRegs := { fc := zero, dt := zero, y := zero }

/-- The reset value of one integrator (R202). -/
def IntgRegs.reset : IntgRegs := { acc := zero }

/-- The reset values of one PI controller (R202). -/
def PiRegs.reset : PiRegs :=
  { kp := zero, ki := zero, outLo := zero, outHi := zero, intLo := zero, intHi := zero,
    clampEn := { intEn := false, outEn := false }, acc := zero, eprev := zero }

/-- The reset values of one PLL (R202). -/
def PllRegs.reset : PllRegs := { pi := PiRegs.reset, theta := zero, omega := zero, freq := zero }

/-- Every operand register empty (R202). -/
def ArgRegs.empty : ArgRegs := { arg0 := none, arg1 := none, arg2 := none, arg3 := none }

/-- Every result register empty (R202). -/
def ResRegs.empty : ResRegs := { res0 := none, res1 := none, res2 := none }

/-- The machine of build `b` right after reset (R201, R202, R203), with sample ports at `ZERO` and no port
activity to come. -/
def State.resetOf (b : Build) : State :=
  { build := b, run := false, dt := zero, bstate := .idle, trigPrev := true, bidx := 0,
    sa := zero, sb := zero, sc := zero,
    act := Vector.replicate 16 zero, hold := Vector.replicate 16 zero,
    lpf := Vector.replicate 16 LpfRegs.reset, intg := Vector.replicate 16 IntgRegs.reset,
    pi := Vector.replicate 16 PiRegs.reset, pll := Vector.replicate 16 PllRegs.reset,
    buf := [], arg := ArgRegs.empty, res := ResRegs.empty, net := [], stepIdx := 0, busy := false,
    edge := false, rearm := false, pins := { sa := zero, sb := zero, sc := zero }, done := false, hrdata := none,
    inputs := [] }

/-- The machine right after reset, whatever this hardware's build is (R200, log entry 2). -/
def State.reset : State := State.resetOf Config.build

end Sys2Proof.Machine
end

