-- ==== Sys2Proof/Machine/Flags.lean ====
section
/-! DEFINITION. The flag bits and the flag registers as words (R23, R32, R41, R42, U13). No operation writes a
flag but `CYCLE` and START; the spec has no arithmetic condition codes. -/

namespace Sys2Proof.Machine

/-- The code of a state of the buffer machine in `STATUS` bits 1:0 (R41). -/
def BState.code : BState → BitVec 2
  | .idle => 0#2
  | .filling => 1#2
  | .full => 2#2

/-- `CTRL` as a host reads it: `RUN` in bit 0, the unnamed bits zero (R23). -/
def ctrlWord (s : State) : BitVec 16 := (BitVec.ofBool s.run).zeroExtend 16

/-- `STATUS` as a host reads it: `BSTATE` in bits 1:0 (`Idle` always when there is no buffer), `TRIG_PREV` in
bit 2, the other bits zero (R41, R42). -/
def statusWord (s : State) : BitVec 16 :=
  (BitVec.ofBool s.trigPrev ++ (if s.build.bufEn then s.bstate.code else 0#2)).zeroExtend 16

/-- `BIDX` as a host reads it: zero when there is no buffer (R40). -/
def bidxWord (s : State) : BitVec 16 := if s.build.bufEn then BitVec.ofNat 16 s.bidx else 0#16

/-- `CLAMP_EN` as a host reads it (R32). -/
def clampEnWord (c : ClampEn) : BitVec 16 :=
  (BitVec.ofBool c.outEn ++ BitVec.ofBool c.intEn).zeroExtend 16

/-- `CLAMP_EN` as a write of `v` leaves it: bits above 1 ignore writes (R32). -/
def clampEnOfBits (v : BitVec 16) : ClampEn := { intEn := v.getLsbD 0, outEn := v.getLsbD 1 }

/-- A rising edge is observed: the trigger is sampled high and the previous cycle saw it low (R146). -/
def risingEdge (t prev : Bool) : Bool := t && !prev

end Sys2Proof.Machine
end

