-- ==== Sys2Proof/Machine/Numerics.lean ====
section
/-! DEFINITION. The constants and helpers of `NUM` (R7, R10, R11), and the two questions about scalars on which the
machine's control depends: is one greater than the other (`ValidConfig`, R206), and has it a value, that is, is no
divisor in it zero (R172). Every other comparison of the spec (the two tests of a clamp, the wrap of the angle)
chooses between two values and stays inside the scalar as an `ifGt` or `ifLt` node.

Both questions are answered in the build's `NUM` (R5). A format answers them by its own operations. In the reference
instance the answer is the truth about the real numbers: where a rational enclosure of the scalars, computed with exact
integers, settles the question, that gives it and can be evaluated; elsewhere the truth is named without being
computed. Log entry 3. -/

namespace Sys2Proof.Machine

/-- `ONE` (R7). -/
def one : Scalar := .lit 1
/-- `HALF` (R7), 0.5. -/
def half : Scalar := .lit { num := 1, den := 2 }
/-- `THREE` (R7). -/
def three : Scalar := .lit 3
/-- `TWO_THIRDS` (R7), 2/3. -/
def twoThirds : Scalar := .lit { num := 2, den := 3 }

/-- `trap(cur, prev, h) = (HALF * h) * (cur + prev)` (R11). -/
def trap (cur prev h : Scalar) : Scalar := .mul (.mul half h) (.add cur prev)

/-- `clamp(x, lo, hi)` (R10): `if x > hi then hi else if x < lo then lo else x`, where the bounds are not
reversed; the free value of log entry 5 where they are. -/
def clamp (x lo hi : Scalar) : Scalar :=
  .ifGt lo hi (Config.clampReversed x lo hi) (.ifGt x hi hi (.ifLt x lo lo x))

/-- The fraction `num / (dp + 1)`: the denominator is stored less one, so that it is never zero. -/
structure Frac where
  num : Int
  dp : Nat
deriving DecidableEq, Repr

/-- The denominator. -/
def Frac.den (a : Frac) : Nat := a.dp + 1

def Frac.ofRat (q : Rat) : Frac := { num := q.num, dp := q.den - 1 }
def Frac.ofInt (n : Int) : Frac := { num := n, dp := 0 }

def Frac.le (a b : Frac) : Bool := decide (a.num * b.den ≤ b.num * a.den)
def Frac.lt (a b : Frac) : Bool := decide (a.num * b.den < b.num * a.den)
def Frac.neg (a : Frac) : Frac := { num := -a.num, dp := a.dp }
def Frac.add (a b : Frac) : Frac :=
  { num := a.num * b.den + b.num * a.den, dp := a.dp * b.dp + a.dp + b.dp }
def Frac.mul (a b : Frac) : Frac := { num := a.num * b.num, dp := a.dp * b.dp + a.dp + b.dp }
def Frac.min (a b : Frac) : Frac := if a.le b then a else b
def Frac.max (a b : Frac) : Frac := if a.le b then b else a
/-- The reciprocal of a fraction that is not zero. -/
def Frac.inv (a : Frac) : Frac :=
  if 0 < a.num then { num := a.den, dp := a.num.natAbs - 1 } else { num := -(a.den : Int), dp := a.num.natAbs - 1 }

/-- A closed interval of the reals with rational ends. -/
structure Encl where
  lo : Frac
  hi : Frac
deriving DecidableEq, Repr

def Encl.point (a : Frac) : Encl := { lo := a, hi := a }
def Encl.add (a b : Encl) : Encl := { lo := a.lo.add b.lo, hi := a.hi.add b.hi }
def Encl.neg (a : Encl) : Encl := { lo := a.hi.neg, hi := a.lo.neg }
def Encl.mul (a b : Encl) : Encl :=
  let p := a.lo.mul b.lo
  let q := a.lo.mul b.hi
  let r := a.hi.mul b.lo
  let t := a.hi.mul b.hi
  { lo := (p.min q).min (r.min t), hi := (p.max q).max (r.max t) }
/-- The reciprocal, where the interval does not reach zero. -/
def Encl.inv? (a : Encl) : Option Encl :=
  if (Frac.ofInt 0).lt a.lo || a.hi.lt (Frac.ofInt 0) then some { lo := a.hi.inv, hi := a.lo.inv } else none
/-- The smallest interval that holds both. -/
def Encl.hull (a b : Encl) : Encl := { lo := a.lo.min b.lo, hi := a.hi.max b.hi }
/-- The interval is one integer. -/
def Encl.isInt (a : Encl) (n : Int) : Bool :=
  a.lo.le (Frac.ofInt n) && (Frac.ofInt n).le a.lo && a.hi.le (Frac.ofInt n) && (Frac.ofInt n).le a.hi

/-- From -1 to 1: where every cosine and sine lies. -/
def Encl.unit : Encl := { lo := Frac.ofInt (-1), hi := Frac.ofInt 1 }
/-- An enclosure of `SQRT3_2`. -/
def Encl.sqrt3Div2 : Encl := { lo := { num := 17320508, dp := 19999999 }, hi := { num := 17320509, dp := 19999999 } }
/-- An enclosure of `TWO_PI`, to twenty digits. -/
def Encl.twoPi : Encl :=
  { lo := { num := 628318530717958647692, dp := 99999999999999999999 },
    hi := { num := 628318530717958647694, dp := 99999999999999999999 } }
/-- An enclosure of `TWO_PI_3`. -/
def Encl.twoPiDiv3 : Encl :=
  { lo := { num := 628318530717958647692, dp := 299999999999999999999 },
    hi := { num := 628318530717958647694, dp := 299999999999999999999 } }

/-- One of two enclosed values, chosen by the comparison `a > b`. -/
def enclChoice (a b x y : Option Encl) : Option Encl :=
  match a, b with
  | some ea, some eb =>
    if eb.hi.lt ea.lo then x
    else if ea.hi.le eb.lo then y
    else match x, y with
      | some ex, some ey => some (ex.hull ey)
      | _, _ => none
  | _, _ => none

/-- An enclosure of a cosine or sine, which is the integer `n` at zero. -/
def enclWave (n : Int) : Option Encl → Option Encl
  | some e => if e.isInt 0 then some (Encl.point (Frac.ofInt n)) else some Encl.unit
  | none => none

/-- An enclosure of the sum, where both are enclosed. -/
def enclAdd : Option Encl → Option Encl → Option Encl
  | some a, some b => some (a.add b)
  | _, _ => none

/-- An enclosure of the product, where both are enclosed. -/
def enclMul : Option Encl → Option Encl → Option Encl
  | some a, some b => some (a.mul b)
  | _, _ => none

/-- A rational enclosure of a scalar's real value; a scalar that has an enclosure has a value. -/
def encl : Scalar → Option Encl
  | .lit q => some (Encl.point (Frac.ofRat q))
  | .sqrt3Div2 => some Encl.sqrt3Div2
  | .twoPi => some Encl.twoPi
  | .twoPiDiv3 => some Encl.twoPiDiv3
  | .free _ => none
  | .add a b => enclAdd (encl a) (encl b)
  | .sub a b => enclAdd (encl a) ((encl b).map Encl.neg)
  | .mul a b => enclMul (encl a) (encl b)
  | .div a b => enclMul (encl a) ((encl b).bind Encl.inv?)
  | .cos a => enclWave 1 (encl a)
  | .sin a => enclWave 0 (encl a)
  | .ifGt a b x y => enclChoice (encl a) (encl b) (encl x) (encl y)
  | .ifLt a b x y => enclChoice (encl b) (encl a) (encl x) (encl y)

/-- The enclosures settle that `a > b`. -/
def knownGt (a b : Scalar) : Bool :=
  match encl a, encl b with
  | some ea, some eb => eb.hi.lt ea.lo
  | _, _ => false

/-- The enclosures settle that not `a > b`. -/
def knownNotGt (a b : Scalar) : Bool :=
  decide (a = b) ||
  match encl a, encl b with
  | some ea, some eb => ea.hi.le eb.lo
  | _, _ => false

/-- The enclosures settle that the scalar has no value: it divides by zero. -/
def knownNoValue : Scalar → Bool
  | .lit _ => false
  | .sqrt3Div2 => false
  | .twoPi => false
  | .twoPiDiv3 => false
  | .free _ => false
  | .add a b => knownNoValue a || knownNoValue b
  | .sub a b => knownNoValue a || knownNoValue b
  | .mul a b => knownNoValue a || knownNoValue b
  | .div a b => knownNoValue a || knownNoValue b || (encl b).any (·.isInt 0)
  | .cos a => knownNoValue a
  | .sin a => knownNoValue a
  | .ifGt a b _ _ => knownNoValue a || knownNoValue b
  | .ifLt a b _ _ => knownNoValue a || knownNoValue b

/-- Whether a proposition holds. Its type says that the answer is right; nothing computes it: the equation below
is all there is, and a program that ran it would not end. -/
def settled (p : Prop) (h : Nonempty (Decidable p)) (u : Unit) : Decidable p := settled p h u
partial_fixpoint

/-- The truth value of a proposition, named and not computed. -/
def truth (p : Prop) : Bool := @decide p (settled p ⟨Classical.propDecidable p⟩ ())

/-- `a > b` in the real numbers (R6). -/
def realGt (a b : Scalar) : Bool :=
  if knownGt a b then true
  else if knownNotGt a b then false
  else truth (∃ x y : ℝ, a.evalIn Num.real Config.freeReal = some x ∧ b.evalIn Num.real Config.freeReal = some y ∧ x > y)

/-- The scalar has a value in the real numbers: no divisor in it is zero (R6). -/
def realHasValue (a : Scalar) : Bool :=
  if (encl a).isSome then true
  else if knownNoValue a then false
  else truth (∃ x : ℝ, a.evalIn Num.real Config.freeReal = some x)

/-- `a > b` in a format; not so where one has no value. -/
def formatGt (k : Nat) (a b : Scalar) : Bool :=
  match a.evalIn (Config.format k).num (Config.formatInput k), b.evalIn (Config.format k).num (Config.formatInput k) with
  | some x, some y => (Config.format k).gt x y
  | _, _ => false

/-- `a > b` in the build's `NUM` (R6). -/
def numGt (c : Numerics) (a b : Scalar) : Bool :=
  match c with
  | .real => realGt a b
  | .format k => formatGt k a b

/-- The scalar has a value in the build's `NUM`: no divisor in it is zero (R6, R172). -/
def hasValue (c : Numerics) (a : Scalar) : Bool :=
  match c with
  | .real => realHasValue a
  | .format k => (a.evalIn (Config.format k).num (Config.formatInput k)).isSome

end Sys2Proof.Machine
end

