-- ==== Sys2Proof/Machine/Ops.lean ====
section
/-! DEFINITION. The named operations over memory and registers: the banks, the cell lists that hold `NET` and
`BUF`, the updates of one part of the state, the buffer machine (R147 to R149), and the entry of and the
return from the one interrupt the core knows, the sampling tick (R180, R181). -/

namespace Sys2Proof.Machine

/-- Go on with the next state, or stop as the first part stopped. -/
def andThen (o : Out) (f : State → Out) : Out :=
  match o with
  | .next s => f s
  | .fault r => .fault r
  | .refused r => .refused r

/-- Write one register of a bank. -/
def Bank.put {α : Type} (b : Bank α) (i : Inst) (x : α) : Bank α := b.set i.val x i.isLt

/-- The scalar at an address, `none` for `⊥` (R13, R65). -/
def Cells.read (c : Cells) (a : Nat) : Option Scalar :=
  match c with
  | [] => none
  | p :: rest => if p.1 = a then some p.2 else Cells.read rest a

/-- Store a scalar at an address, keeping the addresses strictly rising. -/
def Cells.write (c : Cells) (a : Nat) (x : Scalar) : Cells :=
  match c with
  | [] => [(a, x)]
  | p :: rest =>
    if a < p.1 then (a, x) :: p :: rest
    else if p.1 = a then (a, x) :: rest
    else p :: Cells.write rest a x

/-- Leave `⊥` at an address. -/
def Cells.erase (c : Cells) (a : Nat) : Cells :=
  match c with
  | [] => []
  | p :: rest => if p.1 = a then rest else p :: Cells.erase rest a

/-- `c[a] <- v`, where `none` is `⊥`. -/
def Cells.assign (c : Cells) (a : Nat) (v : Option Scalar) : Cells :=
  match v with
  | some x => c.write a x
  | none => c.erase a

/-- The canonical form: addresses strictly rising. -/
def Cells.wf (c : Cells) : Bool :=
  match c with
  | [] => true
  | [_] => true
  | p :: q :: rest => decide (p.1 < q.1) && Cells.wf (q :: rest)

/-- Load the operand registers (R93). -/
def State.setArg (s : State) (a : ArgRegs) : State := { s with arg := a }
/-- Write the result registers; a result the rule does not name is `none`, `⊥` (R21, R84). -/
def State.setRes (s : State) (r : ResRegs) : State := { s with res := r }
/-- Write the nets. -/
def State.setNet (s : State) (c : Cells) : State := { s with net := c }
/-- Write `step` (R22). -/
def State.setStep (s : State) (n : Nat) : State := { s with stepIdx := n }
/-- Write the registers of one filter. -/
def State.setLpf (s : State) (i : Inst) (r : LpfRegs) : State := { s with lpf := Bank.put s.lpf i r }
/-- Write the register of one integrator. -/
def State.setIntg (s : State) (i : Inst) (r : IntgRegs) : State := { s with intg := Bank.put s.intg i r }
/-- Write the registers of one PI controller. -/
def State.setPi (s : State) (i : Inst) (r : PiRegs) : State := { s with pi := Bank.put s.pi i r }
/-- Write the registers of one PLL. -/
def State.setPll (s : State) (i : Inst) (r : PllRegs) : State := { s with pll := Bank.put s.pll i r }

/-- The `BUF` address of lane `l` of entry `n` (R63). -/
def bufAddr (n l : Nat) : Nat := 4 * n + l

/-- Store the Sample in entry `n` of the buffer, lanes A, B, C (R147). -/
def State.storeSample (s : State) (n : Nat) : State :=
  { s with buf := ((s.buf.write (bufAddr n 0) s.sa).write (bufAddr n 1) s.sb).write (bufAddr n 2) s.sc }

/-- Store the Sample at `BIDX` and advance `BIDX`; the store of the last entry makes the machine `Full`, which
is left at once for `Idle` with `BIDX` zero (R147, R148, R149). -/
def State.fillEntry (s : State) : State :=
  let s1 := s.storeSample s.bidx
  if s.bidx + 1 = s.build.bufCap then { s1 with bidx := 0, bstate := .idle }
  else { s1 with bidx := s.bidx + 1, bstate := .filling }

/-- The procedure `buffer_step(edge)` (R147). -/
def State.bufferStep (s : State) (edge : Bool) : State :=
  match s.bstate with
  | .idle => if edge then s.fillEntry else s
  | .filling => s.fillEntry
  | .full => s

/-- Copy nets to consecutive registers of a bank, from register `j` upward (R144). The number of the output
whose net holds `⊥`, if there is one (R175). -/
def copyNets (net : Cells) (srcs : List Nat) (j : Nat) (bank : Bank Scalar) : Except Nat (Bank Scalar) :=
  match srcs with
  | [] => .ok bank
  | n :: rest =>
    match net.read n with
    | none => .error j
    | some x => copyNets net rest (j + 1) (if h : j < 16 then Bank.put bank ⟨j, h⟩ x else bank)

/-- The prologue of a cycle with trigger level `t`, which is the entry of the sampling interrupt (R141, R142,
R146, R180): `BUSY`, the Sample, the trigger and its edge, every net and operand and result empty, `step` 0. -/
def State.enterCycle (s : State) (t : Bool) : State :=
  { s with busy := true, sa := s.pins.sa, sb := s.pins.sb, sc := s.pins.sc,
           edge := risingEdge t s.trigPrev, trigPrev := t,
           net := [], arg := ArgRegs.empty, res := ResRegs.empty, stepIdx := 0, rearm := false }

/-- The re-arming of the capture by START: the buffer machine and the trigger history (R185, R42, R146). -/
def State.captureRearmed (s : State) : State := { s with bstate := .idle, bidx := 0, trigPrev := true }

/-- The re-arming of the chain by START: `step`, nets, operands and results (R185). -/
def State.chainRearmed (s : State) : State :=
  { s with stepIdx := 0, net := [], arg := ArgRegs.empty, res := ResRegs.empty, rearm := false }

/-- The state the epilogue leaves when it writes `acts` and `holds` (R141, R144, R145, R147, R156, R181); the
re-arming of the chain by a START performed during the cycle follows it (R185, log entry 12). -/
def State.epilogueState (s : State) (acts holds : Bank Scalar) : State :=
  let s1 := { s with act := acts, hold := holds }
  let s2 := if s.build.bufEn then s1.bufferStep s.edge else s1
  let s3 := { s2 with stepIdx := 0, busy := false, edge := false, done := true }
  if s.rearm then s3.chainRearmed else s3

/-- The epilogue of a cycle, which is the return from the sampling interrupt (R141, R144, R181): the outputs,
the hold latches, the buffer machine, `step` and `BUSY` zero, `done`. A net that holds `⊥` raises `NoValue`
(R175). -/
def leaveCycle (s : State) : Out :=
  match copyNets s.net s.build.wiring.actSrc 0 s.act with
  | .error j => .fault (.noValue (.act j))
  | .ok acts =>
    match copyNets s.net s.build.wiring.holdSrc 0 s.hold with
    | .error k => .fault (.noValue (.hold k))
    | .ok holds => .next (s.epilogueState acts holds)

end Sys2Proof.Machine
end

