-- ==== Sys2Proof/Machine/Operands.lean ====
section
/-! DEFINITION. Operands: the sources of a wiring step (R91, R93), the loading of the operand registers, and
the reading of an operand by an operation (R84, R175). -/

namespace Sys2Proof.Machine

/-- `value(src)` (R93), `none` for `⊥`: the Sample, a net, a hold latch the build has, the global `DT`, a
constant. -/
def srcValue (s : State) : Src → Option Scalar
  | .sa => some s.sa
  | .sb => some s.sb
  | .sc => some s.sc
  | .net k => s.net.read k
  | .hold k => if h : k < 16 then (if k < s.build.nHold then some (s.hold[k]'h) else none) else none
  | .dt => some s.dt
  | .const x => some x

/-- The value of the `k`th source of a list, `⊥` beyond the list (R93). -/
def argValue (s : State) (args : List Src) (k : Nat) : Option Scalar := args[k]?.bind (srcValue s)

/-- The operand registers as a step's sources load them (R93). -/
def argsOf (s : State) (args : List Src) : ArgRegs :=
  { arg0 := argValue s args 0, arg1 := argValue s args 1, arg2 := argValue s args 2, arg3 := argValue s args 3 }

/-- Give an operation its operand `k`, or raise `NoValue` where the register holds `⊥` (R84, R175). -/
def operand (s : State) (k : Nat) (v : Option Scalar) (f : Scalar → Out) : Out :=
  match v with
  | some x => f x
  | none => .fault (.noValue (.operand s.stepIdx k))

/-- Run an operation of the instance of instruction `i` if the build has it, or raise `BadInstance` with the
command word (R87, R174). -/
def withInstance (s : State) (i : Instr) (o : Out) : Out :=
  if i.wf s.build then o else .fault (.badInstance (encodeCommand i))

/-- The result `res[k]` (R21). -/
def resAt (r : ResRegs) : Nat → Option Scalar
  | 0 => r.res0
  | 1 => r.res1
  | 2 => r.res2
  | _ => none

/-- Copy the results to the destination nets of a step, from `res[k]` upward (R93). -/
def storeResults (r : ResRegs) (dst : List (Option Nat)) (k : Nat) (net : Cells) : Cells :=
  match dst with
  | [] => net
  | none :: rest => storeResults r rest (k + 1) net
  | some n :: rest => storeResults r rest (k + 1) (net.assign n (resAt r k))

end Sys2Proof.Machine
end

