-- ==== Sys2Proof/Machine/FilterIntegrator.lean ====
section
/-! DEFINITION. The low-pass filter `LPF` and the trapezoidal integrator `INTG`
(spec/41_filter_integrator.md). -/

namespace Sys2Proof.Machine

/-- The divisor of the time constant, `TWO_PI * fc` (R110). -/
def lpfTauDivisor (fc : Scalar) : Scalar := .mul .twoPi fc

/-- The time constant, `ONE / (TWO_PI * fc)` (R110). -/
def lpfTau (fc : Scalar) : Scalar := .div one (lpfTauDivisor fc)

/-- The divisor of the blend coefficient, `tau + h` (R110). -/
def lpfBlendDivisor (fc h : Scalar) : Scalar := .add (lpfTau fc) h

/-- The blend coefficient, `h / (tau + h)` (R110, R111). -/
def lpfBlend (fc h : Scalar) : Scalar := .div h (lpfBlendDivisor fc h)

/-- The output, `(c1 * x) + ((ONE - c1) * Y)` (R110). -/
def lpfOutput (r : LpfRegs) (x : Scalar) : Scalar :=
  .add (.mul (lpfBlend r.fc r.dt) x) (.mul (.sub one (lpfBlend r.fc r.dt)) r.y)

/-- `LPF i` (R110): raises `InvalidConfig` where one of the two divisions has a zero divisor, that is, where the blend
coefficient has no value in the build's `NUM` (R112, R172). -/
def execLpf (i : Inst) (s : State) : Out :=
  withInstance s (.lpf i) <|
  operand s 0 s.arg.arg0 fun x =>
  if hasValue s.build.num (lpfBlend s.lpf[i].fc s.lpf[i].dt) then
    .next ((s.setLpf i { s.lpf[i] with y := lpfOutput s.lpf[i] x }).setRes
      { res0 := some (lpfOutput s.lpf[i] x), res1 := none, res2 := none })
  else .fault (.invalidConfig 4 i.val)

/-- The new running sum, `ACC + trap(cur, prev, h)` (R113). -/
def intgSum (acc cur prev h : Scalar) : Scalar := .add acc (trap cur prev h)

/-- `INTG i` (R113). -/
def execIntg (i : Inst) (s : State) : Out :=
  withInstance s (.intg i) <|
  operand s 0 s.arg.arg0 fun cur =>
  operand s 1 s.arg.arg1 fun prev =>
  operand s 2 s.arg.arg2 fun h =>
  .next ((s.setIntg i { acc := intgSum s.intg[i].acc cur prev h }).setRes
    { res0 := some (intgSum s.intg[i].acc cur prev h), res1 := none, res2 := none })

end Sys2Proof.Machine
end

