-- ==== Sys2Proof/Machine/FrameTransform.lean ====
section
/-! DEFINITION. The frame transforms `CLARKE`, `PARK`, `IPARK` (spec/40_frame_transform.md). They read operand
registers and write result registers only (R100). -/

namespace Sys2Proof.Machine

/-- The first result of `CLARKE`: `TWO_THIRDS * ((a - (HALF * b)) - (HALF * c))` (R103, log entry 17). -/
def clarkeAlpha (a b c : Scalar) : Scalar := .mul twoThirds (.sub (.sub a (.mul half b)) (.mul half c))

/-- The second result of `CLARKE`: `TWO_THIRDS * (SQRT3_2 * (b - c))` (R103, log entry 17). -/
def clarkeBeta (b c : Scalar) : Scalar := .mul twoThirds (.mul .sqrt3Div2 (.sub b c))

/-- The angle phase b is projected at, `th - TWO_PI_3` (R101, R102). -/
def angleB (th : Scalar) : Scalar := .sub th .twoPiDiv3

/-- The angle phase c is projected at, `th + TWO_PI_3` (R101, R102). -/
def angleC (th : Scalar) : Scalar := .add th .twoPiDiv3

/-- The direct component of `PARK`, which is `park_d` of R130 (R101). -/
def parkD (th a b c : Scalar) : Scalar :=
  .mul twoThirds (.add (.add (.mul a (.cos th)) (.mul b (.cos (angleB th)))) (.mul c (.cos (angleC th))))

/-- The quadrature component of `PARK`, with `+sin` (R101). -/
def parkQ (th a b c : Scalar) : Scalar :=
  .mul twoThirds (.add (.add (.mul a (.sin th)) (.mul b (.sin (angleB th)))) (.mul c (.sin (angleC th))))

/-- The zero-sequence component of `PARK`: `((a + b) + c) / THREE` (R101). -/
def parkZero (a b c : Scalar) : Scalar := .div (.add (.add a b) c) three

/-- One phase of `IPARK` at the angle `th`: `((d * cos(th)) + (q * sin(th))) + z` (R102). -/
def iparkPhase (th d q z : Scalar) : Scalar := .add (.add (.mul d (.cos th)) (.mul q (.sin th))) z

/-- `CLARKE` (R103). -/
def execClarke (s : State) : Out :=
  operand s 0 s.arg.arg0 fun a =>
  operand s 1 s.arg.arg1 fun b =>
  operand s 2 s.arg.arg2 fun c =>
  .next (s.setRes { res0 := some (clarkeAlpha a b c), res1 := some (clarkeBeta b c), res2 := none })

/-- `PARK` (R101). -/
def execPark (s : State) : Out :=
  operand s 0 s.arg.arg0 fun th =>
  operand s 1 s.arg.arg1 fun a =>
  operand s 2 s.arg.arg2 fun b =>
  operand s 3 s.arg.arg3 fun c =>
  .next (s.setRes { res0 := some (parkD th a b c), res1 := some (parkQ th a b c), res2 := some (parkZero a b c) })

/-- `IPARK` (R102). -/
def execIpark (s : State) : Out :=
  operand s 0 s.arg.arg0 fun th =>
  operand s 1 s.arg.arg1 fun d =>
  operand s 2 s.arg.arg2 fun q =>
  operand s 3 s.arg.arg3 fun z =>
  .next (s.setRes { res0 := some (iparkPhase th d q z), res1 := some (iparkPhase (angleB th) d q z),
                    res2 := some (iparkPhase (angleC th) d q z) })

end Sys2Proof.Machine
end

