-- ==== Sys2Proof/Machine/PiController.lean ====
section
/-! DEFINITION. The PI controller with saturation (spec/42_pi_controller.md): the procedure `pi_update` of
R120, which `PI` runs on a stand-alone instance and `PLL` on its embedded one (R131), and `PI`. -/

namespace Sys2Proof.Machine

/-- The raw sum `s`, `ACC + trap(e, EPREV, DT)` (R120). -/
def piRawSum (dt : Scalar) (p : PiRegs) (e : Scalar) : Scalar := .add p.acc (trap e p.eprev dt)

/-- The accumulator after its clamp, if `INT_EN` (R120, R121). -/
def piAcc (dt : Scalar) (p : PiRegs) (e : Scalar) : Scalar :=
  if p.clampEn.intEn then clamp (piRawSum dt p e) p.intLo p.intHi else piRawSum dt p e

/-- The unclamped output `u`, `(KP * e) + (KI * acc)` (R120). -/
def piRawOutput (dt : Scalar) (p : PiRegs) (e : Scalar) : Scalar :=
  .add (.mul p.kp e) (.mul p.ki (piAcc dt p e))

/-- The output after its clamp, if `OUT_EN` (R120, R121). -/
def piOutput (dt : Scalar) (p : PiRegs) (e : Scalar) : Scalar :=
  if p.clampEn.outEn then clamp (piRawOutput dt p e) p.outLo p.outHi else piRawOutput dt p e

/-- The registers `pi_update` leaves: `ACC` and `EPREV` written, the configuration as before (R120). -/
def piAfter (dt : Scalar) (p : PiRegs) (e : Scalar) : PiRegs := { p with acc := piAcc dt p e, eprev := e }

/-- `PI i` (R120). -/
def execPi (i : Inst) (s : State) : Out :=
  withInstance s (.pi i) <|
  operand s 0 s.arg.arg0 fun e =>
  .next ((s.setPi i (piAfter s.dt s.pi[i] e)).setRes
    { res0 := some (piOutput s.dt s.pi[i] e), res1 := none, res2 := none })

end Sys2Proof.Machine
end

