-- ==== Sys2Proof/Machine/Pll.lean ====
section
/-! DEFINITION. The PLL controller (spec/43_pll.md): the six steps of R130. -/

namespace Sys2Proof.Machine

/-- Steps 1 and 2: the error `ZERO - vd`, with `vd` projected at the current angle (R130). -/
def pllError (p : PllRegs) (a b c : Scalar) : Scalar := .sub zero (parkD p.theta a b c)

/-- Step 3: the estimated angular frequency, the output of the embedded PI controller (R130, R131). -/
def pllOmega (dt : Scalar) (p : PllRegs) (a b c : Scalar) : Scalar := piOutput dt p.pi (pllError p a b c)

/-- Step 4: the estimated frequency, `w / TWO_PI` (R130). -/
def pllFreq (dt : Scalar) (p : PllRegs) (a b c : Scalar) : Scalar := .div (pllOmega dt p a b c) .twoPi

/-- Step 5: the angle before the wrap, `th + trap(w, OMEGA, DT)` with the `OMEGA` the previous step left
(R130). -/
def pllRawAngle (dt : Scalar) (p : PllRegs) (a b c : Scalar) : Scalar :=
  .add p.theta (trap (pllOmega dt p a b c) p.omega dt)

/-- The single-step wrap of step 6: one strict comparison with `TWO_PI` and at most one subtraction (R132). -/
def wrapAngle (t : Scalar) : Scalar := .ifGt t .twoPi (.sub t .twoPi) t

/-- The registers the six steps leave (R130). -/
def pllAfter (dt : Scalar) (p : PllRegs) (a b c : Scalar) : PllRegs :=
  { pi := piAfter dt p.pi (pllError p a b c), theta := wrapAngle (pllRawAngle dt p a b c),
    omega := pllOmega dt p a b c, freq := pllFreq dt p a b c }

/-- `PLL i` (R130); the results are the three values it leaves (R133). -/
def execPll (i : Inst) (s : State) : Out :=
  withInstance s (.pll i) <|
  operand s 0 s.arg.arg0 fun a =>
  operand s 1 s.arg.arg1 fun b =>
  operand s 2 s.arg.arg2 fun c =>
  .next ((s.setPll i (pllAfter s.dt s.pll[i] a b c)).setRes
    { res0 := some (pllAfter s.dt s.pll[i] a b c).theta, res1 := some (pllAfter s.dt s.pll[i] a b c).omega,
      res2 := some (pllAfter s.dt s.pll[i] a b c).freq })

end Sys2Proof.Machine
end

