-- ==== Sys2Proof/Machine/Wiring.lean ====
section
/-! DEFINITION. When a wiring is well formed (R92) and when the configuration is valid (R206). -/

namespace Sys2Proof.Machine

/-- The operations the wiring's command words name, in the order of its steps; a word that is no operation
names none. -/
def wiringInstrs (w : Wiring) : List Instr := w.steps.filterMap fun st => okInstr? (decodeCommand st.cmd)

/-- Clauses (a) and (b) of R92 for one step: the command word is one of the seven operations with a legal
instance, and the lists have the lengths R84 and R91 say. -/
def stepShapeOk (b : Build) (st : WireStep) : Bool :=
  match decodeCommand st.cmd with
  | .error _ => false
  | .ok i => i.wf b && decide (st.args.length = i.argCount) && decide (st.dst.length = i.resCount)

/-- The nets a step writes. -/
def stepNets (st : WireStep) : List Nat := st.dst.filterMap id

/-- Clauses (c) and (f) of R92 for one source: a net is written by an earlier step, a hold latch exists. -/
def srcOk (b : Build) (written : List Nat) : Src → Bool
  | .net k => written.contains k
  | .hold k => decide (k < b.nHold)
  | .sa => true
  | .sb => true
  | .sc => true
  | .dt => true
  | .const _ => true

/-- No number occurs twice. -/
def noRepeat : List Nat → Bool
  | [] => true
  | n :: rest => !rest.contains n && noRepeat rest

/-- No instruction occurs twice. -/
def noRepeatInstr : List Instr → Bool
  | [] => true
  | i :: rest => !rest.contains i && noRepeatInstr rest

/-- Clauses (c), (d), (f) of R92 for the steps that come after steps writing the nets `written`. -/
def stepsNetsOk (b : Build) (written : List Nat) : List WireStep → Bool
  | [] => true
  | st :: rest =>
    st.args.all (srcOk b written) && noRepeat (stepNets st) && (stepNets st).all (fun n => !written.contains n)
      && stepsNetsOk b (written ++ (stepNets st)) rest

/-- The operation has state of its own (R82). -/
def statefulOp : Instr → Bool
  | .lpf _ => true
  | .intg _ => true
  | .pi _ => true
  | .pll _ => true
  | .clarke => false
  | .park => false
  | .ipark => false
  | .cycle _ => false

/-- Every net some step writes. -/
def wiringNets (w : Wiring) : List Nat := w.steps.flatMap stepNets

/-- `N_NET`: the smallest number that makes every net written a legal index (R92). -/
def netCount (w : Wiring) : Nat := (wiringNets w).foldr (fun n m => max (n + 1) m) 0

/-- The build is well formed: its counts are in range (R5) and its wiring satisfies R92 (a) to (f). -/
def buildWf (b : Build) : Bool :=
  b.inRange && b.wiring.steps.all (stepShapeOk b) && stepsNetsOk b [] b.wiring.steps
    && b.wiring.actSrc.all (fun n => (wiringNets b.wiring).contains n)
    && b.wiring.holdSrc.all (fun n => (wiringNets b.wiring).contains n)
    && noRepeatInstr ((wiringInstrs b.wiring).filter statefulOp)

/-- Clause (c) of R206 for one PI controller: no enabled bound pair is reversed. -/
def boundsOk (c : Numerics) (p : PiRegs) : Bool :=
  (!p.clampEn.intEn || !numGt c p.intLo p.intHi) && (!p.clampEn.outEn || !numGt c p.outLo p.outHi)

/-- Clause (b) of R206: the block and instance of a filter whose cutoff or period is not above zero. -/
def lpfInvalid (s : State) : Instr → Option (Nat × Nat)
  | .lpf i => if numGt s.build.num s.lpf[i].fc zero && numGt s.build.num s.lpf[i].dt zero then none else some (4, i.val)
  | .clarke => none
  | .park => none
  | .ipark => none
  | .intg _ => none
  | .pi _ => none
  | .pll _ => none
  | .cycle _ => none

/-- Clause (c) of R206: the block and instance of a PI controller or PLL with a reversed enabled bound pair. -/
def piInvalid (s : State) : Instr → Option (Nat × Nat)
  | .pi i => if boundsOk s.build.num s.pi[i] then none else some (6, i.val)
  | .pll i => if boundsOk s.build.num s.pll[i].pi then none else some (7, i.val)
  | .clarke => none
  | .park => none
  | .ipark => none
  | .lpf _ => none
  | .intg _ => none
  | .cycle _ => none

/-- The block and instance at which the configuration fails `ValidConfig`, clauses (a), (b), (c) in turn (R206,
log entry 8); `none` when it is valid. -/
def configFault (s : State) : Option (Nat × Nat) :=
  if numGt s.build.num s.dt zero then
    match (wiringInstrs s.build.wiring).findSome? (lpfInvalid s) with
    | some w => some w
    | none => (wiringInstrs s.build.wiring).findSome? (piInvalid s)
  else some (0, 0)

/-- `ValidConfig` (R206). -/
def validConfig (s : State) : Bool := (configFault s).isNone

end Sys2Proof.Machine
end

