-- ==== Sys2Proof/Machine/Driver.lean ====
section
/-! DEFINITION. The sampling cycle driver (spec/44_cycle_driver.md): the issue of one step of the wiring (R93),
the chain (R143), and `CYCLE` (R140, R141). -/

namespace Sys2Proof.Machine

/-- The fault of a command word the decoder rejects (R171). -/
def commandFault (w : BitVec 8) : DecodeError → Fault
  | .illegalOp v => .illegalOp v
  | .badInstance v => .badInstance v
  | .noEvent _ => .illegalOp w

/-- Issue one step (R93): load the operand registers, run the command's operation by `run`, copy the results to
the destination nets, advance `step`. A rejected command word faults before an empty operand does (R179). -/
def issueWith (run : Instr → State → Out) (st : WireStep) (s : State) : Out :=
  match decodeCommand st.cmd with
  | .error e => .fault (commandFault st.cmd e)
  | .ok i =>
    andThen (run i (s.setArg (argsOf s st.args))) fun t =>
      .next ((t.setNet (storeResults t.res st.dst 0 t.net)).setStep (t.stepIdx + 1))

/-- The operation a command word selects, run on the operand and result registers (R82). The decoder of
command words never answers `CYCLE`. -/
def runCommand (i : Instr) (s : State) : Out :=
  match i with
  | .clarke => execClarke s
  | .park => execPark s
  | .ipark => execIpark s
  | .lpf i => execLpf i s
  | .intg i => execIntg i s
  | .pi i => execPi i s
  | .pll i => execPll i s
  | .cycle _ => .fault (.illegalOp 0#8)

/-- The chain: the steps in list order, each to completion before the next (R143). -/
def runSteps (steps : List WireStep) (s : State) : Out :=
  match steps with
  | [] => .next s
  | st :: rest => andThen (issueWith runCommand st s) (runSteps rest)

/-- A tick starts a cycle only in RUN mode with no cycle in progress (R83, R140, R182, R184). -/
def State.takesTick (s : State) : Bool := s.run && !s.busy

/-- `CYCLE t` as one atomic step (R141, R158, R182): prologue, chain, epilogue. A tick in INIT mode does nothing
at all, and a tick while a cycle is in progress is dropped (R140). -/
def execCycle (t : Bool) (s : State) : Out :=
  if s.takesTick then andThen (runSteps s.build.wiring.steps (s.enterCycle t)) leaveCycle else .next s

/-- A tick that starts a cycle which later `clk` edges fall into: only the prologue runs at its edge (R141,
R180, log entry 4). -/
def openCycle (t : Bool) (s : State) : Out := if s.takesTick then .next (s.enterCycle t) else .next s

end Sys2Proof.Machine
end

