-- ==== Sys2Proof/Machine/Dispatch.lean ====
section
/-! DEFINITION. One arm per constructor of `Instr`. -/

namespace Sys2Proof.Machine

def exec (i : Instr) (s : State) : Host.Outcome State Fault Refusal :=
  match i with
  | .clarke => Sys2Proof.Machine.execClarke s
  | .park => Sys2Proof.Machine.execPark s
  | .ipark => Sys2Proof.Machine.execIpark s
  | .lpf n => Sys2Proof.Machine.execLpf n s
  | .intg n => Sys2Proof.Machine.execIntg n s
  | .pi n => Sys2Proof.Machine.execPi n s
  | .pll n => Sys2Proof.Machine.execPll n s
  | .cycle t => Sys2Proof.Machine.execCycle t s

end Sys2Proof.Machine
end

