-- ==== Sys2Proof/Machine/HostPort.lean ====
section
/-! DEFINITION. The host port: the `REG` map (R61, R62), reads (R63, R65), writes with the access rights of
R186, and the mode changes START and STOP (R185). -/

namespace Sys2Proof.Machine

/-- The registers of a PI controller, numbered 0 to 8 in its block (R62). -/
inductive PiReg where
  | kp
  | ki
  | outLo
  | outHi
  | intLo
  | intHi
  | clampEn
  | acc
  | eprev
deriving DecidableEq, Repr

/-- The registers with an address (R62). -/
inductive RegName where
  | ctrl
  | dt
  | status
  | bidx
  | sa
  | sb
  | sc
  | act (j : Inst)
  | hold (k : Inst)
  | lpfFc (i : Inst)
  | lpfDt (i : Inst)
  | lpfY (i : Inst)
  | intgAcc (i : Inst)
  | pi (i : Inst) (r : PiReg)
  | pllPi (i : Inst) (r : PiReg)
  | theta (i : Inst)
  | omega (i : Inst)
  | freq (i : Inst)
deriving DecidableEq, Repr

/-- Register `reg` of a PI controller's block (R62). -/
def piRegOf (reg : Nat) : Option PiReg :=
  match reg with
  | 0 => some .kp
  | 1 => some .ki
  | 2 => some .outLo
  | 3 => some .outHi
  | 4 => some .intLo
  | 5 => some .intHi
  | 6 => some .clampEn
  | 7 => some .acc
  | 8 => some .eprev
  | _ => none

/-- Keep a register only where it exists. -/
def onlyIf (c : Bool) (r : Option RegName) : Option RegName := if c then r else none

/-- Registers of block 0 (R62). -/
def globalReg (reg : Nat) : Option RegName :=
  match reg with
  | 0 => some .ctrl
  | 1 => some .dt
  | 2 => some .status
  | 3 => some .bidx
  | 4 => some .sa
  | 5 => some .sb
  | 6 => some .sc
  | _ => none

/-- Registers of block 4, instance `i` (R62). -/
def lpfReg (i : Inst) (reg : Nat) : Option RegName :=
  match reg with
  | 0 => some (.lpfFc i)
  | 1 => some (.lpfDt i)
  | 2 => some (.lpfY i)
  | _ => none

/-- Registers of block 7, instance `i` (R62). -/
def pllReg (i : Inst) (reg : Nat) : Option RegName :=
  match reg with
  | 9 => some (.theta i)
  | 10 => some (.omega i)
  | 11 => some (.freq i)
  | _ => (piRegOf reg).map (.pllPi i)

/-- The register at a `REG` address `{blk, inst, reg}` (R61, R62), `none` where the address is unmapped. -/
def decodeReg (b : Build) (a : BitVec 12) : Option RegName :=
  let inst : Inst := (a.extractLsb' 4 4).toFin
  let reg : Inst := (a.extractLsb' 0 4).toFin
  match (a.extractLsb' 8 4).toNat with
  | 0 => onlyIf (inst = 0) (globalReg reg.val)
  | 1 => onlyIf (inst = 0 && decide (reg.val < b.nAct)) (some (.act reg))
  | 2 => onlyIf (inst = 0 && decide (reg.val < b.nHold)) (some (.hold reg))
  | 4 => onlyIf (decide (inst.val < b.nLpf)) (lpfReg inst reg.val)
  | 5 => onlyIf (decide (inst.val < b.nIntg) && decide (reg.val = 0)) (some (.intgAcc inst))
  | 6 => onlyIf (decide (inst.val < b.nPi)) ((piRegOf reg.val).map (.pi inst))
  | 7 => onlyIf (decide (inst.val < b.nPll)) (pllReg inst reg.val)
  | _ => none

/-- What a read of a register of a PI controller returns (R30 to R34). -/
def readPiReg (p : PiRegs) : PiReg → Elem
  | .kp => .scalar p.kp
  | .ki => .scalar p.ki
  | .outLo => .scalar p.outLo
  | .outHi => .scalar p.outHi
  | .intLo => .scalar p.intLo
  | .intHi => .scalar p.intHi
  | .clampEn => .bits (clampEnWord p.clampEn)
  | .acc => .scalar p.acc
  | .eprev => .scalar p.eprev

/-- What a read of a register returns (R23 to R43). -/
def readReg (s : State) : RegName → Elem
  | .ctrl => .bits (ctrlWord s)
  | .dt => .scalar s.dt
  | .status => .bits (statusWord s)
  | .bidx => .bits (bidxWord s)
  | .sa => .scalar s.sa
  | .sb => .scalar s.sb
  | .sc => .scalar s.sc
  | .act j => .scalar s.act[j]
  | .hold k => .scalar s.hold[k]
  | .lpfFc i => .scalar s.lpf[i].fc
  | .lpfDt i => .scalar s.lpf[i].dt
  | .lpfY i => .scalar s.lpf[i].y
  | .intgAcc i => .scalar s.intg[i].acc
  | .pi i r => readPiReg s.pi[i] r
  | .pllPi i r => readPiReg s.pll[i].pi r
  | .theta i => .scalar s.pll[i].theta
  | .omega i => .scalar s.pll[i].omega
  | .freq i => .scalar s.pll[i].freq

/-- What a read of a `BUF` address returns: `⊥` where it is unmapped or nothing was stored since reset (R63,
R65). -/
def readBuf (s : State) (a : BitVec 16) : Option Elem :=
  if s.build.bufEn && decide (a.toNat / 4 < s.build.bufCap) && decide (a.toNat % 4 ≠ 3) then
    (s.buf.read a.toNat).map .scalar
  else none

/-- `MemRead(space, addr)` (R12, R60, R65): `hsel` false is `REG`, whose address is bits 11:0 (R155). -/
def memRead (s : State) (hsel : Bool) (a : BitVec 16) : Option Elem :=
  if hsel then readBuf s a else (decodeReg s.build (a.setWidth 12)).map (readReg s)

/-- The registers the host may write in INIT mode, marked `I` in spec/10_state.md (R186). `CTRL` has a rule of
its own (R185). -/
def RegName.initWritable : RegName → Bool
  | .ctrl => false
  | .dt => true
  | .status => false
  | .bidx => false
  | .sa => false
  | .sb => false
  | .sc => false
  | .act _ => true
  | .hold _ => true
  | .lpfFc _ => true
  | .lpfDt _ => true
  | .lpfY _ => true
  | .intgAcc _ => true
  | .pi _ _ => true
  | .pllPi _ _ => true
  | .theta _ => true
  | .omega _ => true
  | .freq _ => true

/-- A register of a PI controller takes `hwdata`. -/
def storePiReg (p : PiRegs) (r : PiReg) (d : HostData) : PiRegs :=
  match r with
  | .kp => { p with kp := d.scalar }
  | .ki => { p with ki := d.scalar }
  | .outLo => { p with outLo := d.scalar }
  | .outHi => { p with outHi := d.scalar }
  | .intLo => { p with intLo := d.scalar }
  | .intHi => { p with intHi := d.scalar }
  | .clampEn => { p with clampEn := clampEnOfBits d.bits }
  | .acc => { p with acc := d.scalar }
  | .eprev => { p with eprev := d.scalar }

/-- A register marked `I` takes `hwdata`; the others keep their value. -/
def storeReg (s : State) (r : RegName) (d : HostData) : State :=
  match r with
  | .ctrl => s
  | .dt => { s with dt := d.scalar }
  | .status => s
  | .bidx => s
  | .sa => s
  | .sb => s
  | .sc => s
  | .act j => { s with act := Bank.put s.act j d.scalar }
  | .hold k => { s with hold := Bank.put s.hold k d.scalar }
  | .lpfFc i => s.setLpf i { s.lpf[i] with fc := d.scalar }
  | .lpfDt i => s.setLpf i { s.lpf[i] with dt := d.scalar }
  | .lpfY i => s.setLpf i { s.lpf[i] with y := d.scalar }
  | .intgAcc i => s.setIntg i { acc := d.scalar }
  | .pi i r => s.setPi i (storePiReg s.pi[i] r d)
  | .pllPi i r => s.setPll i { s.pll[i] with pi := storePiReg s.pll[i].pi r d }
  | .theta i => s.setPll i { s.pll[i] with theta := d.scalar }
  | .omega i => s.setPll i { s.pll[i] with omega := d.scalar }
  | .freq i => s.setPll i { s.pll[i] with freq := d.scalar }

/-- The state START leaves: RUN mode, the buffer machine, the trigger history and the cycle machinery re-armed,
everything else as it was (R185). -/
def State.started (s : State) : State := { s.captureRearmed.chainRearmed with run := true }

/-- The state START leaves while a cycle is in progress: RUN mode, the buffer machine and the trigger history re-armed
at once (R185, R42, R146). `step`, nets, operands and results are that cycle's until its end: it runs to its end (R185)
and is not run again (R70). Log entry 12. -/
def State.startedInCycle (s : State) : State := { s.captureRearmed with run := true, rearm := true }

/-- START (R185): refused on a build that is not well formed (R92), `InvalidConfig` where `ValidConfig` fails
(R172). -/
def startRun (s : State) : Out :=
  if buildWf s.build then
    match configFault s with
    | some w => .fault (.invalidConfig w.1 w.2)
    | none => .next (if s.busy then s.startedInCycle else s.started)
  else .refused .illFormedBuild

/-- A host write of bit 0 of `CTRL` (R23, R185): START, STOP, or nothing where the bit does not change. -/
def writeCtrl (s : State) (v : Bool) : Out :=
  if v then (if s.run then .next s else startRun s)
  else .next { s with run := false }

/-- A host write to a register (R186): `CTRL` in either mode, a register marked `I` in INIT mode, nothing
otherwise. A core that was stopped during a cycle is in INIT mode only when that cycle has ended: until then the driver
is the only writer (R69, R184, R212). -/
def writeReg (s : State) (r : RegName) (d : HostData) : Out :=
  if r = .ctrl then writeCtrl s (d.bits.getLsbD 0)
  else if r.initWritable && !s.run && !s.busy then .next (storeReg s r d)
  else .next s

/-- `MemWrite(space, addr, v)` by the host (R12, R65, R186): `BUF` and unmapped addresses ignore it. -/
def memWrite (s : State) (hsel : Bool) (a : BitVec 16) (d : HostData) : Out :=
  if hsel then .next s
  else
    match decodeReg s.build (a.setWidth 12) with
    | none => .next s
    | some r => writeReg s r d

/-- One access through the host port (R155): a write, or a read that `hrdata` answers. -/
def hostAccess (s : State) (a : HostAccess) : Out :=
  if a.hwe then memWrite s a.hsel a.haddr a.hwdata
  else .next { s with hrdata := memRead s a.hsel a.haddr }

end Sys2Proof.Machine
end

