-- ==== Sys2Proof/Machine/Clock.lean ====
section
/-! DEFINITION. One `clk` edge of the core: reset, the host access, then the tick or the next command of the
cycle in progress (R155, R179, R200); and the placing of a word where the next edge fetches it. -/

namespace Sys2Proof.Machine

/-- The edge at which nothing happens at the ports and the sample ports keep their levels. -/
def PortEdge.quiet (p : Pins) : PortEdge := { rstN := true, word := 0#2, pins := p, host := none, overlap := false }

/-- What reset leaves (R200, R202, R204): every register at its reset value. The build is no register, the sample
ports carry what they carry, and what the outside world does later is its own affair. Log entry 11. -/
def State.afterReset (s : State) (p : Pins) : State :=
  { State.resetOf s.build with pins := p, inputs := s.inputs }

/-- The ports at the start of an edge: the sample ports take their levels, the strobe `done` of the edge before
is over, and `hrdata` answers no read yet (R155, R156). -/
def State.atEdge (s : State) (p : Pins) : State := { s with pins := p, done := false, hrdata := none }

/-- The cycle in progress goes on by its next command, or by its epilogue after the last (R143, R144). The
command word is fetched from the wiring at `step` (R22). -/
def advance (s : State) : Out :=
  match s.build.wiring.steps[s.stepIdx]? with
  | some st => issueWith exec st s
  | none => leaveCycle s

/-- The driver's part of an edge: a cycle in progress goes on and a tick is dropped (R182); else the event word
is decoded and its event runs (R83). -/
def driverEdge (e : PortEdge) (s : State) : Out :=
  if s.busy then advance s
  else
    match decodeEvent e.word with
    | .error _ => .next s
    | .ok i => if e.overlap then openCycle (e.word.getLsbD 0) s else exec i s

/-- The host's part of an edge, if there is an access. -/
def hostEdge (e : PortEdge) (s : State) : Out :=
  match e.host with
  | none => .next s
  | some a => hostAccess s a

/-- One `clk` edge: reset alone where `rst_n` is low (R200); else the host access first, and the tick judged
against the state it leaves (R179). -/
def clockEdge (e : PortEdge) (s : State) : Out :=
  if e.rstN then andThen (hostEdge e (s.atEdge e.pins)) (driverEdge e)
  else .next (s.afterReset e.pins)

/-- The sources of a step that runs the operation alone: constants and the Sample. -/
def placedArgs : Instr → List Src
  | .clarke => [.sa, .sb, .sc]
  | .park => [.const zero, .sa, .sb, .sc]
  | .ipark => [.const zero, .sa, .sb, .sc]
  | .lpf _ => [.sa]
  | .intg _ => [.sa, .sb, .dt]
  | .pi _ => [.sa]
  | .pll _ => [.sa, .sb, .sc]
  | .cycle _ => []

/-- The build in the reference instance whose wiring is the one command word `w` of operation `i`, with its first
result routed to one actuation output. Log entry 16. -/
def placedBuild (b : Build) (w : BitVec 8) (i : Instr) : Build :=
  { b with
    num := .real, nLpf := 16, nIntg := 16, nPi := 16, nPll := 16,
    wiring := { steps := [{ cmd := w, args := placedArgs i, dst := (List.range i.resCount).map some }],
                actSrc := [0], holdSrc := [] } }

/-- A register that `ValidConfig` wants above zero: one where it is not. -/
def atLeastLegal (x : Scalar) : Scalar := if numGt .real x zero then x else one

/-- The registers `ValidConfig` asks of a running core that runs operation `i` (R206). -/
def placedConfig (s : State) (i : Instr) : State :=
  match i with
  | .lpf i => { s with
      run := true, dt := atLeastLegal s.dt,
      lpf := Bank.put s.lpf i { s.lpf[i] with fc := atLeastLegal s.lpf[i].fc, dt := atLeastLegal s.lpf[i].dt } }
  | .clarke => { s with run := true, dt := atLeastLegal s.dt }
  | .park => { s with run := true, dt := atLeastLegal s.dt }
  | .ipark => { s with run := true, dt := atLeastLegal s.dt }
  | .intg _ => { s with run := true, dt := atLeastLegal s.dt }
  | .pi _ => { s with run := true, dt := atLeastLegal s.dt }
  | .pll _ => { s with run := true, dt := atLeastLegal s.dt }
  | .cycle _ => { s with run := true, dt := atLeastLegal s.dt }

/-- A running core in the middle of a cycle whose next command word is `w`: the wiring is that one command and
`step` points at it. -/
def placeCommand (s : State) (w : BitVec 8) (i : Instr) : State :=
  { placedConfig s i with
    build := placedBuild s.build w i, busy := true, stepIdx := 0,
    inputs := PortEdge.quiet s.pins :: s.inputs }

/-- A running core between cycles with the event word `w` on its ports at the next edge. Its wiring is one
`CLARKE`. -/
def placeEvent (s : State) (w : BitVec 2) : State :=
  { placedConfig s .clarke with
    build := placedBuild s.build (encodeCommand .clarke) .clarke, busy := false,
    inputs := { PortEdge.quiet s.pins with word := w } :: s.inputs }

/-- Place the word of a table row where the next step fetches it. -/
def placeWord (s : State) (nbits w : Nat) : State :=
  match decodeTableWord nbits w with
  | some (.cycle _) => placeEvent s (BitVec.ofNat 2 w)
  | some i => placeCommand s (BitVec.ofNat 8 w) i
  | none => placeCommand s (BitVec.ofNat 8 w) .clarke

end Sys2Proof.Machine
end

