-- ==== Sys2Proof/Machine/Step.lean ====
section
/-! DEFINITION. One step of the machine: one `clk` edge. -/

namespace Sys2Proof.Machine

/-- One `clk` edge: what the outside world does at it is the head of `inputs`; where the list is empty the ports
are quiet. -/
def step (s : State) : Host.Outcome State Fault Refusal :=
  match s.inputs with
  | [] => clockEdge (PortEdge.quiet s.pins) s
  | e :: rest => clockEdge e { s with inputs := rest }

/-- `s` with a table row's word where `step` fetches its next instruction: a command word as the wiring's next
command of a cycle in progress, the event word on the ports. Log entry 16. -/
def State.withFetchWord (s : State) (nbits w : Nat) : State := placeWord s nbits w

end Sys2Proof.Machine
end

