-- ==== Sys2Proof/Safety.lean ====
section
/-! DEFINITION. The terms in which claims speak of the machine: its invariants, when it is ready to run a cycle,
what its configuration is, and repeated operations. -/

namespace Sys2Proof.Machine

/-- What holds of the machine at reset and after every step. -/
structure State.Inv (s : State) : Prop where
  /-- `BUF` is in canonical form. -/
  bufCanonical : Cells.wf s.buf = true
  /-- `NET` is in canonical form. -/
  netCanonical : Cells.wf s.net = true
  /-- `Full` is never seen between steps (R41, R149). -/
  neverFull : s.bstate ≠ .full
  /-- While the machine is `Idle`, `BIDX = 0` (R147). -/
  idleAtZero : s.bstate = .idle → s.bidx = 0
  /-- `BIDX` is never equal to or above `BUF_CAP` (R148). -/
  indexInside : s.build.bufEn = true → 1 ≤ s.build.bufCap → s.bidx < s.build.bufCap
  /-- Only lanes of existing entries ever hold a value (R63, R148). -/
  lanesExist : 1 ≤ s.build.bufCap → ∀ a x, s.buf.read a = some x → a % 4 ≠ 3 ∧ a / 4 < s.build.bufCap
  /-- Without a buffer nothing is stored and the machine stays `Idle` (R145). -/
  noBuffer : s.build.bufEn = false → s.bstate = .idle ∧ s.buf = []
  /-- `step` is zero when no cycle is in progress (R22). -/
  stepZero : s.busy = false → s.stepIdx = 0
  /-- A re-arming waits only for the end of a cycle in progress (R185, log entry 12). -/
  rearmInCycle : s.rearm = true → s.busy = true
  /-- `step` never passes the wiring's length (R22). -/
  stepInside : s.stepIdx ≤ s.build.wiring.steps.length
  /-- The registers of instances the build does not have keep their reset values (R20, R62). -/
  noLpf : ∀ i : Inst, s.build.nLpf ≤ i.val → s.lpf[i] = LpfRegs.reset
  noIntg : ∀ i : Inst, s.build.nIntg ≤ i.val → s.intg[i] = IntgRegs.reset
  noPi : ∀ i : Inst, s.build.nPi ≤ i.val → s.pi[i] = PiRegs.reset
  noPll : ∀ i : Inst, s.build.nPll ≤ i.val → s.pll[i] = PllRegs.reset
  noAct : ∀ j : Inst, s.build.nAct ≤ j.val → s.act[j] = zero
  noHold : ∀ k : Inst, s.build.nHold ≤ k.val → s.hold[k] = zero

/-- What START establishes, and RUN mode and a cycle in progress keep: a well-formed build and a valid configuration
(R158, R206, R212). -/
def State.RunValid (s : State) : Prop :=
  s.run = true ∨ s.busy = true → buildWf s.build = true ∧ validConfig s = true

/-- The configuration of one PI controller (R30 to R32): its registers but `ACC` and `EPREV`. -/
def PiRegs.config (p : PiRegs) : PiRegs := { p with acc := zero, eprev := zero }

/-- Every configuration register has in `t` the value it has in `s` (R186). -/
def SameConfig (s t : State) : Prop :=
  t.build = s.build ∧ t.dt = s.dt ∧
  (∀ i : Inst, t.lpf[i].fc = s.lpf[i].fc ∧ t.lpf[i].dt = s.lpf[i].dt) ∧
  (∀ i : Inst, t.pi[i].config = s.pi[i].config) ∧
  (∀ i : Inst, t.pll[i].pi.config = s.pll[i].pi.config)

/-- The edge asks for nothing but the driver's work: no reset and no host access. -/
def PortEdge.driverOnly (e : PortEdge) : Bool := e.rstN && e.host.isNone

/-- The register at block `blk`, instance `i`, register number `r` of the `REG` map (R61). -/
def regAt (b : Build) (blk : Nat) (i r : Inst) : Option RegName :=
  if blk < 16 then
    decodeReg b (BitVec.ofNat 4 blk ++ BitVec.ofFin (w := 4) i ++ BitVec.ofFin (w := 4) r)
  else none

/-- Run an instruction `n` times in a row on the same operand registers. -/
def execTimes (i : Instr) (n : Nat) (s : State) : Out :=
  match n with
  | 0 => .next s
  | k + 1 => andThen (exec i s) (execTimes i k)

/-- `o` is a next state that satisfies `p`. -/
def NextWith (o : Out) (p : State → Prop) : Prop := ∃ t, o = .next t ∧ p t

/-- A result register holds a value that stands for the real number `x`. -/
def Holds (v : Option Scalar) (x : ℝ) : Prop := ∃ y, v = some y ∧ y.val = x

/-- The operand register `arg[k]` (R21). -/
def argAt (a : ArgRegs) : Nat → Option Scalar
  | 0 => a.arg0
  | 1 => a.arg1
  | 2 => a.arg2
  | 3 => a.arg3
  | _ => none

/-- `clamp` on the real numbers (R10). -/
noncomputable def realClamp (x lo hi : ℝ) : ℝ := if x > hi then hi else if x < lo then lo else x

/-- `trap` on the real numbers (R11). -/
noncomputable def realTrap (cur prev h : ℝ) : ℝ := 1 / 2 * h * (cur + prev)

/-- The direct component of the rotating frame on the real numbers (R101). -/
noncomputable def realParkD (th a b c : ℝ) : ℝ :=
  2 / 3 * (a * Real.cos th + b * Real.cos (th - 2 * Real.pi / 3) + c * Real.cos (th + 2 * Real.pi / 3))

/-- The quadrature component of the rotating frame on the real numbers (R101). -/
noncomputable def realParkQ (th a b c : ℝ) : ℝ :=
  2 / 3 * (a * Real.sin th + b * Real.sin (th - 2 * Real.pi / 3) + c * Real.sin (th + 2 * Real.pi / 3))

/-- One phase of the inverse transform on the real numbers, at the phase's own angle (R102). -/
noncomputable def realIparkPhase (th d q z : ℝ) : ℝ := d * Real.cos th + q * Real.sin th + z

/-- The blend coefficient of a filter on the real numbers, from its cutoff and its period (R110, R111). -/
noncomputable def realBlend (fc h : ℝ) : ℝ := h / (1 / (2 * Real.pi * fc) + h)

/-- `p'` and `out` are what one call of `pi_update` with error `e` leaves and returns (R120), in the real numbers.
An enabled bound pair with lower above upper has no clamp (R10): then nothing is said of the value the clamp
would give, and everything computed from it is still computed from it. -/
def PiUpdated (dt : Scalar) (p p' : PiRegs) (e out : Scalar) : Prop :=
  p' = { p with acc := p'.acc, eprev := e } ∧
  (p.clampEn.intEn = false → p'.acc.val = p.acc.val + realTrap e.val p.eprev.val dt.val) ∧
  (p.clampEn.intEn = true → p.intLo.val ≤ p.intHi.val →
    p'.acc.val = realClamp (p.acc.val + realTrap e.val p.eprev.val dt.val) p.intLo.val p.intHi.val) ∧
  (p.clampEn.outEn = false → out.val = p.kp.val * e.val + p.ki.val * p'.acc.val) ∧
  (p.clampEn.outEn = true → p.outLo.val ≤ p.outHi.val →
    out.val = realClamp (p.kp.val * e.val + p.ki.val * p'.acc.val) p.outLo.val p.outHi.val)

/-! The pseudocode of the operations in any numerics record, one operation of the record for each operator (R8). -/

/-- `trap` in the record `N` (R11). -/
def numTrap (N : Sys2Proof.Num) (cur prev h : N.S) : N.S := N.mul (N.mul (N.ofRat (1 / 2)) h) (N.add cur prev)

/-- `clamp` in the record `N` (R10). -/
def numClamp (N : Sys2Proof.Num) (x lo hi : N.S) : N.S :=
  if N.gt x hi then hi else if N.lt x lo then lo else x

/-- The projection of `PARK` in the record `N`, with `f` the cosine for `d` and the sine for `q` (R101). -/
def numProject (N : Sys2Proof.Num) (f : N.S → N.S) (th a b c : N.S) : N.S :=
  N.mul (N.ofRat (2 / 3)) (N.add (N.add (N.mul a (f th)) (N.mul b (f (N.sub th N.twoPiDiv3))))
    (N.mul c (f (N.add th N.twoPiDiv3))))

/-- One phase of `IPARK` in the record `N` (R102). -/
def numIparkPhase (N : Sys2Proof.Num) (th d q z : N.S) : N.S :=
  N.add (N.add (N.mul d (N.cos th)) (N.mul q (N.sin th))) z

/-- The scalars of one PI controller as numbers of the record `N`. -/
structure NumPi (N : Sys2Proof.Num) where
  kp : N.S
  ki : N.S
  outLo : N.S
  outHi : N.S
  intLo : N.S
  intHi : N.S
  acc : N.S
  eprev : N.S

/-- The registers of `p` have the values `v` in the record `N`; an enabled bound pair is not reversed, and a pair
that is not enabled may hold anything (R31). -/
def NumPi.ValuesOf {N : Sys2Proof.Num} (v : NumPi N) (ext : Nat → N.S) (p : PiRegs) : Prop :=
  p.kp.evalIn N ext = some v.kp ∧ p.ki.evalIn N ext = some v.ki ∧
  p.acc.evalIn N ext = some v.acc ∧ p.eprev.evalIn N ext = some v.eprev ∧
  (p.clampEn.intEn = true → p.intLo.evalIn N ext = some v.intLo ∧ p.intHi.evalIn N ext = some v.intHi ∧
    N.gt v.intLo v.intHi = false) ∧
  (p.clampEn.outEn = true → p.outLo.evalIn N ext = some v.outLo ∧ p.outHi.evalIn N ext = some v.outHi ∧
    N.gt v.outLo v.outHi = false)

/-- The accumulator `pi_update` leaves, in the record `N` (R120). -/
def NumPi.nextAcc {N : Sys2Proof.Num} (v : NumPi N) (en : ClampEn) (dt e : N.S) : N.S :=
  let s := N.add v.acc (numTrap N e v.eprev dt)
  if en.intEn then numClamp N s v.intLo v.intHi else s

/-- The output `pi_update` returns, in the record `N` (R120). -/
def NumPi.output {N : Sys2Proof.Num} (v : NumPi N) (en : ClampEn) (dt e : N.S) : N.S :=
  let u := N.add (N.mul v.kp e) (N.mul v.ki (v.nextAcc en dt e))
  if en.outEn then numClamp N u v.outLo v.outHi else u

/-- Both scalars have values in the build's `NUM`, and the first is greater by its strict comparison (R6). -/
def NumGreater (c : Numerics) (a b : Scalar) : Prop :=
  ∃ x y : c.num.S, a.valueIn c = some x ∧ b.valueIn c = some y ∧ c.num.gt x y = true

/-- `ValidConfig` clause by clause (R206), for a comparison `gt` of scalars. -/
def ValidBy (gt : Scalar → Scalar → Prop) (s : State) : Prop :=
  gt s.dt zero ∧
  (∀ i : Inst, .lpf i ∈ wiringInstrs s.build.wiring → gt s.lpf[i].fc zero ∧ gt s.lpf[i].dt zero) ∧
  (∀ i : Inst, .pi i ∈ wiringInstrs s.build.wiring →
    (s.pi[i].clampEn.intEn = true → ¬ gt s.pi[i].intLo s.pi[i].intHi) ∧
    (s.pi[i].clampEn.outEn = true → ¬ gt s.pi[i].outLo s.pi[i].outHi)) ∧
  (∀ i : Inst, .pll i ∈ wiringInstrs s.build.wiring →
    (s.pll[i].pi.clampEn.intEn = true → ¬ gt s.pll[i].pi.intLo s.pll[i].pi.intHi) ∧
    (s.pll[i].pi.clampEn.outEn = true → ¬ gt s.pll[i].pi.outLo s.pll[i].pi.outHi))

/-- Every configuration register `ValidConfig` compares holds a scalar that has a value. -/
def ConfigHasReal (s : State) : Prop :=
  s.dt.HasReal ∧
  (∀ i : Inst, s.lpf[i].fc.HasReal ∧ s.lpf[i].dt.HasReal) ∧
  (∀ i : Inst, s.pi[i].intLo.HasReal ∧ s.pi[i].intHi.HasReal ∧ s.pi[i].outLo.HasReal ∧ s.pi[i].outHi.HasReal) ∧
  (∀ i : Inst, s.pll[i].pi.intLo.HasReal ∧ s.pll[i].pi.intHi.HasReal ∧ s.pll[i].pi.outLo.HasReal ∧
    s.pll[i].pi.outHi.HasReal)

end Sys2Proof.Machine
end

