-- ==== Sys2Proof/Certificates/Slice0/Obligations.lean ====
section
/-! DEFINITION. The statements for the provers. Every one is about the machine; a docstring names the rules and the
spec's sentences it formalises, and says what in it is the model's own choice. -/

open Sys2Proof Sys2Proof.Machine

/-! ## What each operation computes, completes with, and leaves alone -/

/-- `CLARKE` (R103). The alpha formula and the order `b - c` are the spec's own reading, the order from general
knowledge (G1, D4; log entry 17). The spec marks as its own: R103 (decision D4). -/
def Obligations.ClarkeWritesAlphaAndBeta : Prop :=
  ∀ (s : State) (a b c : Scalar), s.arg.arg0 = some a → s.arg.arg1 = some b → s.arg.arg2 = some c →
    NextWith (exec .clarke s) fun t => t = s.setRes t.res ∧
      Holds t.res.res0 (2 / 3 * (a.val - 1 / 2 * b.val - 1 / 2 * c.val)) ∧
      Holds t.res.res1 (2 / 3 * (Real.sqrt 3 / 2 * (b.val - c.val))) ∧ t.res.res2 = none

/-- `PARK` (R101), in the reference instance. The spec marks as its own: R101 (decision D3, D33). -/
def Obligations.ParkWritesRotatingFrame : Prop :=
  decode (.command 0x20#8) = .ok .park ∧
  ∀ (s : State) (th a b c : Scalar),
    s.arg.arg0 = some th → s.arg.arg1 = some a → s.arg.arg2 = some b → s.arg.arg3 = some c →
    NextWith (exec .park s) fun t => t = s.setRes t.res ∧
      Holds t.res.res0 (realParkD th.val a.val b.val c.val) ∧
      Holds t.res.res1 (realParkQ th.val a.val b.val c.val) ∧
      Holds t.res.res2 ((a.val + b.val + c.val) / 3)

/-- `IPARK` (R102), in the reference instance. -/
def Obligations.IparkWritesThreePhases : Prop :=
  decode (.command 0x30#8) = .ok .ipark ∧
  ∀ (s : State) (th d q z : Scalar),
    s.arg.arg0 = some th → s.arg.arg1 = some d → s.arg.arg2 = some q → s.arg.arg3 = some z →
    NextWith (exec .ipark s) fun t => t = s.setRes t.res ∧
      Holds t.res.res0 (realIparkPhase th.val d.val q.val z.val) ∧
      Holds t.res.res1 (realIparkPhase (th.val - 2 * Real.pi / 3) d.val q.val z.val) ∧
      Holds t.res.res2 (realIparkPhase (th.val + 2 * Real.pi / 3) d.val q.val z.val)

/-- `LPF i` in the reference instance, wherever no divisor is zero (R110, R112 (d)), whatever the sign of cutoff and
period: it completes, blends, and writes `Y` and the result alone. The spec marks as its own: R112 (decision D19).
-/
def Obligations.LpfBlendsInputAndOutput : Prop :=
  ∀ (s : State) (i : Inst) (x : Scalar), s.build.num = .real → i.val < s.build.nLpf → s.arg.arg0 = some x →
    s.lpf[i].fc.HasReal → s.lpf[i].dt.HasReal → s.lpf[i].fc.val ≠ 0 →
    1 / (2 * Real.pi * s.lpf[i].fc.val) + s.lpf[i].dt.val ≠ 0 →
    NextWith (exec (.lpf i) s) fun t => ∃ y : Scalar,
      t = (s.setLpf i { s.lpf[i] with y := y }).setRes { res0 := some y, res1 := none, res2 := none } ∧
      y.val = realBlend s.lpf[i].fc.val s.lpf[i].dt.val * x.val +
        (1 - realBlend s.lpf[i].fc.val s.lpf[i].dt.val) * s.lpf[i].y.val

/-- `LPF i` in the reference instance completes with cutoff and period above zero, and its output is a weighted mean
of the input and the previous output (R111). The spec marks as its own: R111 (derived). -/
def Obligations.LpfCompletesWhenConfigured : Prop :=
  ∀ (s : State) (i : Inst) (x : Scalar), s.build.num = .real → i.val < s.build.nLpf → s.arg.arg0 = some x →
    s.lpf[i].fc.HasReal → s.lpf[i].dt.HasReal → 0 < s.lpf[i].fc.val → 0 < s.lpf[i].dt.val →
    ∃ w : ℝ, 0 < w ∧ w < 1 ∧ w = realBlend s.lpf[i].fc.val s.lpf[i].dt.val ∧
      NextWith (exec (.lpf i) s) fun t => t.lpf[i].y.val = w * x.val + (1 - w) * s.lpf[i].y.val

/-- A zero divisor in `LPF i` raises `InvalidConfig`, with block 4 and the instance: in the reference instance (R112
(a) and (c), R172 (b)), and whatever `NUM` the build has, where one of the two divisions gives no value in it (R6).
The spec marks as its own: R112 (decision D19), R172 (decision D19), R6 (decision D1). -/
def Obligations.LpfZeroDivisorRaises : Prop :=
  ∀ (s : State) (i : Inst) (x : Scalar), i.val < s.build.nLpf → s.arg.arg0 = some x →
    (s.build.num = .real →
      (s.lpf[i].fc.val = 0 ∨ 1 / (2 * Real.pi * s.lpf[i].fc.val) + s.lpf[i].dt.val = 0) →
      exec (.lpf i) s = .fault (.invalidConfig 4 i.val)) ∧
    ((lpfBlend s.lpf[i].fc s.lpf[i].dt).valueIn s.build.num = none →
      exec (.lpf i) s = .fault (.invalidConfig 4 i.val))

/-- `LPF i` in the reference instance with a zero sample period and a cutoff that is not zero is frozen: no division
by zero occurs, and the output equals the previous output (R112 (b)). The spec marks as its own: R112 (decision
D19). -/
def Obligations.LpfZeroPeriodFreezes : Prop :=
  ∀ (s : State) (i : Inst) (x : Scalar), s.build.num = .real → i.val < s.build.nLpf → s.arg.arg0 = some x →
    s.lpf[i].fc.HasReal → s.lpf[i].dt.HasReal → s.lpf[i].fc.val ≠ 0 → s.lpf[i].dt.val = 0 →
    NextWith (exec (.lpf i) s) fun t => t.lpf[i].y.val = s.lpf[i].y.val ∧ t.res.res0 = some t.lpf[i].y

/-- `INTG i` (R113), in the reference instance. -/
def Obligations.IntgAddsTrapezoid : Prop :=
  ∀ (s : State) (i : Inst) (cur prev h : Scalar), decode (.command (commandWord 5#4 i)) = .ok (.intg i) ∧
    (i.val < s.build.nIntg → s.arg.arg0 = some cur → s.arg.arg1 = some prev → s.arg.arg2 = some h →
      NextWith (exec (.intg i) s) fun t => ∃ y : Scalar,
        t = (s.setIntg i { acc := y }).setRes { res0 := some y, res1 := none, res2 := none } ∧
        y.val = s.intg[i].acc.val + realTrap cur.val prev.val h.val)

/-- `PI i` (R120), in the reference instance, in all four clamp variants (R121). The spec marks as its own: R120
(decision D16), R121 (decision D14). -/
def Obligations.PiUpdatesAccumulatorAndOutput : Prop :=
  ∀ (s : State) (i : Inst) (e : Scalar), decode (.command (commandWord 6#4 i)) = .ok (.pi i) ∧
    (i.val < s.build.nPi → s.arg.arg0 = some e →
      NextWith (exec (.pi i) s) fun t => ∃ (p : PiRegs) (out : Scalar),
        t = (s.setPi i p).setRes { res0 := some out, res1 := none, res2 := none } ∧
        PiUpdated s.dt s.pi[i] p e out)

/-- `PLL i` (R130, R131), in the reference instance: the six steps, under any configuration (R134). The spec marks
as its own: R130 (decision D17), R131 (derived). -/
def Obligations.PllPerformsSixSteps : Prop :=
  ∀ (s : State) (i : Inst) (a b c : Scalar), decode (.command (commandWord 7#4 i)) = .ok (.pll i) ∧
    (i.val < s.build.nPll → s.arg.arg0 = some a → s.arg.arg1 = some b → s.arg.arg2 = some c →
      NextWith (exec (.pll i) s) fun t => ∃ (p : PllRegs) (e : Scalar),
        t = (s.setPll i p).setRes { res0 := some p.theta, res1 := some p.omega, res2 := some p.freq } ∧
        e.val = 0 - realParkD s.pll[i].theta.val a.val b.val c.val ∧
        PiUpdated s.dt s.pll[i].pi p.pi e p.omega ∧
        p.freq.val = p.omega.val / (2 * Real.pi) ∧
        (∃ t1 : ℝ, t1 = s.pll[i].theta.val + realTrap p.omega.val s.pll[i].omega.val s.dt.val ∧
          p.theta.val = if t1 > 2 * Real.pi then t1 - 2 * Real.pi else t1))

/-- `CYCLE t` of a ready machine on a well-formed wiring with a valid configuration completes, in the reference
instance: no step raises (R158). The spec marks as its own: R158 (derived). -/
def Obligations.CycleCompletesWhenValid : Prop :=
  ∀ (s : State) (tr : Bool), s.build.num = .real → s.takesTick = true → buildWf s.build = true →
    validConfig s = true →
    NextWith (exec (.cycle tr) s) fun t =>
      t.sa = s.pins.sa ∧ t.sb = s.pins.sb ∧ t.sc = s.pins.sc ∧ t.trigPrev = tr ∧
      t.busy = false ∧ t.stepIdx = 0 ∧ t.done = true

/-- What a cycle that completes has done and what it leaves alone (R141, R142, R144, R181): the Sample, the trigger
history, every output and hold latch from its net, the mode and the configuration as before. The spec marks as its
own: R141 (decision D20, D22), R144 (decision D20, D32). -/
def Obligations.CycleLatchesAndRoutes : Prop :=
  ∀ (s t : State) (tr : Bool), s.takesTick = true → exec (.cycle tr) s = .next t →
    t.sa = s.pins.sa ∧ t.sb = s.pins.sb ∧ t.sc = s.pins.sc ∧ t.trigPrev = tr ∧
    t.busy = false ∧ t.stepIdx = 0 ∧ t.done = true ∧ t.run = s.run ∧ SameConfig s t ∧
    t.pins = s.pins ∧ t.inputs = s.inputs ∧ t.hrdata = s.hrdata ∧
    (∀ (j : Inst) (n : Nat), s.build.wiring.actSrc[j.val]? = some n → t.net.read n = some t.act[j]) ∧
    (∀ (k : Inst) (n : Nat), s.build.wiring.holdSrc[k.val]? = some n → t.net.read n = some t.hold[k]) ∧
    (∀ j : Inst, s.build.nAct ≤ j.val → t.act[j] = s.act[j]) ∧
    (∀ k : Inst, s.build.nHold ≤ k.val → t.hold[k] = s.hold[k])

/-- A tick in INIT mode and a tick while a cycle is in progress leave no trace (R140, R178, R182, R184). The spec
marks as its own: R140 (decision D10, D24), R178 (decision D24), R182 (decision D24), R184 (decision D12). -/
def Obligations.TickWithoutCycleLeavesNoTrace : Prop :=
  ∀ (s : State) (tr : Bool), (s.run = false ∨ s.busy = true) → exec (.cycle tr) s = .next s

/-! ## Laws of the frame transforms -/

/-- The round trip: `PARK` and then `IPARK` at the same angle reproduce the three phases (the law of
spec/40_frame_transform.md section 5, "exactly"). -/
def Obligations.ParkThenIparkIsIdentity : Prop :=
  ∀ (s : State) (th a b c : Scalar),
    s.arg = { arg0 := some th, arg1 := some a, arg2 := some b, arg3 := some c } →
    NextWith (exec .park s) fun t =>
      NextWith (exec .ipark (t.setArg { arg0 := some th, arg1 := t.res.res0, arg2 := t.res.res1, arg3 := t.res.res2 }))
        fun u => Holds u.res.res0 a.val ∧ Holds u.res.res1 b.val ∧ Holds u.res.res2 c.val

/-- The other round trip: `IPARK` and then `PARK` reproduce the rotating-frame vector. -/
def Obligations.IparkThenParkIsIdentity : Prop :=
  ∀ (s : State) (th d q z : Scalar),
    s.arg = { arg0 := some th, arg1 := some d, arg2 := some q, arg3 := some z } →
    NextWith (exec .ipark s) fun t =>
      NextWith (exec .park (t.setArg { arg0 := some th, arg1 := t.res.res0, arg2 := t.res.res1, arg3 := t.res.res2 }))
        fun u => Holds u.res.res0 d.val ∧ Holds u.res.res1 q.val ∧ Holds u.res.res2 z.val

/-- `PARK` is `CLARKE` turned by the angle: `d = alpha·cos θ + beta·sin θ`, `q = alpha·sin θ - beta·cos θ` (the
relation of spec/40_frame_transform.md section 5). It rests on the reading of `CLARKE` of log entry 17. -/
def Obligations.ParkTurnsClarke : Prop :=
  ∀ (s : State) (th a b c : Scalar),
    s.arg = { arg0 := some th, arg1 := some a, arg2 := some b, arg3 := some c } →
    ∃ (t u : State) (alpha beta : ℝ),
      exec .park s = .next t ∧
      exec .clarke (s.setArg { arg0 := some a, arg1 := some b, arg2 := some c, arg3 := none }) = .next u ∧
      Holds u.res.res0 alpha ∧ Holds u.res.res1 beta ∧
      Holds t.res.res0 (alpha * Real.cos th.val + beta * Real.sin th.val) ∧
      Holds t.res.res1 (alpha * Real.sin th.val - beta * Real.cos th.val)

/-- A balanced three-phase set seen from the rotating frame is a constant vector (the source's example scenario,
spec/40_frame_transform.md section 5). -/
def Obligations.ParkOfBalancedSet : Prop :=
  ∀ (s : State) (th a b c : Scalar) (v psi : ℝ),
    s.arg = { arg0 := some th, arg1 := some a, arg2 := some b, arg3 := some c } →
    a.val = v * Real.cos psi → b.val = v * Real.cos (psi - 2 * Real.pi / 3) →
    c.val = v * Real.cos (psi + 2 * Real.pi / 3) →
    NextWith (exec .park s) fun t =>
      Holds t.res.res0 (v * Real.cos (psi - th.val)) ∧ Holds t.res.res1 (v * Real.sin (th.val - psi)) ∧
      Holds t.res.res2 0

/-- The frame transforms have no state: whatever the rest of the machine holds, the same operands give the same
results, and nothing but the results is written (R100). -/
def Obligations.FrameTransformsAreStateless : Prop :=
  ∀ (i : Instr) (s s' : State), i = .clarke ∨ i = .park ∨ i = .ipark → s.arg = s'.arg →
    (∀ k, k < i.argCount → argAt s.arg k ≠ none) →
    ∃ r : ResRegs, exec i s = .next (s.setRes r) ∧ exec i s' = .next (s'.setRes r)

/-! ## Laws of the filter, the integrator, the PI controller and the PLL -/

/-- A constant input: after `n` updates `Y = x + (1 - c1)^n · (y0 - x)` (the law of spec/41_filter_integrator.md
section 2, from which the filter's convergence follows). -/
def Obligations.LpfConstantInputDecays : Prop :=
  ∀ (n : Nat) (s : State) (i : Inst) (x : Scalar), s.build.num = .real → i.val < s.build.nLpf →
    s.arg.arg0 = some x →
    s.lpf[i].fc.HasReal → s.lpf[i].dt.HasReal → 0 < s.lpf[i].fc.val → 0 < s.lpf[i].dt.val →
    NextWith (execTimes (.lpf i) n s) fun t =>
      t.lpf[i].y.val = x.val + (1 - realBlend s.lpf[i].fc.val s.lpf[i].dt.val) ^ n * (s.lpf[i].y.val - x.val)

/-- A constant integrand: `n` updates add `v · (n · Δt)` (the law of spec/41_filter_integrator.md section 2). -/
def Obligations.IntgConstantIntegrandIsExact : Prop :=
  ∀ (n : Nat) (s : State) (i : Inst) (v h : Scalar), i.val < s.build.nIntg →
    s.arg.arg0 = some v → s.arg.arg1 = some v → s.arg.arg2 = some h →
    NextWith (execTimes (.intg i) n s) fun t => t.intg[i].acc.val = s.intg[i].acc.val + v.val * (n * h.val)

/-- After every `PI i` and every `PLL i` with a clamp enabled the clamped value lies in its bounds, in the reference
instance, whatever the accumulator held before (R46 (a), R124 (a)); the output of the embedded controller is the
angular frequency (R130, R131). The spec marks as its own: R46 (derived), R124 (derived), R130 (decision D17), R131
(derived). -/
def Obligations.PiStaysInItsBounds : Prop :=
  (∀ (s t : State) (i : Inst), exec (.pi i) s = .next t →
    (s.pi[i].clampEn.intEn = true → s.pi[i].intLo.val ≤ s.pi[i].intHi.val →
      s.pi[i].intLo.val ≤ t.pi[i].acc.val ∧ t.pi[i].acc.val ≤ s.pi[i].intHi.val) ∧
    (s.pi[i].clampEn.outEn = true → s.pi[i].outLo.val ≤ s.pi[i].outHi.val →
      ∃ y : Scalar, t.res.res0 = some y ∧ s.pi[i].outLo.val ≤ y.val ∧ y.val ≤ s.pi[i].outHi.val)) ∧
  (∀ (s t : State) (i : Inst), exec (.pll i) s = .next t →
    (s.pll[i].pi.clampEn.intEn = true → s.pll[i].pi.intLo.val ≤ s.pll[i].pi.intHi.val →
      s.pll[i].pi.intLo.val ≤ t.pll[i].pi.acc.val ∧ t.pll[i].pi.acc.val ≤ s.pll[i].pi.intHi.val) ∧
    (s.pll[i].pi.clampEn.outEn = true → s.pll[i].pi.outLo.val ≤ s.pll[i].pi.outHi.val →
      s.pll[i].pi.outLo.val ≤ t.pll[i].omega.val ∧ t.pll[i].omega.val ≤ s.pll[i].pi.outHi.val))

/-- The accumulator held at a bound: a raw sum beyond the bound is stored as the bound, and the first call whose
trapezoid points back leaves the bound at once, with no hidden excess to unwind (R122). -/
def Obligations.PiLeavesItsBoundAtOnce : Prop :=
  ∀ (s t : State) (i : Inst) (e : Scalar), exec (.pi i) s = .next t → s.arg.arg0 = some e →
    s.pi[i].clampEn.intEn = true → s.pi[i].intLo.val ≤ s.pi[i].intHi.val → 0 < s.dt.val →
    (s.pi[i].acc.val + realTrap e.val s.pi[i].eprev.val s.dt.val > s.pi[i].intHi.val →
      t.pi[i].acc.val = s.pi[i].intHi.val) ∧
    (s.pi[i].acc.val + realTrap e.val s.pi[i].eprev.val s.dt.val < s.pi[i].intLo.val →
      t.pi[i].acc.val = s.pi[i].intLo.val) ∧
    (s.pi[i].intLo.val < s.pi[i].intHi.val → s.pi[i].acc.val = s.pi[i].intHi.val → e.val + s.pi[i].eprev.val < 0 →
      t.pi[i].acc.val < s.pi[i].intHi.val) ∧
    (s.pi[i].intLo.val < s.pi[i].intHi.val → s.pi[i].acc.val = s.pi[i].intLo.val → e.val + s.pi[i].eprev.val > 0 →
      t.pi[i].acc.val > s.pi[i].intLo.val)

/-- With no clamp, a constant error from rest integrates to `DT · e · (n - 1/2)` after `n ≥ 1` calls (the law of
spec/42_pi_controller.md section 3 (c)). -/
def Obligations.PiIntegratesConstantError : Prop :=
  ∀ (n : Nat) (s : State) (i : Inst) (e : Scalar), 1 ≤ n → i.val < s.build.nPi → s.arg.arg0 = some e →
    s.pi[i].clampEn = { intEn := false, outEn := false } → s.pi[i].acc.val = 0 → s.pi[i].eprev.val = 0 →
    NextWith (execTimes (.pi i) n s) fun t => t.pi[i].acc.val = s.dt.val * e.val * (n - 1 / 2)

/-- The saturation property of the source: with a constant positive error and an output clamp alone, the output
never exceeds its upper bound, and once the unclamped output has passed it every later call returns exactly the
bound (spec/42_pi_controller.md section 3 (b)). -/
def Obligations.PiSaturatesAtItsUpperBound : Prop :=
  ∀ (n : Nat) (s : State) (i : Inst) (e : Scalar), 1 ≤ n → i.val < s.build.nPi → s.arg.arg0 = some e →
    s.pi[i].clampEn = { intEn := false, outEn := true } → s.pi[i].outLo.val ≤ s.pi[i].outHi.val →
    s.pi[i].acc.val = 0 → s.pi[i].eprev.val = 0 → 0 < s.dt.val → 0 < e.val → 0 ≤ s.pi[i].kp.val → 0 < s.pi[i].ki.val →
    NextWith (execTimes (.pi i) n s) fun t =>
      ∃ y : Scalar, t.res.res0 = some y ∧ y.val ≤ s.pi[i].outHi.val ∧
        (s.pi[i].outHi.val ≤ s.pi[i].kp.val * e.val + s.pi[i].ki.val * (s.dt.val * e.val * (n - 1 / 2)) →
          y.val = s.pi[i].outHi.val)

/-- The wrap of the angle: one strict comparison with `2π`, at most one subtraction, nothing for a negative angle
(R132). The angle before the wrap is that of step 5 of R130. The spec marks as its own: R132 (decision D18), R130
(decision D17). -/
def Obligations.PllWrapsAtMostOnce : Prop :=
  ∀ (s t : State) (i : Inst), exec (.pll i) s = .next t →
    ∃ t1 : ℝ, t1 = s.pll[i].theta.val + realTrap t.pll[i].omega.val s.pll[i].omega.val s.dt.val ∧
      (t1 ≤ 2 * Real.pi → t.pll[i].theta.val = t1) ∧
      (2 * Real.pi < t1 → t.pll[i].theta.val = t1 - 2 * Real.pi) ∧
      (t1 < 0 → t.pll[i].theta.val < 0) ∧
      (t1 = 2 * Real.pi → t.pll[i].theta.val = 2 * Real.pi) ∧
      (4 * Real.pi < t1 → 2 * Real.pi < t.pll[i].theta.val) ∧
      (2 * Real.pi < t1 → t1 < 4 * Real.pi → 0 ≤ t.pll[i].theta.val ∧ t.pll[i].theta.val < 2 * Real.pi)

/-- The conditions under which the angle stays in `[0, 2π)` (R46 (b), R135 (b)). The spec marks as its own: R46
(derived), R135 (derived). -/
def Obligations.PllKeepsAngleInRange : Prop :=
  ∀ (s t : State) (i : Inst), exec (.pll i) s = .next t →
    0 ≤ s.pll[i].theta.val → s.pll[i].theta.val < 2 * Real.pi →
    -s.pll[i].theta.val ≤ realTrap t.pll[i].omega.val s.pll[i].omega.val s.dt.val →
    realTrap t.pll[i].omega.val s.pll[i].omega.val s.dt.val < 2 * Real.pi →
    s.pll[i].theta.val + realTrap t.pll[i].omega.val s.pll[i].omega.val s.dt.val ≠ 2 * Real.pi →
    0 ≤ t.pll[i].theta.val ∧ t.pll[i].theta.val < 2 * Real.pi

/-! ## Encoding, decoding, and the model's faults -/

/-- Decode and encode agree (R81, R82, R83): decoding an encoded instruction gives it back, and a word that decodes
is the encoding of what it decodes to, so that no two words are one instruction. The spec marks as its own: R81
(decision D9), R82 (decision D9), R83 (decision D10, D23). -/
def Obligations.EncodingRoundTrip : Prop :=
  (∀ i : Instr, decode (encode i) = .ok i) ∧ (∀ (w : BusWord) (i : Instr), decode w = .ok i → encode i = w)

/-- Words written out from the encoding tables (R82, R83) and the instructions they stand for. The spec marks as its
own: R82 (decision D9), R83 (decision D10, D23). -/
def Obligations.TableWordsDecode : Prop :=
  decode (.command 0x10#8) = .ok .clarke ∧ decode (.command 0x20#8) = .ok .park ∧
  decode (.command 0x30#8) = .ok .ipark ∧ decode (.command 0x43#8) = .ok (.lpf 3) ∧
  decode (.command 0x5F#8) = .ok (.intg 15) ∧ decode (.command 0x60#8) = .ok (.pi 0) ∧
  decode (.command 0x71#8) = .ok (.pll 1) ∧ decode (.event 2#2) = .ok (.cycle false) ∧
  decode (.event 3#2) = .ok (.cycle true)

/-- A reserved operation code raises `IllegalOp` and no well-formed build holds one (R86). The spec marks as its
own: R86 (decision D11). -/
def Obligations.ReservedOpRaises : Prop :=
  ∀ (s : State) (st : WireStep), ((commandOp st.cmd).toNat = 0 ∨ 8 ≤ (commandOp st.cmd).toNat) →
    (∀ i, decode (.command st.cmd) ≠ .ok i) ∧ issueWith exec st s = .fault (.illegalOp st.cmd) ∧
      (∀ b : Build, st ∈ b.wiring.steps → buildWf b = false)

/-- A bad instance field raises `BadInstance`, before any operand is looked at, and no well-formed build holds one
(R87). The spec marks as its own: R87 (decision D11). -/
def Obligations.BadInstanceRaises : Prop :=
  ∀ (s : State) (st : WireStep),
    (((commandOp st.cmd).toNat = 1 ∨ (commandOp st.cmd).toNat = 2 ∨ (commandOp st.cmd).toNat = 3) ∧
        commandInst st.cmd ≠ 0 ∨
      (commandOp st.cmd).toNat = 4 ∧ s.build.nLpf ≤ (commandInst st.cmd).val ∨
      (commandOp st.cmd).toNat = 5 ∧ s.build.nIntg ≤ (commandInst st.cmd).val ∨
      (commandOp st.cmd).toNat = 6 ∧ s.build.nPi ≤ (commandInst st.cmd).val ∨
      (commandOp st.cmd).toNat = 7 ∧ s.build.nPll ≤ (commandInst st.cmd).val) →
    issueWith exec st s = .fault (.badInstance st.cmd) ∧ (st ∈ s.build.wiring.steps → buildWf s.build = false)

/-- Every command word is one of the seven operations with a legal instance, or raises (R88). The spec marks as its
own: R88 (decision D11). -/
def Obligations.EveryCommandWordRunsOrRaises : Prop :=
  ∀ (s : State) (st : WireStep),
    (∃ i : Instr, decode (.command st.cmd) = .ok i ∧ i.isCommand = true ∧ i.wf s.build = true) ∨
    issueWith exec st s = .fault (.illegalOp st.cmd) ∨ issueWith exec st s = .fault (.badInstance st.cmd)

/-- An operation with an empty operand register raises `NoValue` for the lowest such operand (R84, R175, R179). The
spec marks as its own: R84 (decision D5, D17), R175 (decision D28), R179 (decision D26, D30). -/
def Obligations.EmptyOperandRaises : Prop :=
  ∀ (i : Instr) (s : State) (k : Nat), i.isCommand = true → i.wf s.build = true → k < i.argCount →
    argAt s.arg k = none → (∀ j, j < k → argAt s.arg j ≠ none) →
    exec i s = .fault (.noValue (.operand s.stepIdx k))

/-- An actuation output or, where every actuation output has a value, a hold latch routed from an empty net raises
`NoValue` for the first such (R175). The spec marks as its own: R175 (decision D28). -/
def Obligations.EmptyOutputNetRaises : Prop :=
  ∀ (s : State) (k n : Nat),
    (s.build.wiring.actSrc[k]? = some n → s.net.read n = none →
      (∀ j m, j < k → s.build.wiring.actSrc[j]? = some m → s.net.read m ≠ none) →
      leaveCycle s = .fault (.noValue (.act k))) ∧
    (s.build.wiring.holdSrc[k]? = some n → s.net.read n = none →
      (∀ (j m : Nat), s.build.wiring.actSrc[j]? = some m → s.net.read m ≠ none) →
      (∀ j m, j < k → s.build.wiring.holdSrc[j]? = some m → s.net.read m ≠ none) →
      leaveCycle s = .fault (.noValue (.hold k)))

/-! ## The step -/

/-- A step is one `clk` edge with `rst_n` high: the host's access, if there is one, and then the driver's part on
the state it leaves (R179, R155); where nothing is listed, the driver's part of a quiet edge (log entry 23). The
driver's part of an idle core: nothing where `tick` is 0, whatever `trig` is (R83); the decoded event where it is 1,
as one step or, where later edges fall into the cycle, its prologue (R140, log entry 4). In a cycle in progress: the
decoded command at `step`, whose operand registers are loaded from its sources, one by one, and whose results are
copied to its nets, and after the last command the epilogue (R93, R143). That one `clk` edge of a busy core runs
exactly one command, or the epilogue, is the model's choice (log entry 4: R218 gives no duration); that a hold latch
the build does not have is no value is log entry 18. The spec marks as its own: R179 (decision D26, D30), R155
(decision D7), R83 (decision D10, D23), R140 (decision D10, D24), R93 (decision D20). -/
def Obligations.StepRunsTheDecodedInstruction : Prop :=
  (∀ s : State, s.inputs = [] → step s = driverEdge (PortEdge.quiet s.pins) (s.atEdge s.pins)) ∧
  (∀ (s : State) (e : PortEdge) (rest : List PortEdge), s.inputs = e :: rest → e.rstN = true →
    (e.host = none → step s = driverEdge e (({ s with inputs := rest } : State).atEdge e.pins)) ∧
    (∀ a, e.host = some a →
      step s = andThen (hostAccess (({ s with inputs := rest } : State).atEdge e.pins) a) (driverEdge e))) ∧
  (∀ (e : PortEdge) (u : State), u.busy = false →
    (e.word.getLsbD 1 = false → driverEdge e u = .next u) ∧
    (∀ i, decode (.event e.word) = .ok i → e.overlap = false → driverEdge e u = exec i u) ∧
    (∀ tr, decode (.event e.word) = .ok (.cycle tr) → e.overlap = true →
      driverEdge e u = .next (if u.run then u.enterCycle tr else u))) ∧
  (∀ (e : PortEdge) (u : State), u.busy = true →
    (∀ (st : WireStep) (i : Instr), u.build.wiring.steps[u.stepIdx]? = some st → decode (.command st.cmd) = .ok i →
      driverEdge e u = andThen (exec i (u.setArg (argsOf u st.args))) fun v =>
        .next ((v.setNet (storeResults v.res st.dst 0 v.net)).setStep (v.stepIdx + 1))) ∧
    (u.build.wiring.steps[u.stepIdx]? = none → driverEdge e u = leaveCycle u)) ∧
  (∀ (s : State) (args : List Src) (k : Nat), k < 4 →
    (args.length ≤ k → argAt (argsOf s args) k = none) ∧
    (args[k]? = some .sa → argAt (argsOf s args) k = some s.sa) ∧
    (args[k]? = some .sb → argAt (argsOf s args) k = some s.sb) ∧
    (args[k]? = some .sc → argAt (argsOf s args) k = some s.sc) ∧
    (args[k]? = some .dt → argAt (argsOf s args) k = some s.dt) ∧
    (∀ n, args[k]? = some (.net n) → argAt (argsOf s args) k = s.net.read n) ∧
    (∀ x, args[k]? = some (.const x) → argAt (argsOf s args) k = some x) ∧
    (∀ h : Inst, args[k]? = some (.hold h.val) →
      argAt (argsOf s args) k = if h.val < s.build.nHold then some s.hold[h] else none)) ∧
  (∀ (r : ResRegs) (dst : List (Option Nat)) (net : Cells) (n : Nat), Cells.wf net = true →
    (some n ∉ dst → (storeResults r dst 0 net).read n = net.read n) ∧
    (∀ (k : Nat) (x : Option Scalar), [r.res0, r.res1, r.res2][k]? = some x → dst[k]? = some (some n) →
      (∀ j, j ≠ k → dst[j]? ≠ some (some n)) → (storeResults r dst 0 net).read n = x))

/-- A cycle that later edges fall into, with nothing happening at them, is the atomic cycle: the prologue, one
command per edge, the epilogue give the outcome of `CYCLE` in one step (R141, R143, R182; the two ways of timing a
cycle are log entry 4). The spec marks as its own: R141 (decision D20, D22), R182 (decision D24). -/
def Obligations.OverlappedCycleRefinesAtomicCycle : Prop :=
  ∀ (s : State) (e : PortEdge), e.driverOnly = true → s.busy = false → e.word.getLsbD 1 = true → s.run = true →
    Host.Core.run Sys2Proof.core (s.build.wiring.steps.length + 2) { s with inputs := [{ e with overlap := true }] } =
      step { s with inputs := [{ e with overlap := false }] }

/-- A host access at the edge of a tick comes first: STOP at that edge prevents the cycle, START lets it run (R179).
The spec marks as its own: R179 (decision D26, D30). -/
def Obligations.HostAccessComesBeforeTick : Prop :=
  ∀ (s : State) (e : PortEdge) (a : HostAccess) (rest : List PortEdge), s.inputs = e :: rest → e.rstN = true →
    e.host = some a → a.hwe = true → a.hsel = false → a.haddr = 0#16 → s.busy = false → e.word.getLsbD 1 = true →
    e.overlap = false →
    (s.run = true → a.hwdata.bits.getLsbD 0 = false →
      step s = .next { ({ s with inputs := rest } : State).atEdge e.pins with run := false }) ∧
    (s.run = false → a.hwdata.bits.getLsbD 0 = true → buildWf s.build = true → validConfig s = true →
      step s = exec (.cycle (e.word.getLsbD 0)) (({ s with inputs := rest } : State).atEdge e.pins).started)

/-- A tick at an edge of a cycle in progress is dropped: the edge does what it would do without the tick (R178,
R182). The spec marks as its own: R178 (decision D24), R182 (decision D24). -/
def Obligations.TickDuringCycleIsDropped : Prop :=
  ∀ (s : State) (e : PortEdge) (rest : List PortEdge) (w : BitVec 2) (o : Bool), s.busy = true → e.host = none →
    step { s with inputs := { e with word := w, overlap := o } :: rest } = step { s with inputs := e :: rest }

/-! ## Invariants -/

/-- Every step keeps the machine's invariant: canonical memory, no `Full`, `BIDX` inside the buffer and zero while
`Idle`, `step` inside the wiring and zero between cycles, untouched registers of absent instances (R20, R22, R41,
R63, R145, R147, R148). The spec marks as its own: R22 (decision D6), R41 (decision D22), R63 (decision D8, D21),
R145 (decision D21), R147 (decision D22). -/
def Obligations.StepKeepsInvariant : Prop := ∀ s t : State, s.Inv → step s = .next t → t.Inv

/-- The machine after reset has the invariant, whatever the build. -/
def Obligations.ResetHasInvariant : Prop := State.reset.Inv ∧ ∀ b : Build, (State.resetOf b).Inv

/-- From START on the build is well formed and the configuration valid, in RUN mode and while a cycle is in progress
(R158, R206, R212). That an ill-formed build is refused at START is log entry 13; that the configuration stays valid
in a cycle whose core was stopped, because no write to it lands before that cycle has ended, is the model's choice
(log entry 12). The spec marks as its own: R158 (derived), R206 (decision D15, D19), R212 (decision D12). -/
def Obligations.StepKeepsRunValid : Prop := ∀ s t : State, s.RunValid → step s = .next t → t.RunValid

/-- In RUN mode no edge but reset changes a configuration register (R74, R186, R212). That the same holds of a
stopped core until its cycle in progress has ended (`RUN` 0, `BUSY` 1) is the model's choice (log entry 12). The
spec marks as its own: R74 (decision D12), R186 (decision D12, D26), R212 (decision D12). -/
def Obligations.RunModeKeepsConfiguration : Prop :=
  ∀ s t : State, (s.run = true ∨ s.busy = true) → (∀ e rest, s.inputs = e :: rest → e.rstN = true) →
    step s = .next t → SameConfig s t

/-- A running core between cycles never stops in the reference instance, whatever the ports and the host do at the
edge (R158, R170, R187). The spec marks as its own: R158 (derived). -/
def Obligations.RunningCoreNeverStops : Prop :=
  ∀ s : State, s.build.num = .real → s.RunValid → s.run = true → s.busy = false → ∃ t, step s = .next t

/-- The state of an instance the wiring does not name is never written by a cycle (R20, R85). The spec marks as its
own: R85 (derived). -/
def Obligations.CycleKeepsUnwiredInstances : Prop :=
  ∀ (s t : State) (tr : Bool), exec (.cycle tr) s = .next t →
    ∀ i : Inst,
      (.lpf i ∉ wiringInstrs s.build.wiring → t.lpf[i] = s.lpf[i]) ∧
      (.intg i ∉ wiringInstrs s.build.wiring → t.intg[i] = s.intg[i]) ∧
      (.pi i ∉ wiringInstrs s.build.wiring → t.pi[i] = s.pi[i]) ∧
      (.pll i ∉ wiringInstrs s.build.wiring → t.pll[i] = s.pll[i])

/-- Feedback only across cycles: what nets, operand and result registers, Sample registers, `step` and `edge` held
before a cycle reaches nothing after it (R44, R157). The spec marks as its own: R44 (decision D20, D28), R157
(derived). -/
def Obligations.CycleForgetsOldNets : Prop :=
  ∀ (s : State) (tr : Bool) (net : Cells) (arg : ArgRegs) (res : ResRegs) (x y z : Scalar) (n : Nat) (g : Bool),
    s.takesTick = true →
    exec (.cycle tr) { s with net := net, arg := arg, res := res, sa := x, sb := y, sc := z, stepIdx := n, edge := g } =
      exec (.cycle tr) s

/-! ## The sample buffer -/

/-- One cycle of a core with a buffer: the rows of the table of R147, with R146, R148 and R149. Every lane but the
stored entry's keeps its value. The spec marks as its own: R147 (decision D22), R146 (decision D23), R149 (decision
D22, D23). -/
def Obligations.CycleRunsBufferMachine : Prop :=
  ∀ (s t : State) (tr : Bool), s.takesTick = true → s.build.bufEn = true → s.bidx < s.build.bufCap →
    (s.bstate = .idle → s.bidx = 0) → s.bstate ≠ .full → exec (.cycle tr) s = .next t →
    (s.bstate = .idle → risingEdge tr s.trigPrev = false →
      t.bstate = .idle ∧ t.bidx = 0 ∧ ∀ a, t.buf.read a = s.buf.read a) ∧
    ((s.bstate = .filling ∨ risingEdge tr s.trigPrev = true) →
      t.buf.read (4 * s.bidx) = some s.pins.sa ∧ t.buf.read (4 * s.bidx + 1) = some s.pins.sb ∧
      t.buf.read (4 * s.bidx + 2) = some s.pins.sc ∧
      (∀ a, a ≠ 4 * s.bidx → a ≠ 4 * s.bidx + 1 → a ≠ 4 * s.bidx + 2 → t.buf.read a = s.buf.read a) ∧
      (s.bidx + 1 = s.build.bufCap → t.bstate = .idle ∧ t.bidx = 0) ∧
      (s.bidx + 1 ≠ s.build.bufCap → t.bstate = .filling ∧ t.bidx = s.bidx + 1)) ∧
    t.trigPrev = tr ∧ t.bidx < s.build.bufCap ∧ (t.bstate = .idle → t.bidx = 0)

/-- Without a buffer a cycle stores nothing, no `BUF` address is mapped, `BIDX` and `BSTATE` read zero, and the
trigger is still sampled (R145). The spec marks as its own: R145 (decision D21). -/
def Obligations.CycleWithoutBufferStoresNothing : Prop :=
  ∀ (s t : State) (tr : Bool), s.takesTick = true → s.build.bufEn = false → exec (.cycle tr) s = .next t →
    t.buf = s.buf ∧ t.bidx = s.bidx ∧ t.bstate = s.bstate ∧ t.trigPrev = tr ∧
    (∀ a : BitVec 16, memRead t true a = none) ∧ readReg t .bidx = .bits 0#16 ∧
    readReg t .status = .bits (if tr then 4#16 else 0#16)

/-! ## The host port, modes and reset -/

/-- The `REG` map, number by number (R61, R62). The spec marks as its own: R61 (decision D8), R62 (decision D8). -/
def Obligations.RegisterMap : Prop :=
  ∀ (b : Build) (i r : Inst),
    (∀ blk : BitVec 4, decodeReg b (blk ++ BitVec.ofFin (w := 4) i ++ BitVec.ofFin (w := 4) r) =
      regAt b blk.toNat i r) ∧
    [regAt b 0 0 0, regAt b 0 0 1, regAt b 0 0 2, regAt b 0 0 3, regAt b 0 0 4, regAt b 0 0 5, regAt b 0 0 6] =
      [some .ctrl, some .dt, some .status, some .bidx, some .sa, some .sb, some .sc] ∧
    (7 ≤ r.val ∨ i ≠ 0 → regAt b 0 i r = none) ∧
    regAt b 1 i r = (if i = 0 ∧ r.val < b.nAct then some (.act r) else none) ∧
    regAt b 2 i r = (if i = 0 ∧ r.val < b.nHold then some (.hold r) else none) ∧
    (i.val < b.nLpf →
      [regAt b 4 i 0, regAt b 4 i 1, regAt b 4 i 2] = [some (.lpfFc i), some (.lpfDt i), some (.lpfY i)]) ∧
    (3 ≤ r.val ∨ b.nLpf ≤ i.val → regAt b 4 i r = none) ∧
    regAt b 5 i r = (if i.val < b.nIntg ∧ r = 0 then some (.intgAcc i) else none) ∧
    (i.val < b.nPi →
      [regAt b 6 i 0, regAt b 6 i 1, regAt b 6 i 2, regAt b 6 i 3, regAt b 6 i 4, regAt b 6 i 5, regAt b 6 i 6,
        regAt b 6 i 7, regAt b 6 i 8] =
      [some (.pi i .kp), some (.pi i .ki), some (.pi i .outLo), some (.pi i .outHi), some (.pi i .intLo),
        some (.pi i .intHi), some (.pi i .clampEn), some (.pi i .acc), some (.pi i .eprev)]) ∧
    (9 ≤ r.val ∨ b.nPi ≤ i.val → regAt b 6 i r = none) ∧
    (i.val < b.nPll →
      [regAt b 7 i 0, regAt b 7 i 1, regAt b 7 i 2, regAt b 7 i 3, regAt b 7 i 4, regAt b 7 i 5, regAt b 7 i 6,
        regAt b 7 i 7, regAt b 7 i 8, regAt b 7 i 9, regAt b 7 i 10, regAt b 7 i 11] =
      [some (.pllPi i .kp), some (.pllPi i .ki), some (.pllPi i .outLo), some (.pllPi i .outHi),
        some (.pllPi i .intLo), some (.pllPi i .intHi), some (.pllPi i .clampEn), some (.pllPi i .acc),
        some (.pllPi i .eprev), some (.theta i), some (.omega i), some (.freq i)]) ∧
    (12 ≤ r.val ∨ b.nPll ≤ i.val → regAt b 7 i r = none) ∧
    (∀ blk : Nat, blk = 3 ∨ 8 ≤ blk → regAt b blk i r = none)

/-- Reads and writes of the host that reach nothing: an unmapped address, a lane that is unmapped or was never
stored, a read-only register, a register marked `I` in RUN mode (R62, R63, R65). That a register marked `I` is
refused too while a stopped core ends its cycle in progress (`RUN` 0, `BUSY` 1) is the model's choice (log entry
12). The spec marks as its own: R62 (decision D8), R63 (decision D8, D21), R65 (decision D26). -/
def Obligations.RefusedAccessesChangeNothing : Prop :=
  ∀ (s : State) (a : BitVec 16) (d : HostData),
    (decodeReg s.build (a.setWidth 12) = none → memRead s false a = none ∧ memWrite s false a d = .next s) ∧
    (a.toNat % 4 = 3 ∨ s.build.bufCap ≤ a.toNat / 4 ∨ s.build.bufEn = false ∨ s.buf.read a.toNat = none →
      memRead s true a = none) ∧
    memWrite s true a d = .next s ∧
    (∀ r, decodeReg s.build (a.setWidth 12) = some r →
      r = .status ∨ r = .bidx ∨ r = .sa ∨ r = .sb ∨ r = .sc ∨ ((s.run = true ∨ s.busy = true) ∧ r ≠ .ctrl) →
      memWrite s false a d = .next s)

/-- In INIT mode with no cycle in progress a write to a register marked `I` is read back at its address, and no
other register and no buffer lane reads anything else (R184, R186). The spec marks as its own: R184 (decision D12),
R186 (decision D12, D26). -/
def Obligations.InitWriteIsReadBack : Prop :=
  ∀ (s : State) (r : RegName) (a : BitVec 16) (d : HostData), s.run = false → s.busy = false →
    decodeReg s.build (a.setWidth 12) = some r → r.initWritable = true →
    NextWith (memWrite s false a d) fun t =>
      memRead t false a = some (readReg t r) ∧ (∀ r', r' ≠ r → readReg t r' = readReg s r') ∧ t.buf = s.buf ∧ t.build = s.build ∧
      (readReg t r = .scalar d.scalar ∨
        ∃ v : BitVec 16, readReg t r = .bits v ∧ v.toNat = d.bits.toNat % 4 ∧
          ((∃ i, r = .pi i .clampEn) ∨ (∃ i, r = .pllPi i .clampEn)))

/-- What a host read returns (R61, R63, R65): at a mapped `REG` address the register, each scalar register being the
field of its own name (R24 to R31, R33 to R38, R43); at a mapped lane of `BUF` what the lane holds; and the port
`hrdata` answers it at the edge of the read (R155). A read changes nothing but that port, so that the next read of
any address answers as it would have; and an access done twice is as an access done once (R68). The spec marks as
its own: R61 (decision D8), R63 (decision D8, D21), R65 (decision D26), R24 (decision D13, D16), R43 (decision D20),
R155 (decision D7), R68 (decision D26). -/
def Obligations.AccessesAreIdempotent : Prop :=
  (∀ (s : State) (a : BitVec 16),
    (∀ r, decodeReg s.build (a.setWidth 12) = some r → memRead s false a = some (readReg s r)) ∧
    (s.build.bufEn = true → a.toNat / 4 < s.build.bufCap → a.toNat % 4 ≠ 3 →
      memRead s true a = (s.buf.read a.toNat).map Elem.scalar)) ∧
  (∀ (s : State) (i : Inst),
    [readReg s .dt, readReg s .sa, readReg s .sb, readReg s .sc, readReg s (.act i), readReg s (.hold i),
      readReg s (.lpfFc i), readReg s (.lpfDt i), readReg s (.lpfY i), readReg s (.intgAcc i), readReg s (.theta i),
      readReg s (.omega i), readReg s (.freq i)] =
    [s.dt, s.sa, s.sb, s.sc, s.act[i], s.hold[i], s.lpf[i].fc, s.lpf[i].dt, s.lpf[i].y, s.intg[i].acc, s.pll[i].theta,
      s.pll[i].omega, s.pll[i].freq].map Elem.scalar ∧
    ∀ (p : PiRegs) (at_ : PiReg → RegName), (p = s.pi[i] ∧ at_ = .pi i ∨ p = s.pll[i].pi ∧ at_ = .pllPi i) →
      [readReg s (at_ .kp), readReg s (at_ .ki), readReg s (at_ .outLo), readReg s (at_ .outHi), readReg s (at_ .intLo),
        readReg s (at_ .intHi), readReg s (at_ .acc), readReg s (at_ .eprev)] =
      [p.kp, p.ki, p.outLo, p.outHi, p.intLo, p.intHi, p.acc, p.eprev].map Elem.scalar) ∧
  (∀ (s : State) (e : PortEdge) (rest : List PortEdge) (a : HostAccess), s.inputs = e :: rest → e.rstN = true →
    e.host = some a → a.hwe = false → s.busy = false → e.word.getLsbD 1 = false →
    step s = .next { ({ s with inputs := rest } : State).atEdge e.pins with hrdata := memRead s a.hsel a.haddr }) ∧
  (∀ (s : State) (a : HostAccess),
    (a.hwe = false → NextWith (hostAccess s a) fun t => t = { s with hrdata := memRead s a.hsel a.haddr } ∧
      ∀ (sel : Bool) (b : BitVec 16), memRead t sel b = memRead s sel b) ∧
    (∀ t, hostAccess s a = .next t → hostAccess t a = .next t))

/-- START, STOP and a write that changes no bit (R185). That START is refused on a build that is not well formed is
log entry 13. That a START while a cycle is in progress leaves `step`, nets, operands and results to that cycle
until its end, and re-arms the rest at once (R42, R146), is log entry 12. The spec marks as its own: R185 (decision
D12, D23), R42 (decision D23), R146 (decision D23). -/
def Obligations.StartAndStop : Prop :=
  ∀ (s : State) (d : HostData),
    (s.run = false → d.bits.getLsbD 0 = true → buildWf s.build = true → validConfig s = true →
      (s.busy = false → writeReg s .ctrl d = .next
        { s with run := true, bstate := .idle, bidx := 0, trigPrev := true, stepIdx := 0, net := [],
                 arg := ArgRegs.empty, res := ResRegs.empty, rearm := false }) ∧
      (s.busy = true → writeReg s .ctrl d = .next
        { s with run := true, bstate := .idle, bidx := 0, trigPrev := true, rearm := true })) ∧
    (s.run = false → d.bits.getLsbD 0 = true → buildWf s.build = true → validConfig s = false →
      ∃ blk inst, writeReg s .ctrl d = .fault (.invalidConfig blk inst)) ∧
    (s.run = false → d.bits.getLsbD 0 = true → buildWf s.build = false →
      writeReg s .ctrl d = .refused .illFormedBuild) ∧
    (s.run = true → d.bits.getLsbD 0 = false → writeReg s .ctrl d = .next { s with run := false }) ∧
    (d.bits.getLsbD 0 = s.run → writeReg s .ctrl d = .next s)

/-- A configuration is found valid exactly when R206 says it is: by the comparison of the build's own `NUM`,
whatever that is, and in the reference instance, where every register compared has a value, by the comparison of the
real numbers. The spec marks as its own: R206 (decision D15, D19). -/
def Obligations.ValidConfigMeansValid : Prop :=
  ∀ s : State, (validConfig s = true ↔ ValidBy (NumGreater s.build.num) s) ∧
    (s.build.num = .real → ConfigHasReal s → (validConfig s = true ↔ ValidBy (fun a b => a.val > b.val) s))

/-- STOP does not disturb the cycle in progress: its next command or its epilogue does what it would do in RUN mode
(R185). Nor does a START during that cycle: its commands and its outputs are what they would have been, and it is
not run again (R70). START re-arms the buffer machine and the trigger history at once, and they alone differ (R185,
R42); that `step`, nets, operands and results are re-armed after the epilogue is the model's choice (log entry 12).
The spec marks as its own: R185 (decision D12, D23), R42 (decision D23). -/
def Obligations.StopLetsTheCycleFinish : Prop :=
  ∀ (s t : State), s.inputs = [] → s.busy = true → step s = .next t →
    (∀ r : Bool, step { s with run := r } = .next { t with run := r }) ∧
    (∀ d : HostData, s.run = false → d.bits.getLsbD 0 = true → buildWf s.build = true → validConfig s = true →
      ∃ u v : State, writeReg s .ctrl d = .next u ∧ step u = .next v ∧
        (t.busy = true →
          v = { t with run := true, rearm := true, trigPrev := true, bstate := .idle, bidx := 0 }) ∧
        (t.busy = false →
          v = { t with run := true, rearm := false, trigPrev := true, bstate := v.bstate, bidx := v.bidx, buf := v.buf,
                       net := [], arg := ArgRegs.empty, res := ResRegs.empty } ∧
          (s.build.bufEn = false ∨ s.edge = false → v.buf = s.buf ∧ v.bstate = .idle ∧ v.bidx = 0) ∧
          (s.build.bufEn = true → s.edge = true → v.buf = (s.storeSample 0).buf ∧
            (s.build.bufCap = 1 → v.bstate = .idle ∧ v.bidx = 0) ∧
            (s.build.bufCap ≠ 1 → v.bstate = .filling ∧ v.bidx = 1))))

/-- The flag registers as words: the named bits in their places, the codes 0 `Idle`, 1 `Filling`, 2 `Full`, every
other bit zero (R23, R32, R41, R42); the index `BIDX` (R40); `CLAMP_EN` of a PI controller and of the one in a PLL
(R35). The spec marks as its own: R23 (decision D12), R32 (decision D14), R41 (decision D22), R42 (decision D23). -/
def Obligations.FlagRegistersAsWords : Prop :=
  ∀ (s : State) (i : Inst),
    (∃ v, readReg s .ctrl = .bits v ∧ v.toNat = s.run.toNat) ∧
    (∃ (v : BitVec 16) (code : Nat), readReg s .status = .bits v ∧ v.toNat = 4 * s.trigPrev.toNat + code ∧
      (s.build.bufEn = false → code = 0) ∧ (s.bstate = .idle → code = 0) ∧
      (s.build.bufEn = true → s.bstate = .filling → code = 1) ∧
      (s.build.bufEn = true → s.bstate = .full → code = 2)) ∧
    (∃ v, readReg s .bidx = .bits v ∧ (s.build.bufEn = false → v.toNat = 0) ∧
      (s.build.bufEn = true → s.bidx < 16384 → v.toNat = s.bidx)) ∧
    (∃ v, readReg s (.pi i .clampEn) = .bits v ∧
      v.toNat = s.pi[i].clampEn.intEn.toNat + 2 * s.pi[i].clampEn.outEn.toNat) ∧
    (∃ v, readReg s (.pllPi i .clampEn) = .bits v ∧
      v.toNat = s.pll[i].pi.clampEn.intEn.toNat + 2 * s.pll[i].pi.clampEn.outEn.toNat)

/-- `rst_n` low at an edge, in the middle of a cycle or not, gives every register its reset value (R200, R202,
R204). What stays is no register: the build, the levels on the sample ports, and the edges to come. That those stay,
and that the edge does nothing else, is the model's choice (log entries 7 and 11). The spec marks as its own: R200
(decision D13), R202 (decision D13), R204 (decision D13). -/
def Obligations.ResetEdgeResetsEverything : Prop :=
  ∀ (s : State) (e : PortEdge) (rest : List PortEdge), s.inputs = e :: rest → e.rstN = false →
    step s = .next { State.resetOf s.build with pins := e.pins, inputs := rest }

/-- The reset values, register by register, whatever the build (R201, R202). The spec marks as its own: R201
(decision D12, D13), R202 (decision D13). -/
def Obligations.ResetValues : Prop :=
  ∀ (b : Build) (s : State), s = State.resetOf b →
    s.run = false ∧ s.busy = false ∧ s.stepIdx = 0 ∧ s.done = false ∧
    s.dt.val = 0 ∧ s.bstate = .idle ∧ s.trigPrev = true ∧ s.bidx = 0 ∧
    s.sa.val = 0 ∧ s.sb.val = 0 ∧ s.sc.val = 0 ∧
    (∀ j : Inst, s.act[j].val = 0 ∧ s.hold[j].val = 0) ∧
    (∀ i : Inst, s.lpf[i].fc.val = 0 ∧ s.lpf[i].dt.val = 0 ∧ s.lpf[i].y.val = 0 ∧ s.intg[i].acc.val = 0) ∧
    (∀ (i : Inst) (p : PiRegs), p = s.pi[i] ∨ p = s.pll[i].pi →
      p.kp.val = 0 ∧ p.ki.val = 0 ∧ p.outLo.val = 0 ∧ p.outHi.val = 0 ∧ p.intLo.val = 0 ∧ p.intHi.val = 0 ∧
      p.clampEn.intEn = false ∧ p.clampEn.outEn = false ∧ p.acc.val = 0 ∧ p.eprev.val = 0) ∧
    (∀ i : Inst, s.pll[i].theta.val = 0 ∧ s.pll[i].omega.val = 0 ∧ s.pll[i].freq.val = 0) ∧
    (∀ a, s.buf.read a = none) ∧ (∀ n, s.net.read n = none) ∧
    (∀ k, argAt s.arg k = none) ∧ (∀ k, resAt s.res k = none) ∧
    readReg s .status = .bits 4#16 ∧ State.reset = State.resetOf Config.build

/-! ## The numerics record -/

/-- The frame transforms in any numerics record: one operation of `NUM` per operator, in the order of the
pseudocode's parentheses (R8). The pseudocode is that of R101 for `PARK`, R102 for `IPARK` and R103 for `CLARKE`,
whose alpha formula and order `b - c` are log entry 17 (G1). The spec marks as its own: R8 (decision D2), R101
(decision D3, D33), R103 (decision D4). -/
def Obligations.FrameTransformsFollowThePseudocode : Prop :=
  ∀ (N : Sys2Proof.Num) (ext : Nat → N.S) (s : State) (a b c th : Scalar) (x y z w : N.S),
    th.evalIn N ext = some w → a.evalIn N ext = some x → b.evalIn N ext = some y → c.evalIn N ext = some z →
    s.arg = { arg0 := some th, arg1 := some a, arg2 := some b, arg3 := some c } →
    (∃ d q o, exec .park s = .next (s.setRes { res0 := some d, res1 := some q, res2 := some o }) ∧
      d.evalIn N ext = some (numProject N N.cos w x y z) ∧ q.evalIn N ext = some (numProject N N.sin w x y z) ∧
      o.evalIn N ext = N.div (N.add (N.add x y) z) (N.ofRat 3)) ∧
    (∃ p q r, exec .ipark s = .next (s.setRes { res0 := some p, res1 := some q, res2 := some r }) ∧
      p.evalIn N ext = some (numIparkPhase N w x y z) ∧
      q.evalIn N ext = some (numIparkPhase N (N.sub w N.twoPiDiv3) x y z) ∧
      r.evalIn N ext = some (numIparkPhase N (N.add w N.twoPiDiv3) x y z)) ∧
    (∃ al be, exec .clarke (s.setArg { arg0 := some a, arg1 := some b, arg2 := some c, arg3 := none }) =
        .next ((s.setArg { arg0 := some a, arg1 := some b, arg2 := some c, arg3 := none }).setRes
          { res0 := some al, res1 := some be, res2 := none }) ∧
      al.evalIn N ext = some (N.mul (N.ofRat (2 / 3))
        (N.sub (N.sub x (N.mul (N.ofRat (1 / 2)) y)) (N.mul (N.ofRat (1 / 2)) z))) ∧
      be.evalIn N ext = some (N.mul (N.ofRat (2 / 3)) (N.mul N.sqrt3Div2 (N.sub y z))))

/-- The filter and the integrator in any numerics record (R8). The filter completes where the build's own `NUM`
gives its two divisions a value, and raises `InvalidConfig` where it gives one of them none (R6, R110, R112, R172).
The spec marks as its own: R8 (decision D2), R6 (decision D1), R112 (decision D19), R172 (decision D19). -/
def Obligations.FilterAndIntegratorFollowThePseudocode : Prop :=
  (∀ (s : State) (i : Inst) (a : Scalar) (x fc h y0 : s.build.num.num.S),
    s.arg.arg0 = some a → a.valueIn s.build.num = some x → i.val < s.build.nLpf →
    s.lpf[i].fc.valueIn s.build.num = some fc → s.lpf[i].dt.valueIn s.build.num = some h →
    s.lpf[i].y.valueIn s.build.num = some y0 →
    let N := s.build.num.num
    match N.div (N.ofRat 1) (N.mul N.twoPi fc) with
    | none => exec (.lpf i) s = .fault (.invalidConfig 4 i.val)
    | some tau =>
      match N.div h (N.add tau h) with
      | none => exec (.lpf i) s = .fault (.invalidConfig 4 i.val)
      | some c1 => NextWith (exec (.lpf i) s) fun t => t.res.res0 = some t.lpf[i].y ∧
          t.lpf[i].y.valueIn s.build.num = some (N.add (N.mul c1 x) (N.mul (N.sub (N.ofRat 1) c1) y0))) ∧
  (∀ (N : Sys2Proof.Num) (ext : Nat → N.S) (s : State) (i : Inst) (a b c : Scalar) (x y z acc : N.S),
    a.evalIn N ext = some x → b.evalIn N ext = some y → c.evalIn N ext = some z →
    s.arg.arg0 = some a → s.arg.arg1 = some b → s.arg.arg2 = some c →
    i.val < s.build.nIntg → s.intg[i].acc.evalIn N ext = some acc →
    NextWith (exec (.intg i) s) fun t => t.res.res0 = some t.intg[i].acc ∧
      t.intg[i].acc.evalIn N ext = some (N.add acc (numTrap N x y z)))

/-- The PI controller and the PLL in any numerics record (R8), with no enabled bound pair reversed, whatever the
operand registers the operation does not read hold (R84, R93). The spec marks as its own: R8 (decision D2), R84
(decision D5), R93 (decision D20). -/
def Obligations.ControllersFollowThePseudocode : Prop :=
  (∀ (N : Sys2Proof.Num) (ext : Nat → N.S) (s : State) (i : Inst) (a : Scalar) (x dt : N.S) (v : NumPi N),
    s.arg.arg0 = some a → a.evalIn N ext = some x → s.dt.evalIn N ext = some dt →
    i.val < s.build.nPi → v.ValuesOf ext s.pi[i] →
    NextWith (exec (.pi i) s) fun t => ∃ out, t.res.res0 = some out ∧
      out.evalIn N ext = some (v.output s.pi[i].clampEn dt x) ∧
      t.pi[i].acc.evalIn N ext = some (v.nextAcc s.pi[i].clampEn dt x) ∧ t.pi[i].eprev = a) ∧
  (∀ (N : Sys2Proof.Num) (ext : Nat → N.S) (s : State) (i : Inst) (a b c : Scalar) (x y z dt th om : N.S)
    (v : NumPi N),
    s.arg.arg0 = some a → s.arg.arg1 = some b → s.arg.arg2 = some c →
    a.evalIn N ext = some x → b.evalIn N ext = some y → c.evalIn N ext = some z → s.dt.evalIn N ext = some dt →
    i.val < s.build.nPll → v.ValuesOf ext s.pll[i].pi → s.pll[i].theta.evalIn N ext = some th →
    s.pll[i].omega.evalIn N ext = some om →
    NextWith (exec (.pll i) s) fun t => ∃ e w t1 : N.S,
      e = N.sub (N.ofRat 0) (numProject N N.cos th x y z) ∧ w = v.output s.pll[i].pi.clampEn dt e ∧
      t1 = N.add th (numTrap N w om dt) ∧
      t.pll[i].pi.acc.evalIn N ext = some (v.nextAcc s.pll[i].pi.clampEn dt e) ∧
      t.pll[i].pi.eprev.evalIn N ext = some e ∧
      t.pll[i].omega.evalIn N ext = some w ∧ t.pll[i].freq.evalIn N ext = N.div w N.twoPi ∧
      t.pll[i].theta.evalIn N ext = some (if N.gt t1 N.twoPi then N.sub t1 N.twoPi else t1) ∧
      t.res = { res0 := some t.pll[i].theta, res1 := some t.pll[i].omega, res2 := some t.pll[i].freq })

/-- The real number a scalar stands for is its value in the reference instance wherever that has one, that is
wherever no divisor is zero (R6). The spec marks as its own: R6 (decision D1). -/
def Obligations.ValueIsTheReferenceInstance : Prop :=
  ∀ (a : Scalar) (x : ℝ), a.evalIn Sys2Proof.Num.real Config.freeReal = some x → a.val = x
end

