-- ==== Sys2Proof/Laws/Numerics.lean ====
section
/-! SUPPORT. What the enclosures say: an enclosed scalar has a real value and it lies in the enclosure. What the two
questions on which control depends answer: the truth in the build's `NUM`. And the real value of each helper of rules
R7, R10, R11. -/

namespace Sys2Proof.Machine

/-- The real number a fraction stands for. -/
noncomputable def Frac.val (a : Frac) : ℝ := (a.num : ℝ) / (a.den : ℝ)

theorem Frac.den_pos (a : Frac) : (0 : ℝ) < (a.den : ℝ) := by
  unfold Frac.den; positivity

theorem Frac.ofInt_val (n : Int) : (Frac.ofInt n).val = n := by
  simp [Frac.val, Frac.ofInt, Frac.den]

theorem Frac.ofRat_val (q : Rat) : (Frac.ofRat q).val = (q : ℝ) := by
  have h : 0 < q.den := q.den_pos
  have hd : q.den - 1 + 1 = q.den := by omega
  simp only [Frac.val, Frac.ofRat, Frac.den, hd]
  exact (Rat.cast_def q).symm

theorem Frac.le_iff (a b : Frac) : a.le b = true ↔ a.val ≤ b.val := by
  simp only [Frac.le, decide_eq_true_eq, Frac.val]
  rw [div_le_div_iff₀ a.den_pos b.den_pos]
  exact_mod_cast Iff.rfl

theorem Frac.lt_iff (a b : Frac) : a.lt b = true ↔ a.val < b.val := by
  simp only [Frac.lt, decide_eq_true_eq, Frac.val]
  rw [div_lt_div_iff₀ a.den_pos b.den_pos]
  exact_mod_cast Iff.rfl

theorem Frac.neg_val (a : Frac) : a.neg.val = -a.val := by
  simp [Frac.val, Frac.neg, Frac.den, neg_div]

theorem Frac.mul_val (a b : Frac) : (a.mul b).val = a.val * b.val := by
  have : ((a.mul b).den : ℝ) = a.den * b.den := by
    simp only [Frac.mul, Frac.den]; push_cast; ring
  simp only [Frac.val, this]
  rw [div_mul_div_comm]; simp [Frac.mul]

theorem Frac.add_val (a b : Frac) : (a.add b).val = a.val + b.val := by
  have : ((a.add b).den : ℝ) = a.den * b.den := by
    simp only [Frac.add, Frac.den]; push_cast; ring
  simp only [Frac.val, this]
  rw [div_add_div _ _ a.den_pos.ne' b.den_pos.ne']
  simp only [Frac.add]; push_cast; ring

theorem Frac.min_val (a b : Frac) : (a.min b).val = Min.min a.val b.val := by
  unfold Frac.min
  by_cases h : a.le b = true
  · rw [if_pos h, min_eq_left ((Frac.le_iff a b).1 h)]
  · rw [if_neg h]
    have := mt (Frac.le_iff a b).2 h
    rw [min_eq_right (le_of_lt (not_le.1 this))]

theorem Frac.max_val (a b : Frac) : (a.max b).val = Max.max a.val b.val := by
  unfold Frac.max
  by_cases h : a.le b = true
  · rw [if_pos h, max_eq_right ((Frac.le_iff a b).1 h)]
  · rw [if_neg h]
    have := mt (Frac.le_iff a b).2 h
    rw [max_eq_left (le_of_lt (not_le.1 this))]

theorem Frac.inv_val (a : Frac) (h : a.num ≠ 0) : a.inv.val = a.val⁻¹ := by
  have hd : a.num.natAbs - 1 + 1 = a.num.natAbs := by omega
  unfold Frac.inv
  split
  · rename_i hp
    simp only [Frac.val, Frac.den, hd, inv_div]
    rw [Nat.cast_natAbs, abs_of_pos hp]; push_cast; ring
  · have hn : a.num < 0 := by omega
    simp only [Frac.val, Frac.den, hd, inv_div]
    rw [Nat.cast_natAbs, abs_of_neg hn]; push_cast; rw [div_neg, neg_div, neg_neg]

theorem Frac.val_pos_iff (a : Frac) : 0 < a.val ↔ 0 < a.num := by
  simp only [Frac.val]
  rw [div_pos_iff_of_pos_right a.den_pos]; exact_mod_cast Iff.rfl

theorem Frac.val_neg_iff (a : Frac) : a.val < 0 ↔ a.num < 0 := by
  simp only [Frac.val]
  rw [div_neg_iff]
  constructor
  · rintro (⟨-, h⟩ | ⟨h, -⟩)
    · exact absurd h (not_lt.2 a.den_pos.le)
    · exact_mod_cast h
  · intro h; exact Or.inr ⟨by exact_mod_cast h, a.den_pos⟩

/-- The real number `x` lies in the interval. -/
def Encl.Mem (e : Encl) (x : ℝ) : Prop := e.lo.val ≤ x ∧ x ≤ e.hi.val

theorem Encl.point_mem (a : Frac) : (Encl.point a).Mem a.val := ⟨le_refl _, le_refl _⟩

theorem Encl.add_mem {a b : Encl} {x y : ℝ} (ha : a.Mem x) (hb : b.Mem y) : (a.add b).Mem (x + y) := by
  simp only [Encl.Mem, Encl.add, Frac.add_val] at *
  exact ⟨add_le_add ha.1 hb.1, add_le_add ha.2 hb.2⟩

theorem Encl.neg_mem {a : Encl} {x : ℝ} (ha : a.Mem x) : a.neg.Mem (-x) := by
  simp only [Encl.Mem, Encl.neg, Frac.neg_val] at *
  exact ⟨neg_le_neg ha.2, neg_le_neg ha.1⟩

/-- A product of two numbers of two intervals lies between the products of their ends. -/
theorem mul_between {l h m k x y : ℝ} (hx : l ≤ x ∧ x ≤ h) (hy : m ≤ y ∧ y ≤ k) :
    Min.min (Min.min (l * m) (l * k)) (Min.min (h * m) (h * k)) ≤ x * y ∧
    x * y ≤ Max.max (Max.max (l * m) (l * k)) (Max.max (h * m) (h * k)) := by
  have key : ∀ z : ℝ, m ≤ z → z ≤ k → Min.min (l * z) (h * z) ≤ x * z ∧ x * z ≤ Max.max (l * z) (h * z) := by
    intro z _ _
    rcases le_total 0 z with hz | hz
    · exact ⟨min_le_of_left_le (mul_le_mul_of_nonneg_right hx.1 hz), le_max_of_le_right (mul_le_mul_of_nonneg_right hx.2 hz)⟩
    · exact ⟨min_le_of_right_le (mul_le_mul_of_nonpos_right hx.2 hz), le_max_of_le_left (mul_le_mul_of_nonpos_right hx.1 hz)⟩
  have end_ : ∀ u : ℝ, Min.min (u * m) (u * k) ≤ u * y ∧ u * y ≤ Max.max (u * m) (u * k) := by
    intro u
    rcases le_total 0 u with hu | hu
    · exact ⟨min_le_of_left_le (mul_le_mul_of_nonneg_left hy.1 hu), le_max_of_le_right (mul_le_mul_of_nonneg_left hy.2 hu)⟩
    · exact ⟨min_le_of_right_le (mul_le_mul_of_nonpos_left hy.2 hu), le_max_of_le_left (mul_le_mul_of_nonpos_left hy.1 hu)⟩
  obtain ⟨h1, h2⟩ := key y hy.1 hy.2
  obtain ⟨l1, l2⟩ := end_ l
  obtain ⟨r1, r2⟩ := end_ h
  exact ⟨le_trans (min_le_min l1 r1) h1, le_trans h2 (max_le_max l2 r2)⟩

theorem Encl.mul_mem {a b : Encl} {x y : ℝ} (ha : a.Mem x) (hb : b.Mem y) : (a.mul b).Mem (x * y) := by
  simp only [Encl.Mem, Encl.mul, Frac.min_val, Frac.max_val, Frac.mul_val]
  exact mul_between ha hb

theorem Encl.inv_mem {a e : Encl} {x : ℝ} (ha : a.Mem x) (h : a.inv? = some e) : e.Mem x⁻¹ := by
  unfold Encl.inv? at h
  split at h
  · rename_i hc
    cases h
    rw [Bool.or_eq_true, Frac.lt_iff, Frac.lt_iff, Frac.ofInt_val] at hc
    simp only [Int.cast_zero] at hc
    obtain ⟨h1, h2⟩ := ha
    rcases hc with hp | hn
    · have hlo := (Frac.val_pos_iff _).1 hp
      have hhi := (Frac.val_pos_iff _).1 (lt_of_lt_of_le hp (h1.trans h2))
      simp only [Encl.Mem]
      rw [Frac.inv_val _ hlo.ne', Frac.inv_val _ hhi.ne']
      exact ⟨inv_anti₀ (lt_of_lt_of_le hp h1) h2, inv_anti₀ hp h1⟩
    · have hhi := (Frac.val_neg_iff _).1 hn
      have hlo := (Frac.val_neg_iff _).1 (lt_of_le_of_lt (h1.trans h2) hn)
      simp only [Encl.Mem]
      rw [Frac.inv_val _ hlo.ne, Frac.inv_val _ hhi.ne]
      exact ⟨(inv_le_inv_of_neg hn (lt_of_le_of_lt h2 hn)).2 h2,
        (inv_le_inv_of_neg (lt_of_le_of_lt h2 hn) (lt_of_le_of_lt (h1.trans h2) hn)).2 h1⟩
  · cases h

/-- An interval that has a reciprocal does not hold zero. -/
theorem Encl.ne_zero_of_inv {a e : Encl} {x : ℝ} (ha : a.Mem x) (h : a.inv? = some e) : x ≠ 0 := by
  unfold Encl.inv? at h
  split at h
  · rename_i hc
    rw [Bool.or_eq_true, Frac.lt_iff, Frac.lt_iff, Frac.ofInt_val, Int.cast_zero] at hc
    rcases hc with hp | hn
    · exact (lt_of_lt_of_le hp ha.1).ne'
    · exact (lt_of_le_of_lt ha.2 hn).ne
  · cases h

theorem Encl.hull_mem_left {a b : Encl} {x : ℝ} (ha : a.Mem x) : (a.hull b).Mem x := by
  simp only [Encl.Mem, Encl.hull, Frac.min_val, Frac.max_val] at *
  exact ⟨min_le_of_left_le ha.1, le_max_of_le_left ha.2⟩

theorem Encl.hull_mem_right {a b : Encl} {x : ℝ} (hb : b.Mem x) : (a.hull b).Mem x := by
  simp only [Encl.Mem, Encl.hull, Frac.min_val, Frac.max_val] at *
  exact ⟨min_le_of_right_le hb.1, le_max_of_le_right hb.2⟩

theorem Encl.isInt_mem {a : Encl} {n : Int} {x : ℝ} (h : a.isInt n = true) (ha : a.Mem x) : x = n := by
  simp only [Encl.isInt, Bool.and_eq_true, Frac.le_iff, Frac.ofInt_val] at h
  obtain ⟨⟨⟨h1, h2⟩, h3⟩, h4⟩ := h
  exact le_antisymm (ha.2.trans h3) (h2.trans ha.1)

theorem Encl.sqrt3Div2_mem : Encl.sqrt3Div2.Mem (Real.sqrt 3 / 2) := by
  have h1 : (17320508 / 10000000 : ℝ) ≤ Real.sqrt 3 := Real.le_sqrt_of_sq_le (by norm_num)
  have h2 : Real.sqrt 3 ≤ (17320509 / 10000000 : ℝ) := Real.sqrt_le_iff.2 ⟨by norm_num, by norm_num⟩
  simp only [Encl.Mem, Encl.sqrt3Div2, Frac.val, Frac.den]
  push_cast
  constructor <;> linarith

theorem Encl.twoPi_mem : Encl.twoPi.Mem (2 * Real.pi) := by
  have h1 := Real.pi_gt_d20
  have h2 := Real.pi_lt_d20
  simp only [Encl.Mem, Encl.twoPi, Frac.val, Frac.den]
  push_cast
  constructor <;> linarith

theorem Encl.twoPiDiv3_mem : Encl.twoPiDiv3.Mem (2 * Real.pi / 3) := by
  have h1 := Real.pi_gt_d20
  have h2 := Real.pi_lt_d20
  simp only [Encl.Mem, Encl.twoPiDiv3, Frac.val, Frac.den]
  push_cast
  constructor <;> linarith

/-- The enclosure, if there is one, holds the real number. -/
def Encloses (o : Option Encl) (x : ℝ) : Prop := ∀ e, o = some e → e.Mem x

theorem enclAdd_encloses {o p : Option Encl} {x y : ℝ} (ho : Encloses o x) (hp : Encloses p y) :
    Encloses (enclAdd o p) (x + y) := by
  intro e h
  cases o <;> cases p <;> simp only [enclAdd, reduceCtorEq, Option.some.injEq] at h
  exact h ▸ Encl.add_mem (ho _ rfl) (hp _ rfl)

theorem enclMul_encloses {o p : Option Encl} {x y : ℝ} (ho : Encloses o x) (hp : Encloses p y) :
    Encloses (enclMul o p) (x * y) := by
  intro e h
  cases o <;> cases p <;> simp only [enclMul, reduceCtorEq, Option.some.injEq] at h
  exact h ▸ Encl.mul_mem (ho _ rfl) (hp _ rfl)

theorem enclChoice_encloses {oa ob ox oy : Option Encl} {a b x y : ℝ} (ha : Encloses oa a) (hb : Encloses ob b)
    (hx : Encloses ox x) (hy : Encloses oy y) :
    Encloses (enclChoice oa ob ox oy) (if a > b then x else y) := by
  have hull : ∀ e, (match ox, oy with | some ex, some ey => some (ex.hull ey) | _, _ => none) = some e →
      e.Mem (if a > b then x else y) := by
    intro e h
    cases ox <;> cases oy <;> simp only [reduceCtorEq, Option.some.injEq] at h
    subst h
    split
    · exact Encl.hull_mem_left (hx _ rfl)
    · exact Encl.hull_mem_right (hy _ rfl)
  intro e h
  unfold enclChoice at h
  cases oa with
  | none => cases h
  | some ea =>
    cases ob with
    | none => cases h
    | some eb =>
      have hA := ha ea rfl
      have hB := hb eb rfl
      simp only at h
      split at h
      · rename_i hc
        have : a > b := lt_of_le_of_lt hB.2 (lt_of_lt_of_le ((Frac.lt_iff _ _).1 hc) hA.1)
        rw [if_pos this]; exact hx e h
      · split at h
        · rename_i hc
          have : ¬ a > b := not_lt.2 (hA.2.trans (((Frac.le_iff _ _).1 hc).trans hB.1))
          rw [if_neg this]; exact hy e h
        · exact hull e h

theorem enclAdd_parts {o p : Option Encl} {e : Encl} (h : enclAdd o p = some e) :
    ∃ a b, o = some a ∧ p = some b := by
  cases o <;> cases p <;> simp [enclAdd] at h ⊢

theorem enclMul_parts {o p : Option Encl} {e : Encl} (h : enclMul o p = some e) :
    ∃ a b, o = some a ∧ p = some b := by
  cases o <;> cases p <;> simp [enclMul] at h ⊢

theorem enclDiv_parts {o p : Option Encl} {e : Encl} (h : enclMul o (p.bind Encl.inv?) = some e) :
    ∃ a b i, o = some a ∧ p = some b ∧ b.inv? = some i := by
  obtain ⟨a, i, ha, hi⟩ := enclMul_parts h
  obtain ⟨b, hb, hi⟩ := Option.bind_eq_some_iff.1 hi
  exact ⟨a, b, i, ha, hb, hi⟩

theorem enclWave_part {n : Int} {o : Option Encl} {e : Encl} (h : enclWave n o = some e) : ∃ a, o = some a := by
  cases o with
  | none => cases h
  | some a => exact ⟨a, rfl⟩

/-- An enclosed choice has enclosed operands, and the alternative it takes is enclosed. -/
theorem enclChoice_parts {oa ob ox oy : Option Encl} {a b : ℝ} {e : Encl} (ha : Encloses oa a) (hb : Encloses ob b)
    (h : enclChoice oa ob ox oy = some e) :
    (∃ ea, oa = some ea) ∧ (∃ eb, ob = some eb) ∧ (a > b → ∃ ex, ox = some ex) ∧ (¬ a > b → ∃ ey, oy = some ey) := by
  unfold enclChoice at h
  cases oa with
  | none => cases h
  | some ea =>
    cases ob with
    | none => cases h
    | some eb =>
      have hA := ha ea rfl
      have hB := hb eb rfl
      refine ⟨⟨ea, rfl⟩, ⟨eb, rfl⟩, ?_⟩
      simp only at h
      split at h
      · rename_i hc
        have : a > b := lt_of_le_of_lt hB.2 (lt_of_lt_of_le ((Frac.lt_iff _ _).1 hc) hA.1)
        exact ⟨fun _ => ⟨e, h⟩, fun hn => absurd this hn⟩
      · split at h
        · rename_i hc
          have : ¬ a > b := not_lt.2 (hA.2.trans (((Frac.le_iff _ _).1 hc).trans hB.1))
          exact ⟨fun hp => absurd hp this, fun _ => ⟨e, h⟩⟩
        · cases ox <;> cases oy <;> simp only [reduceCtorEq] at h
          exact ⟨fun _ => ⟨_, rfl⟩, fun _ => ⟨_, rfl⟩⟩

theorem enclWave_encloses {o : Option Encl} {x : ℝ} (f : ℝ → ℝ) (n : Int) (h0 : f 0 = n) (h1 : ∀ y, -1 ≤ f y ∧ f y ≤ 1)
    (ho : Encloses o x) : Encloses (enclWave n o) (f x) := by
  intro e h
  cases o with
  | none => cases h
  | some a =>
    simp only [enclWave] at h
    split at h
    · rename_i hc
      rw [Encl.isInt_mem hc (ho a rfl), Int.cast_zero, h0]
      cases h
      simpa only [Frac.ofInt_val] using Encl.point_mem (Frac.ofInt n)
    · cases h
      simp only [Encl.Mem, Encl.unit, Frac.ofInt_val]
      exact ⟨by simpa using (h1 x).1, by simpa using (h1 x).2⟩

/-- The value of a quotient whose divisor is not zero (R6). -/
theorem div_val {a b : Scalar} (h : b.val ≠ 0) : Scalar.val (.div a b) = a.val / b.val := if_neg h

/-- A scalar's real value lies in its enclosure. -/
theorem encl_sound (a : Scalar) : Encloses (encl a) a.val := by
  induction a with
  | lit q =>
    intro e h; cases h
    simpa only [Scalar.val, Frac.ofRat_val] using Encl.point_mem (Frac.ofRat q)
  | sqrt3Div2 => intro e h; cases h; exact Encl.sqrt3Div2_mem
  | twoPi => intro e h; cases h; exact Encl.twoPi_mem
  | twoPiDiv3 => intro e h; cases h; exact Encl.twoPiDiv3_mem
  | free n => intro e h; cases h
  | add a b iha ihb => exact enclAdd_encloses iha ihb
  | sub a b iha ihb =>
    have hn : Encloses ((encl b).map Encl.neg) (-b.val) := by
      intro e h
      obtain ⟨eb, h1, rfl⟩ := Option.map_eq_some_iff.1 h
      exact Encl.neg_mem (ihb eb h1)
    have := enclAdd_encloses iha hn
    rwa [← sub_eq_add_neg] at this
  | mul a b iha ihb => exact enclMul_encloses iha ihb
  | div a b iha ihb =>
    intro e h
    obtain ⟨ea, eb, i, ha, hb, hi⟩ := enclDiv_parts h
    rw [div_val (Encl.ne_zero_of_inv (ihb eb hb) hi), div_eq_mul_inv]
    refine enclMul_encloses iha ?_ e h
    intro e' h'
    obtain ⟨eb', h1, h2⟩ := Option.bind_eq_some_iff.1 h'
    exact Encl.inv_mem (ihb eb' h1) h2
  | cos a iha => exact enclWave_encloses Real.cos 1 (by simp) (fun y => ⟨Real.neg_one_le_cos y, Real.cos_le_one y⟩) iha
  | sin a iha => exact enclWave_encloses Real.sin 0 (by simp) (fun y => ⟨Real.neg_one_le_sin y, Real.sin_le_one y⟩) iha
  | ifGt a b x y iha ihb ihx ihy => exact enclChoice_encloses iha ihb ihx ihy
  | ifLt a b x y iha ihb ihx ihy => exact enclChoice_encloses ihb iha ihx ihy

/-! The value of each node in a record `N` (R6, R8). -/

section EvalIn
variable (N : Num) (ext : Nat → N.S) (a b x y : Scalar)

theorem evalIn_add : (Scalar.add a b).evalIn N ext =
    (a.evalIn N ext).bind fun u => (b.evalIn N ext).bind fun v => some (N.add u v) := rfl
theorem evalIn_sub : (Scalar.sub a b).evalIn N ext =
    (a.evalIn N ext).bind fun u => (b.evalIn N ext).bind fun v => some (N.sub u v) := rfl
theorem evalIn_mul : (Scalar.mul a b).evalIn N ext =
    (a.evalIn N ext).bind fun u => (b.evalIn N ext).bind fun v => some (N.mul u v) := rfl
theorem evalIn_div : (Scalar.div a b).evalIn N ext =
    (a.evalIn N ext).bind fun u => (b.evalIn N ext).bind fun v => N.div u v := rfl
theorem evalIn_cos : (Scalar.cos a).evalIn N ext = (a.evalIn N ext).bind fun u => some (N.cos u) := rfl
theorem evalIn_sin : (Scalar.sin a).evalIn N ext = (a.evalIn N ext).bind fun u => some (N.sin u) := rfl
theorem evalIn_ifGt : (Scalar.ifGt a b x y).evalIn N ext =
    (a.evalIn N ext).bind fun u => (b.evalIn N ext).bind fun v =>
      if N.gt u v then x.evalIn N ext else y.evalIn N ext := rfl
theorem evalIn_ifLt : (Scalar.ifLt a b x y).evalIn N ext =
    (a.evalIn N ext).bind fun u => (b.evalIn N ext).bind fun v =>
      if N.lt u v then x.evalIn N ext else y.evalIn N ext := rfl

end EvalIn

/-- A scalar that has an enclosure has a value in the reference instance, which is its real value. -/
theorem encl_value (a : Scalar) {e : Encl} (h : encl a = some e) :
    a.evalIn Num.real Config.freeReal = some a.val := by
  induction a generalizing e with
  | lit q => rfl
  | sqrt3Div2 => rfl
  | twoPi => rfl
  | twoPiDiv3 => rfl
  | free n => cases h
  | add a b iha ihb =>
    obtain ⟨ea, eb, ha, hb⟩ := enclAdd_parts h
    rw [evalIn_add, iha ha, ihb hb]; rfl
  | sub a b iha ihb =>
    obtain ⟨ea, eb, ha, hb⟩ := enclAdd_parts h
    obtain ⟨eb', hb', -⟩ := Option.map_eq_some_iff.1 hb
    rw [evalIn_sub, iha ha, ihb hb']; rfl
  | mul a b iha ihb =>
    obtain ⟨ea, eb, ha, hb⟩ := enclMul_parts h
    rw [evalIn_mul, iha ha, ihb hb]; rfl
  | div a b iha ihb =>
    obtain ⟨ea, eb, i, ha, hb, hi⟩ := enclDiv_parts h
    have hz := Encl.ne_zero_of_inv (encl_sound b eb hb) hi
    rw [evalIn_div, iha ha, ihb hb, div_val hz]
    exact if_neg hz
  | cos a iha =>
    obtain ⟨ea, ha⟩ := enclWave_part h
    rw [evalIn_cos, iha ha]; rfl
  | sin a iha =>
    obtain ⟨ea, ha⟩ := enclWave_part h
    rw [evalIn_sin, iha ha]; rfl
  | ifGt a b x y iha ihb ihx ihy =>
    obtain ⟨⟨ea, ha⟩, ⟨eb, hb⟩, hp, hn⟩ := enclChoice_parts (encl_sound a) (encl_sound b) h
    rw [evalIn_ifGt, iha ha, ihb hb]
    by_cases hc : a.val > b.val
    · obtain ⟨ex, hx⟩ := hp hc
      exact (if_pos (decide_eq_true hc)).trans ((ihx hx).trans (congrArg some (if_pos hc).symm))
    · obtain ⟨ey, hy⟩ := hn hc
      exact (if_neg (by simpa [Num.real] using hc)).trans ((ihy hy).trans (congrArg some (if_neg hc).symm))
  | ifLt a b x y iha ihb ihx ihy =>
    obtain ⟨⟨eb, hb⟩, ⟨ea, ha⟩, hp, hn⟩ := enclChoice_parts (encl_sound b) (encl_sound a) h
    rw [evalIn_ifLt, iha ha, ihb hb]
    by_cases hc : b.val > a.val
    · obtain ⟨ex, hx⟩ := hp hc
      exact (if_pos (decide_eq_true hc)).trans ((ihx hx).trans (congrArg some (if_pos hc).symm))
    · obtain ⟨ey, hy⟩ := hn hc
      exact (if_neg (by simpa [Num.real] using hc)).trans ((ihy hy).trans (congrArg some (if_neg hc).symm))

/-- A scalar that is known to have no value has none. -/
theorem knownNoValue_sound (a : Scalar) (h : knownNoValue a = true) : a.evalIn Num.real Config.freeReal = none := by
  induction a with
  | lit q => cases h
  | sqrt3Div2 => cases h
  | twoPi => cases h
  | twoPiDiv3 => cases h
  | free n => cases h
  | add a b iha ihb =>
    rcases Bool.or_eq_true_iff.1 h with h | h
    · rw [evalIn_add, iha h]; rfl
    · rw [evalIn_add, ihb h]; cases a.evalIn Num.real Config.freeReal <;> rfl
  | sub a b iha ihb =>
    rcases Bool.or_eq_true_iff.1 h with h | h
    · rw [evalIn_sub, iha h]; rfl
    · rw [evalIn_sub, ihb h]; cases a.evalIn Num.real Config.freeReal <;> rfl
  | mul a b iha ihb =>
    rcases Bool.or_eq_true_iff.1 h with h | h
    · rw [evalIn_mul, iha h]; rfl
    · rw [evalIn_mul, ihb h]; cases a.evalIn Num.real Config.freeReal <;> rfl
  | div a b iha ihb =>
    rcases Bool.or_eq_true_iff.1 h with h | h
    · rcases Bool.or_eq_true_iff.1 h with h | h
      · rw [evalIn_div, iha h]; rfl
      · rw [evalIn_div, ihb h]; cases a.evalIn Num.real Config.freeReal <;> rfl
    · obtain ⟨eb, hb, hi⟩ := (Option.any_eq_true _ _).1 h
      have hz : b.val = 0 := by simpa using Encl.isInt_mem hi (encl_sound b eb hb)
      rw [evalIn_div, encl_value b hb, hz]
      cases a.evalIn Num.real Config.freeReal with
      | none => rfl
      | some x => exact if_pos rfl
  | cos a iha => rw [evalIn_cos, iha h]; rfl
  | sin a iha => rw [evalIn_sin, iha h]; rfl
  | ifGt a b x y iha ihb =>
    rcases Bool.or_eq_true_iff.1 h with h | h
    · rw [evalIn_ifGt, iha h]; rfl
    · rw [evalIn_ifGt, ihb h]; cases a.evalIn Num.real Config.freeReal <;> rfl
  | ifLt a b x y iha ihb =>
    rcases Bool.or_eq_true_iff.1 h with h | h
    · rw [evalIn_ifLt, iha h]; rfl
    · rw [evalIn_ifLt, ihb h]; cases a.evalIn Num.real Config.freeReal <;> rfl

/-- The truth value of a proposition is its truth. -/
theorem truth_iff (p : Prop) : truth p = true ↔ p := @decide_eq_true_iff p (settled p ⟨Classical.propDecidable p⟩ ())

/-- A settled `a > b` holds of the real numbers. -/
theorem knownGt_sound {a b : Scalar} (h : knownGt a b = true) :
    ∃ x y : ℝ, a.evalIn Num.real Config.freeReal = some x ∧ b.evalIn Num.real Config.freeReal = some y ∧ x > y := by
  unfold knownGt at h
  split at h
  · rename_i ea eb ha hb
    exact ⟨a.val, b.val, encl_value a ha, encl_value b hb,
      lt_of_le_of_lt (encl_sound b eb hb).2 (lt_of_lt_of_le ((Frac.lt_iff _ _).1 h) (encl_sound a ea ha).1)⟩
  · cases h

/-- A settled `not (a > b)` holds of the real numbers. -/
theorem knownNotGt_sound {a b : Scalar} (h : knownNotGt a b = true) :
    ¬ ∃ x y : ℝ, a.evalIn Num.real Config.freeReal = some x ∧ b.evalIn Num.real Config.freeReal = some y ∧ x > y := by
  rintro ⟨x, y, hx, hy, hxy⟩
  unfold knownNotGt at h
  rcases Bool.or_eq_true_iff.1 h with h | h
  · rw [of_decide_eq_true h] at hx
    obtain rfl : y = x := Option.some.inj (hy.symm.trans hx)
    exact lt_irrefl _ hxy
  · split at h
    · rename_i ea eb ha hb
      obtain rfl : a.val = x := Option.some.inj ((encl_value a ha).symm.trans hx)
      obtain rfl : b.val = y := Option.some.inj ((encl_value b hb).symm.trans hy)
      exact not_lt.2 ((encl_sound a ea ha).2.trans (((Frac.le_iff _ _).1 h).trans (encl_sound b eb hb).1)) hxy
    · cases h

/-- The comparison on which control depends is that of the build's `NUM`: true exactly where both scalars have values
there and the first is the greater (R6, R206). -/
theorem numGt_iff (c : Numerics) (a b : Scalar) : numGt c a b = true ↔ NumGreater c a b := by
  cases c with
  | real =>
    suffices realGt a b = true ↔ ∃ x y : ℝ, a.evalIn Num.real Config.freeReal = some x ∧
        b.evalIn Num.real Config.freeReal = some y ∧ x > y from
      this.trans ⟨fun ⟨x, y, hx, hy, h⟩ => ⟨x, y, hx, hy, decide_eq_true h⟩,
        fun ⟨x, y, hx, hy, h⟩ => ⟨x, y, hx, hy, of_decide_eq_true (p := (x : ℝ) > y) h⟩⟩
    unfold realGt
    split
    · rename_i h; simpa using knownGt_sound h
    · split
      · rename_i h; simpa using knownNotGt_sound h
      · exact truth_iff _
  | format k =>
    show formatGt k a b = true ↔ ∃ x y : BitVec (Config.format k).width, a.evalIn (Config.format k).num (Config.formatInput k) = some x ∧
      b.evalIn (Config.format k).num (Config.formatInput k) = some y ∧ (Config.format k).gt x y = true
    unfold formatGt
    split
    · rename_i x y hx hy
      rw [hx, hy]
      exact ⟨fun h => ⟨x, y, rfl, rfl, h⟩, fun ⟨x', y', h1, h2, h⟩ => by cases h1; cases h2; exact h⟩
    · rename_i h
      exact ⟨(nomatch ·), fun ⟨x, y, h1, h2, _⟩ => absurd h2 (h x y h1)⟩

/-- The model divides exactly where the build's `NUM` gives the quotient a value (R6, R172). -/
theorem hasValue_iff (c : Numerics) (a : Scalar) : hasValue c a = true ↔ ∃ x, a.valueIn c = some x := by
  cases c with
  | real =>
    show realHasValue a = true ↔ ∃ x : ℝ, a.evalIn Num.real Config.freeReal = some x
    unfold realHasValue
    split
    · rename_i h
      obtain ⟨e, he⟩ := Option.isSome_iff_exists.1 h
      simpa using ⟨_, encl_value a he⟩
    · split
      · rename_i h; simp [knownNoValue_sound a h]
      · exact truth_iff _
  | format k => exact Option.isSome_iff_exists

@[simp] theorem zero_val : Scalar.val zero = 0 := by simp [Scalar.val]
@[simp] theorem one_val : Scalar.val one = 1 := by simp [one, Scalar.val]
@[simp] theorem half_val : Scalar.val half = 1 / 2 := by
  simp only [half, Scalar.val, Rat.cast_def]; norm_num
@[simp] theorem three_val : Scalar.val three = 3 := by simp [three, Scalar.val]
@[simp] theorem twoThirds_val : Scalar.val twoThirds = 2 / 3 := by
  simp only [twoThirds, Scalar.val, Rat.cast_def]; norm_num

/-! Values in the reference instance. -/

section Real
variable {a b : Scalar} {u v : ℝ}

theorem valueIn_real_add (ha : a.valueIn .real = some u) (hb : b.valueIn .real = some v) :
    (Scalar.add a b).valueIn .real = some (u + v) := by
  unfold Scalar.valueIn at *
  rw [evalIn_add, ha, hb]; rfl

theorem valueIn_real_mul (ha : a.valueIn .real = some u) (hb : b.valueIn .real = some v) :
    (Scalar.mul a b).valueIn .real = some (u * v) := by
  unfold Scalar.valueIn at *
  rw [evalIn_mul, ha, hb]; rfl

theorem valueIn_real_div (ha : a.valueIn .real = some u) (hb : b.valueIn .real = some v) (h : v ≠ 0) :
    (Scalar.div a b).valueIn .real = some (u / v) := by
  unfold Scalar.valueIn at *
  rw [evalIn_div, ha, hb]; exact if_neg h

end Real

/-- A literal has its own value (R6). -/
theorem lit_hasReal (q : Rat) : (Scalar.lit q).HasReal := ⟨(q : ℝ), rfl⟩

/-- The constants of a format are the nearest values to the exact ones (R7). -/
theorem format_constants_nearest (F : Format) :
    (∀ q ∈ [(0 : Rat), 1, 1 / 2, 3, 2 / 3], Nearest F.value (F.num.ofRat q) q) ∧ Nearest F.value F.sqrt3Div2 (Real.sqrt 3 / 2) ∧
    Nearest F.value F.twoPi (2 * Real.pi) ∧ Nearest F.value F.twoPiDiv3 (2 * Real.pi / 3) :=
  ⟨F.ofRat_nearest, F.sqrt3Div2_nearest, F.twoPi_nearest, F.twoPiDiv3_nearest⟩

/-- The trapezoid (R11). -/
theorem trap_val (cur prev h : Scalar) : (trap cur prev h).val = 1 / 2 * h.val * (cur.val + prev.val) := by
  simp [trap, Scalar.val]

/-- The clamp of bounds that are not reversed (R10). -/
theorem clamp_val {x lo hi : Scalar} (h : lo.val ≤ hi.val) :
    (clamp x lo hi).val = if x.val > hi.val then hi.val else if x.val < lo.val then lo.val else x.val := by
  simp only [clamp, Scalar.val]
  rw [if_neg (not_lt.2 h)]

/-- The clamp of bounds that are not reversed lies between them (R10). -/
theorem clamp_between {x lo hi : Scalar} (h : lo.val ≤ hi.val) :
    lo.val ≤ (clamp x lo hi).val ∧ (clamp x lo hi).val ≤ hi.val := by
  rw [clamp_val h]
  split
  · exact ⟨h, le_refl _⟩
  · split
    · exact ⟨le_refl _, h⟩
    · constructor <;> linarith

end Sys2Proof.Machine
end

