-- ==== Sys2Proof/Laws/State.lean ====
section
/-! SUPPORT. One lemma per field per update of the state, each true by rfl, so that no proof unfolds an update. -/

namespace Sys2Proof.Machine

@[simp] theorem State.setArg_build (s : State) (a : ArgRegs) : (s.setArg a).build = s.build := rfl
@[simp] theorem State.setArg_run (s : State) (a : ArgRegs) : (s.setArg a).run = s.run := rfl
@[simp] theorem State.setArg_dt (s : State) (a : ArgRegs) : (s.setArg a).dt = s.dt := rfl
@[simp] theorem State.setArg_bstate (s : State) (a : ArgRegs) : (s.setArg a).bstate = s.bstate := rfl
@[simp] theorem State.setArg_trigPrev (s : State) (a : ArgRegs) : (s.setArg a).trigPrev = s.trigPrev := rfl
@[simp] theorem State.setArg_bidx (s : State) (a : ArgRegs) : (s.setArg a).bidx = s.bidx := rfl
@[simp] theorem State.setArg_sa (s : State) (a : ArgRegs) : (s.setArg a).sa = s.sa := rfl
@[simp] theorem State.setArg_sb (s : State) (a : ArgRegs) : (s.setArg a).sb = s.sb := rfl
@[simp] theorem State.setArg_sc (s : State) (a : ArgRegs) : (s.setArg a).sc = s.sc := rfl
@[simp] theorem State.setArg_act (s : State) (a : ArgRegs) : (s.setArg a).act = s.act := rfl
@[simp] theorem State.setArg_hold (s : State) (a : ArgRegs) : (s.setArg a).hold = s.hold := rfl
@[simp] theorem State.setArg_lpf (s : State) (a : ArgRegs) : (s.setArg a).lpf = s.lpf := rfl
@[simp] theorem State.setArg_intg (s : State) (a : ArgRegs) : (s.setArg a).intg = s.intg := rfl
@[simp] theorem State.setArg_pi (s : State) (a : ArgRegs) : (s.setArg a).pi = s.pi := rfl
@[simp] theorem State.setArg_pll (s : State) (a : ArgRegs) : (s.setArg a).pll = s.pll := rfl
@[simp] theorem State.setArg_buf (s : State) (a : ArgRegs) : (s.setArg a).buf = s.buf := rfl
@[simp] theorem State.setArg_arg (s : State) (a : ArgRegs) : (s.setArg a).arg = a := rfl
@[simp] theorem State.setArg_res (s : State) (a : ArgRegs) : (s.setArg a).res = s.res := rfl
@[simp] theorem State.setArg_net (s : State) (a : ArgRegs) : (s.setArg a).net = s.net := rfl
@[simp] theorem State.setArg_stepIdx (s : State) (a : ArgRegs) : (s.setArg a).stepIdx = s.stepIdx := rfl
@[simp] theorem State.setArg_busy (s : State) (a : ArgRegs) : (s.setArg a).busy = s.busy := rfl
@[simp] theorem State.setArg_edge (s : State) (a : ArgRegs) : (s.setArg a).edge = s.edge := rfl
@[simp] theorem State.setArg_rearm (s : State) (a : ArgRegs) : (s.setArg a).rearm = s.rearm := rfl
@[simp] theorem State.setArg_pins (s : State) (a : ArgRegs) : (s.setArg a).pins = s.pins := rfl
@[simp] theorem State.setArg_done (s : State) (a : ArgRegs) : (s.setArg a).done = s.done := rfl
@[simp] theorem State.setArg_hrdata (s : State) (a : ArgRegs) : (s.setArg a).hrdata = s.hrdata := rfl
@[simp] theorem State.setArg_inputs (s : State) (a : ArgRegs) : (s.setArg a).inputs = s.inputs := rfl

@[simp] theorem State.setRes_build (s : State) (r : ResRegs) : (s.setRes r).build = s.build := rfl
@[simp] theorem State.setRes_run (s : State) (r : ResRegs) : (s.setRes r).run = s.run := rfl
@[simp] theorem State.setRes_dt (s : State) (r : ResRegs) : (s.setRes r).dt = s.dt := rfl
@[simp] theorem State.setRes_bstate (s : State) (r : ResRegs) : (s.setRes r).bstate = s.bstate := rfl
@[simp] theorem State.setRes_trigPrev (s : State) (r : ResRegs) : (s.setRes r).trigPrev = s.trigPrev := rfl
@[simp] theorem State.setRes_bidx (s : State) (r : ResRegs) : (s.setRes r).bidx = s.bidx := rfl
@[simp] theorem State.setRes_sa (s : State) (r : ResRegs) : (s.setRes r).sa = s.sa := rfl
@[simp] theorem State.setRes_sb (s : State) (r : ResRegs) : (s.setRes r).sb = s.sb := rfl
@[simp] theorem State.setRes_sc (s : State) (r : ResRegs) : (s.setRes r).sc = s.sc := rfl
@[simp] theorem State.setRes_act (s : State) (r : ResRegs) : (s.setRes r).act = s.act := rfl
@[simp] theorem State.setRes_hold (s : State) (r : ResRegs) : (s.setRes r).hold = s.hold := rfl
@[simp] theorem State.setRes_lpf (s : State) (r : ResRegs) : (s.setRes r).lpf = s.lpf := rfl
@[simp] theorem State.setRes_intg (s : State) (r : ResRegs) : (s.setRes r).intg = s.intg := rfl
@[simp] theorem State.setRes_pi (s : State) (r : ResRegs) : (s.setRes r).pi = s.pi := rfl
@[simp] theorem State.setRes_pll (s : State) (r : ResRegs) : (s.setRes r).pll = s.pll := rfl
@[simp] theorem State.setRes_buf (s : State) (r : ResRegs) : (s.setRes r).buf = s.buf := rfl
@[simp] theorem State.setRes_arg (s : State) (r : ResRegs) : (s.setRes r).arg = s.arg := rfl
@[simp] theorem State.setRes_res (s : State) (r : ResRegs) : (s.setRes r).res = r := rfl
@[simp] theorem State.setRes_net (s : State) (r : ResRegs) : (s.setRes r).net = s.net := rfl
@[simp] theorem State.setRes_stepIdx (s : State) (r : ResRegs) : (s.setRes r).stepIdx = s.stepIdx := rfl
@[simp] theorem State.setRes_busy (s : State) (r : ResRegs) : (s.setRes r).busy = s.busy := rfl
@[simp] theorem State.setRes_edge (s : State) (r : ResRegs) : (s.setRes r).edge = s.edge := rfl
@[simp] theorem State.setRes_rearm (s : State) (r : ResRegs) : (s.setRes r).rearm = s.rearm := rfl
@[simp] theorem State.setRes_pins (s : State) (r : ResRegs) : (s.setRes r).pins = s.pins := rfl
@[simp] theorem State.setRes_done (s : State) (r : ResRegs) : (s.setRes r).done = s.done := rfl
@[simp] theorem State.setRes_hrdata (s : State) (r : ResRegs) : (s.setRes r).hrdata = s.hrdata := rfl
@[simp] theorem State.setRes_inputs (s : State) (r : ResRegs) : (s.setRes r).inputs = s.inputs := rfl

@[simp] theorem State.setNet_build (s : State) (c : Cells) : (s.setNet c).build = s.build := rfl
@[simp] theorem State.setNet_run (s : State) (c : Cells) : (s.setNet c).run = s.run := rfl
@[simp] theorem State.setNet_dt (s : State) (c : Cells) : (s.setNet c).dt = s.dt := rfl
@[simp] theorem State.setNet_bstate (s : State) (c : Cells) : (s.setNet c).bstate = s.bstate := rfl
@[simp] theorem State.setNet_trigPrev (s : State) (c : Cells) : (s.setNet c).trigPrev = s.trigPrev := rfl
@[simp] theorem State.setNet_bidx (s : State) (c : Cells) : (s.setNet c).bidx = s.bidx := rfl
@[simp] theorem State.setNet_sa (s : State) (c : Cells) : (s.setNet c).sa = s.sa := rfl
@[simp] theorem State.setNet_sb (s : State) (c : Cells) : (s.setNet c).sb = s.sb := rfl
@[simp] theorem State.setNet_sc (s : State) (c : Cells) : (s.setNet c).sc = s.sc := rfl
@[simp] theorem State.setNet_act (s : State) (c : Cells) : (s.setNet c).act = s.act := rfl
@[simp] theorem State.setNet_hold (s : State) (c : Cells) : (s.setNet c).hold = s.hold := rfl
@[simp] theorem State.setNet_lpf (s : State) (c : Cells) : (s.setNet c).lpf = s.lpf := rfl
@[simp] theorem State.setNet_intg (s : State) (c : Cells) : (s.setNet c).intg = s.intg := rfl
@[simp] theorem State.setNet_pi (s : State) (c : Cells) : (s.setNet c).pi = s.pi := rfl
@[simp] theorem State.setNet_pll (s : State) (c : Cells) : (s.setNet c).pll = s.pll := rfl
@[simp] theorem State.setNet_buf (s : State) (c : Cells) : (s.setNet c).buf = s.buf := rfl
@[simp] theorem State.setNet_arg (s : State) (c : Cells) : (s.setNet c).arg = s.arg := rfl
@[simp] theorem State.setNet_res (s : State) (c : Cells) : (s.setNet c).res = s.res := rfl
@[simp] theorem State.setNet_net (s : State) (c : Cells) : (s.setNet c).net = c := rfl
@[simp] theorem State.setNet_stepIdx (s : State) (c : Cells) : (s.setNet c).stepIdx = s.stepIdx := rfl
@[simp] theorem State.setNet_busy (s : State) (c : Cells) : (s.setNet c).busy = s.busy := rfl
@[simp] theorem State.setNet_edge (s : State) (c : Cells) : (s.setNet c).edge = s.edge := rfl
@[simp] theorem State.setNet_rearm (s : State) (c : Cells) : (s.setNet c).rearm = s.rearm := rfl
@[simp] theorem State.setNet_pins (s : State) (c : Cells) : (s.setNet c).pins = s.pins := rfl
@[simp] theorem State.setNet_done (s : State) (c : Cells) : (s.setNet c).done = s.done := rfl
@[simp] theorem State.setNet_hrdata (s : State) (c : Cells) : (s.setNet c).hrdata = s.hrdata := rfl
@[simp] theorem State.setNet_inputs (s : State) (c : Cells) : (s.setNet c).inputs = s.inputs := rfl

@[simp] theorem State.setStep_build (s : State) (n : Nat) : (s.setStep n).build = s.build := rfl
@[simp] theorem State.setStep_run (s : State) (n : Nat) : (s.setStep n).run = s.run := rfl
@[simp] theorem State.setStep_dt (s : State) (n : Nat) : (s.setStep n).dt = s.dt := rfl
@[simp] theorem State.setStep_bstate (s : State) (n : Nat) : (s.setStep n).bstate = s.bstate := rfl
@[simp] theorem State.setStep_trigPrev (s : State) (n : Nat) : (s.setStep n).trigPrev = s.trigPrev := rfl
@[simp] theorem State.setStep_bidx (s : State) (n : Nat) : (s.setStep n).bidx = s.bidx := rfl
@[simp] theorem State.setStep_sa (s : State) (n : Nat) : (s.setStep n).sa = s.sa := rfl
@[simp] theorem State.setStep_sb (s : State) (n : Nat) : (s.setStep n).sb = s.sb := rfl
@[simp] theorem State.setStep_sc (s : State) (n : Nat) : (s.setStep n).sc = s.sc := rfl
@[simp] theorem State.setStep_act (s : State) (n : Nat) : (s.setStep n).act = s.act := rfl
@[simp] theorem State.setStep_hold (s : State) (n : Nat) : (s.setStep n).hold = s.hold := rfl
@[simp] theorem State.setStep_lpf (s : State) (n : Nat) : (s.setStep n).lpf = s.lpf := rfl
@[simp] theorem State.setStep_intg (s : State) (n : Nat) : (s.setStep n).intg = s.intg := rfl
@[simp] theorem State.setStep_pi (s : State) (n : Nat) : (s.setStep n).pi = s.pi := rfl
@[simp] theorem State.setStep_pll (s : State) (n : Nat) : (s.setStep n).pll = s.pll := rfl
@[simp] theorem State.setStep_buf (s : State) (n : Nat) : (s.setStep n).buf = s.buf := rfl
@[simp] theorem State.setStep_arg (s : State) (n : Nat) : (s.setStep n).arg = s.arg := rfl
@[simp] theorem State.setStep_res (s : State) (n : Nat) : (s.setStep n).res = s.res := rfl
@[simp] theorem State.setStep_net (s : State) (n : Nat) : (s.setStep n).net = s.net := rfl
@[simp] theorem State.setStep_stepIdx (s : State) (n : Nat) : (s.setStep n).stepIdx = n := rfl
@[simp] theorem State.setStep_busy (s : State) (n : Nat) : (s.setStep n).busy = s.busy := rfl
@[simp] theorem State.setStep_edge (s : State) (n : Nat) : (s.setStep n).edge = s.edge := rfl
@[simp] theorem State.setStep_rearm (s : State) (n : Nat) : (s.setStep n).rearm = s.rearm := rfl
@[simp] theorem State.setStep_pins (s : State) (n : Nat) : (s.setStep n).pins = s.pins := rfl
@[simp] theorem State.setStep_done (s : State) (n : Nat) : (s.setStep n).done = s.done := rfl
@[simp] theorem State.setStep_hrdata (s : State) (n : Nat) : (s.setStep n).hrdata = s.hrdata := rfl
@[simp] theorem State.setStep_inputs (s : State) (n : Nat) : (s.setStep n).inputs = s.inputs := rfl

@[simp] theorem State.setLpf_build (s : State) (i : Inst) (r : LpfRegs) : (s.setLpf i r).build = s.build := rfl
@[simp] theorem State.setLpf_run (s : State) (i : Inst) (r : LpfRegs) : (s.setLpf i r).run = s.run := rfl
@[simp] theorem State.setLpf_dt (s : State) (i : Inst) (r : LpfRegs) : (s.setLpf i r).dt = s.dt := rfl
@[simp] theorem State.setLpf_bstate (s : State) (i : Inst) (r : LpfRegs) : (s.setLpf i r).bstate = s.bstate := rfl
@[simp] theorem State.setLpf_trigPrev (s : State) (i : Inst) (r : LpfRegs) : (s.setLpf i r).trigPrev = s.trigPrev := rfl
@[simp] theorem State.setLpf_bidx (s : State) (i : Inst) (r : LpfRegs) : (s.setLpf i r).bidx = s.bidx := rfl
@[simp] theorem State.setLpf_sa (s : State) (i : Inst) (r : LpfRegs) : (s.setLpf i r).sa = s.sa := rfl
@[simp] theorem State.setLpf_sb (s : State) (i : Inst) (r : LpfRegs) : (s.setLpf i r).sb = s.sb := rfl
@[simp] theorem State.setLpf_sc (s : State) (i : Inst) (r : LpfRegs) : (s.setLpf i r).sc = s.sc := rfl
@[simp] theorem State.setLpf_act (s : State) (i : Inst) (r : LpfRegs) : (s.setLpf i r).act = s.act := rfl
@[simp] theorem State.setLpf_hold (s : State) (i : Inst) (r : LpfRegs) : (s.setLpf i r).hold = s.hold := rfl
@[simp] theorem State.setLpf_lpf (s : State) (i : Inst) (r : LpfRegs) : (s.setLpf i r).lpf = Bank.put s.lpf i r := rfl
@[simp] theorem State.setLpf_intg (s : State) (i : Inst) (r : LpfRegs) : (s.setLpf i r).intg = s.intg := rfl
@[simp] theorem State.setLpf_pi (s : State) (i : Inst) (r : LpfRegs) : (s.setLpf i r).pi = s.pi := rfl
@[simp] theorem State.setLpf_pll (s : State) (i : Inst) (r : LpfRegs) : (s.setLpf i r).pll = s.pll := rfl
@[simp] theorem State.setLpf_buf (s : State) (i : Inst) (r : LpfRegs) : (s.setLpf i r).buf = s.buf := rfl
@[simp] theorem State.setLpf_arg (s : State) (i : Inst) (r : LpfRegs) : (s.setLpf i r).arg = s.arg := rfl
@[simp] theorem State.setLpf_res (s : State) (i : Inst) (r : LpfRegs) : (s.setLpf i r).res = s.res := rfl
@[simp] theorem State.setLpf_net (s : State) (i : Inst) (r : LpfRegs) : (s.setLpf i r).net = s.net := rfl
@[simp] theorem State.setLpf_stepIdx (s : State) (i : Inst) (r : LpfRegs) : (s.setLpf i r).stepIdx = s.stepIdx := rfl
@[simp] theorem State.setLpf_busy (s : State) (i : Inst) (r : LpfRegs) : (s.setLpf i r).busy = s.busy := rfl
@[simp] theorem State.setLpf_edge (s : State) (i : Inst) (r : LpfRegs) : (s.setLpf i r).edge = s.edge := rfl
@[simp] theorem State.setLpf_rearm (s : State) (i : Inst) (r : LpfRegs) : (s.setLpf i r).rearm = s.rearm := rfl
@[simp] theorem State.setLpf_pins (s : State) (i : Inst) (r : LpfRegs) : (s.setLpf i r).pins = s.pins := rfl
@[simp] theorem State.setLpf_done (s : State) (i : Inst) (r : LpfRegs) : (s.setLpf i r).done = s.done := rfl
@[simp] theorem State.setLpf_hrdata (s : State) (i : Inst) (r : LpfRegs) : (s.setLpf i r).hrdata = s.hrdata := rfl
@[simp] theorem State.setLpf_inputs (s : State) (i : Inst) (r : LpfRegs) : (s.setLpf i r).inputs = s.inputs := rfl

@[simp] theorem State.setIntg_build (s : State) (i : Inst) (r : IntgRegs) : (s.setIntg i r).build = s.build := rfl
@[simp] theorem State.setIntg_run (s : State) (i : Inst) (r : IntgRegs) : (s.setIntg i r).run = s.run := rfl
@[simp] theorem State.setIntg_dt (s : State) (i : Inst) (r : IntgRegs) : (s.setIntg i r).dt = s.dt := rfl
@[simp] theorem State.setIntg_bstate (s : State) (i : Inst) (r : IntgRegs) : (s.setIntg i r).bstate = s.bstate := rfl
@[simp] theorem State.setIntg_trigPrev (s : State) (i : Inst) (r : IntgRegs) : (s.setIntg i r).trigPrev = s.trigPrev := rfl
@[simp] theorem State.setIntg_bidx (s : State) (i : Inst) (r : IntgRegs) : (s.setIntg i r).bidx = s.bidx := rfl
@[simp] theorem State.setIntg_sa (s : State) (i : Inst) (r : IntgRegs) : (s.setIntg i r).sa = s.sa := rfl
@[simp] theorem State.setIntg_sb (s : State) (i : Inst) (r : IntgRegs) : (s.setIntg i r).sb = s.sb := rfl
@[simp] theorem State.setIntg_sc (s : State) (i : Inst) (r : IntgRegs) : (s.setIntg i r).sc = s.sc := rfl
@[simp] theorem State.setIntg_act (s : State) (i : Inst) (r : IntgRegs) : (s.setIntg i r).act = s.act := rfl
@[simp] theorem State.setIntg_hold (s : State) (i : Inst) (r : IntgRegs) : (s.setIntg i r).hold = s.hold := rfl
@[simp] theorem State.setIntg_lpf (s : State) (i : Inst) (r : IntgRegs) : (s.setIntg i r).lpf = s.lpf := rfl
@[simp] theorem State.setIntg_intg (s : State) (i : Inst) (r : IntgRegs) : (s.setIntg i r).intg = Bank.put s.intg i r := rfl
@[simp] theorem State.setIntg_pi (s : State) (i : Inst) (r : IntgRegs) : (s.setIntg i r).pi = s.pi := rfl
@[simp] theorem State.setIntg_pll (s : State) (i : Inst) (r : IntgRegs) : (s.setIntg i r).pll = s.pll := rfl
@[simp] theorem State.setIntg_buf (s : State) (i : Inst) (r : IntgRegs) : (s.setIntg i r).buf = s.buf := rfl
@[simp] theorem State.setIntg_arg (s : State) (i : Inst) (r : IntgRegs) : (s.setIntg i r).arg = s.arg := rfl
@[simp] theorem State.setIntg_res (s : State) (i : Inst) (r : IntgRegs) : (s.setIntg i r).res = s.res := rfl
@[simp] theorem State.setIntg_net (s : State) (i : Inst) (r : IntgRegs) : (s.setIntg i r).net = s.net := rfl
@[simp] theorem State.setIntg_stepIdx (s : State) (i : Inst) (r : IntgRegs) : (s.setIntg i r).stepIdx = s.stepIdx := rfl
@[simp] theorem State.setIntg_busy (s : State) (i : Inst) (r : IntgRegs) : (s.setIntg i r).busy = s.busy := rfl
@[simp] theorem State.setIntg_edge (s : State) (i : Inst) (r : IntgRegs) : (s.setIntg i r).edge = s.edge := rfl
@[simp] theorem State.setIntg_rearm (s : State) (i : Inst) (r : IntgRegs) : (s.setIntg i r).rearm = s.rearm := rfl
@[simp] theorem State.setIntg_pins (s : State) (i : Inst) (r : IntgRegs) : (s.setIntg i r).pins = s.pins := rfl
@[simp] theorem State.setIntg_done (s : State) (i : Inst) (r : IntgRegs) : (s.setIntg i r).done = s.done := rfl
@[simp] theorem State.setIntg_hrdata (s : State) (i : Inst) (r : IntgRegs) : (s.setIntg i r).hrdata = s.hrdata := rfl
@[simp] theorem State.setIntg_inputs (s : State) (i : Inst) (r : IntgRegs) : (s.setIntg i r).inputs = s.inputs := rfl

@[simp] theorem State.setPi_build (s : State) (i : Inst) (r : PiRegs) : (s.setPi i r).build = s.build := rfl
@[simp] theorem State.setPi_run (s : State) (i : Inst) (r : PiRegs) : (s.setPi i r).run = s.run := rfl
@[simp] theorem State.setPi_dt (s : State) (i : Inst) (r : PiRegs) : (s.setPi i r).dt = s.dt := rfl
@[simp] theorem State.setPi_bstate (s : State) (i : Inst) (r : PiRegs) : (s.setPi i r).bstate = s.bstate := rfl
@[simp] theorem State.setPi_trigPrev (s : State) (i : Inst) (r : PiRegs) : (s.setPi i r).trigPrev = s.trigPrev := rfl
@[simp] theorem State.setPi_bidx (s : State) (i : Inst) (r : PiRegs) : (s.setPi i r).bidx = s.bidx := rfl
@[simp] theorem State.setPi_sa (s : State) (i : Inst) (r : PiRegs) : (s.setPi i r).sa = s.sa := rfl
@[simp] theorem State.setPi_sb (s : State) (i : Inst) (r : PiRegs) : (s.setPi i r).sb = s.sb := rfl
@[simp] theorem State.setPi_sc (s : State) (i : Inst) (r : PiRegs) : (s.setPi i r).sc = s.sc := rfl
@[simp] theorem State.setPi_act (s : State) (i : Inst) (r : PiRegs) : (s.setPi i r).act = s.act := rfl
@[simp] theorem State.setPi_hold (s : State) (i : Inst) (r : PiRegs) : (s.setPi i r).hold = s.hold := rfl
@[simp] theorem State.setPi_lpf (s : State) (i : Inst) (r : PiRegs) : (s.setPi i r).lpf = s.lpf := rfl
@[simp] theorem State.setPi_intg (s : State) (i : Inst) (r : PiRegs) : (s.setPi i r).intg = s.intg := rfl
@[simp] theorem State.setPi_pi (s : State) (i : Inst) (r : PiRegs) : (s.setPi i r).pi = Bank.put s.pi i r := rfl
@[simp] theorem State.setPi_pll (s : State) (i : Inst) (r : PiRegs) : (s.setPi i r).pll = s.pll := rfl
@[simp] theorem State.setPi_buf (s : State) (i : Inst) (r : PiRegs) : (s.setPi i r).buf = s.buf := rfl
@[simp] theorem State.setPi_arg (s : State) (i : Inst) (r : PiRegs) : (s.setPi i r).arg = s.arg := rfl
@[simp] theorem State.setPi_res (s : State) (i : Inst) (r : PiRegs) : (s.setPi i r).res = s.res := rfl
@[simp] theorem State.setPi_net (s : State) (i : Inst) (r : PiRegs) : (s.setPi i r).net = s.net := rfl
@[simp] theorem State.setPi_stepIdx (s : State) (i : Inst) (r : PiRegs) : (s.setPi i r).stepIdx = s.stepIdx := rfl
@[simp] theorem State.setPi_busy (s : State) (i : Inst) (r : PiRegs) : (s.setPi i r).busy = s.busy := rfl
@[simp] theorem State.setPi_edge (s : State) (i : Inst) (r : PiRegs) : (s.setPi i r).edge = s.edge := rfl
@[simp] theorem State.setPi_rearm (s : State) (i : Inst) (r : PiRegs) : (s.setPi i r).rearm = s.rearm := rfl
@[simp] theorem State.setPi_pins (s : State) (i : Inst) (r : PiRegs) : (s.setPi i r).pins = s.pins := rfl
@[simp] theorem State.setPi_done (s : State) (i : Inst) (r : PiRegs) : (s.setPi i r).done = s.done := rfl
@[simp] theorem State.setPi_hrdata (s : State) (i : Inst) (r : PiRegs) : (s.setPi i r).hrdata = s.hrdata := rfl
@[simp] theorem State.setPi_inputs (s : State) (i : Inst) (r : PiRegs) : (s.setPi i r).inputs = s.inputs := rfl

@[simp] theorem State.setPll_build (s : State) (i : Inst) (r : PllRegs) : (s.setPll i r).build = s.build := rfl
@[simp] theorem State.setPll_run (s : State) (i : Inst) (r : PllRegs) : (s.setPll i r).run = s.run := rfl
@[simp] theorem State.setPll_dt (s : State) (i : Inst) (r : PllRegs) : (s.setPll i r).dt = s.dt := rfl
@[simp] theorem State.setPll_bstate (s : State) (i : Inst) (r : PllRegs) : (s.setPll i r).bstate = s.bstate := rfl
@[simp] theorem State.setPll_trigPrev (s : State) (i : Inst) (r : PllRegs) : (s.setPll i r).trigPrev = s.trigPrev := rfl
@[simp] theorem State.setPll_bidx (s : State) (i : Inst) (r : PllRegs) : (s.setPll i r).bidx = s.bidx := rfl
@[simp] theorem State.setPll_sa (s : State) (i : Inst) (r : PllRegs) : (s.setPll i r).sa = s.sa := rfl
@[simp] theorem State.setPll_sb (s : State) (i : Inst) (r : PllRegs) : (s.setPll i r).sb = s.sb := rfl
@[simp] theorem State.setPll_sc (s : State) (i : Inst) (r : PllRegs) : (s.setPll i r).sc = s.sc := rfl
@[simp] theorem State.setPll_act (s : State) (i : Inst) (r : PllRegs) : (s.setPll i r).act = s.act := rfl
@[simp] theorem State.setPll_hold (s : State) (i : Inst) (r : PllRegs) : (s.setPll i r).hold = s.hold := rfl
@[simp] theorem State.setPll_lpf (s : State) (i : Inst) (r : PllRegs) : (s.setPll i r).lpf = s.lpf := rfl
@[simp] theorem State.setPll_intg (s : State) (i : Inst) (r : PllRegs) : (s.setPll i r).intg = s.intg := rfl
@[simp] theorem State.setPll_pi (s : State) (i : Inst) (r : PllRegs) : (s.setPll i r).pi = s.pi := rfl
@[simp] theorem State.setPll_pll (s : State) (i : Inst) (r : PllRegs) : (s.setPll i r).pll = Bank.put s.pll i r := rfl
@[simp] theorem State.setPll_buf (s : State) (i : Inst) (r : PllRegs) : (s.setPll i r).buf = s.buf := rfl
@[simp] theorem State.setPll_arg (s : State) (i : Inst) (r : PllRegs) : (s.setPll i r).arg = s.arg := rfl
@[simp] theorem State.setPll_res (s : State) (i : Inst) (r : PllRegs) : (s.setPll i r).res = s.res := rfl
@[simp] theorem State.setPll_net (s : State) (i : Inst) (r : PllRegs) : (s.setPll i r).net = s.net := rfl
@[simp] theorem State.setPll_stepIdx (s : State) (i : Inst) (r : PllRegs) : (s.setPll i r).stepIdx = s.stepIdx := rfl
@[simp] theorem State.setPll_busy (s : State) (i : Inst) (r : PllRegs) : (s.setPll i r).busy = s.busy := rfl
@[simp] theorem State.setPll_edge (s : State) (i : Inst) (r : PllRegs) : (s.setPll i r).edge = s.edge := rfl
@[simp] theorem State.setPll_rearm (s : State) (i : Inst) (r : PllRegs) : (s.setPll i r).rearm = s.rearm := rfl
@[simp] theorem State.setPll_pins (s : State) (i : Inst) (r : PllRegs) : (s.setPll i r).pins = s.pins := rfl
@[simp] theorem State.setPll_done (s : State) (i : Inst) (r : PllRegs) : (s.setPll i r).done = s.done := rfl
@[simp] theorem State.setPll_hrdata (s : State) (i : Inst) (r : PllRegs) : (s.setPll i r).hrdata = s.hrdata := rfl
@[simp] theorem State.setPll_inputs (s : State) (i : Inst) (r : PllRegs) : (s.setPll i r).inputs = s.inputs := rfl

@[simp] theorem State.atEdge_build (s : State) (p : Pins) : (s.atEdge p).build = s.build := rfl
@[simp] theorem State.atEdge_run (s : State) (p : Pins) : (s.atEdge p).run = s.run := rfl
@[simp] theorem State.atEdge_dt (s : State) (p : Pins) : (s.atEdge p).dt = s.dt := rfl
@[simp] theorem State.atEdge_bstate (s : State) (p : Pins) : (s.atEdge p).bstate = s.bstate := rfl
@[simp] theorem State.atEdge_trigPrev (s : State) (p : Pins) : (s.atEdge p).trigPrev = s.trigPrev := rfl
@[simp] theorem State.atEdge_bidx (s : State) (p : Pins) : (s.atEdge p).bidx = s.bidx := rfl
@[simp] theorem State.atEdge_sa (s : State) (p : Pins) : (s.atEdge p).sa = s.sa := rfl
@[simp] theorem State.atEdge_sb (s : State) (p : Pins) : (s.atEdge p).sb = s.sb := rfl
@[simp] theorem State.atEdge_sc (s : State) (p : Pins) : (s.atEdge p).sc = s.sc := rfl
@[simp] theorem State.atEdge_act (s : State) (p : Pins) : (s.atEdge p).act = s.act := rfl
@[simp] theorem State.atEdge_hold (s : State) (p : Pins) : (s.atEdge p).hold = s.hold := rfl
@[simp] theorem State.atEdge_lpf (s : State) (p : Pins) : (s.atEdge p).lpf = s.lpf := rfl
@[simp] theorem State.atEdge_intg (s : State) (p : Pins) : (s.atEdge p).intg = s.intg := rfl
@[simp] theorem State.atEdge_pi (s : State) (p : Pins) : (s.atEdge p).pi = s.pi := rfl
@[simp] theorem State.atEdge_pll (s : State) (p : Pins) : (s.atEdge p).pll = s.pll := rfl
@[simp] theorem State.atEdge_buf (s : State) (p : Pins) : (s.atEdge p).buf = s.buf := rfl
@[simp] theorem State.atEdge_arg (s : State) (p : Pins) : (s.atEdge p).arg = s.arg := rfl
@[simp] theorem State.atEdge_res (s : State) (p : Pins) : (s.atEdge p).res = s.res := rfl
@[simp] theorem State.atEdge_net (s : State) (p : Pins) : (s.atEdge p).net = s.net := rfl
@[simp] theorem State.atEdge_stepIdx (s : State) (p : Pins) : (s.atEdge p).stepIdx = s.stepIdx := rfl
@[simp] theorem State.atEdge_busy (s : State) (p : Pins) : (s.atEdge p).busy = s.busy := rfl
@[simp] theorem State.atEdge_edge (s : State) (p : Pins) : (s.atEdge p).edge = s.edge := rfl
@[simp] theorem State.atEdge_rearm (s : State) (p : Pins) : (s.atEdge p).rearm = s.rearm := rfl
@[simp] theorem State.atEdge_pins (s : State) (p : Pins) : (s.atEdge p).pins = p := rfl
@[simp] theorem State.atEdge_done (s : State) (p : Pins) : (s.atEdge p).done = false := rfl
@[simp] theorem State.atEdge_hrdata (s : State) (p : Pins) : (s.atEdge p).hrdata = none := rfl
@[simp] theorem State.atEdge_inputs (s : State) (p : Pins) : (s.atEdge p).inputs = s.inputs := rfl

@[simp] theorem State.started_build (s : State) : s.started.build = s.build := rfl
@[simp] theorem State.started_run (s : State) : s.started.run = true := rfl
@[simp] theorem State.started_dt (s : State) : s.started.dt = s.dt := rfl
@[simp] theorem State.started_bstate (s : State) : s.started.bstate = .idle := rfl
@[simp] theorem State.started_trigPrev (s : State) : s.started.trigPrev = true := rfl
@[simp] theorem State.started_bidx (s : State) : s.started.bidx = 0 := rfl
@[simp] theorem State.started_sa (s : State) : s.started.sa = s.sa := rfl
@[simp] theorem State.started_sb (s : State) : s.started.sb = s.sb := rfl
@[simp] theorem State.started_sc (s : State) : s.started.sc = s.sc := rfl
@[simp] theorem State.started_act (s : State) : s.started.act = s.act := rfl
@[simp] theorem State.started_hold (s : State) : s.started.hold = s.hold := rfl
@[simp] theorem State.started_lpf (s : State) : s.started.lpf = s.lpf := rfl
@[simp] theorem State.started_intg (s : State) : s.started.intg = s.intg := rfl
@[simp] theorem State.started_pi (s : State) : s.started.pi = s.pi := rfl
@[simp] theorem State.started_pll (s : State) : s.started.pll = s.pll := rfl
@[simp] theorem State.started_buf (s : State) : s.started.buf = s.buf := rfl
@[simp] theorem State.started_arg (s : State) : s.started.arg = ArgRegs.empty := rfl
@[simp] theorem State.started_res (s : State) : s.started.res = ResRegs.empty := rfl
@[simp] theorem State.started_net (s : State) : s.started.net = [] := rfl
@[simp] theorem State.started_stepIdx (s : State) : s.started.stepIdx = 0 := rfl
@[simp] theorem State.started_busy (s : State) : s.started.busy = s.busy := rfl
@[simp] theorem State.started_edge (s : State) : s.started.edge = s.edge := rfl
@[simp] theorem State.started_rearm (s : State) : s.started.rearm = false := rfl
@[simp] theorem State.started_pins (s : State) : s.started.pins = s.pins := rfl
@[simp] theorem State.started_done (s : State) : s.started.done = s.done := rfl
@[simp] theorem State.started_hrdata (s : State) : s.started.hrdata = s.hrdata := rfl
@[simp] theorem State.started_inputs (s : State) : s.started.inputs = s.inputs := rfl

@[simp] theorem State.captureRearmed_build (s : State) : s.captureRearmed.build = s.build := rfl
@[simp] theorem State.captureRearmed_run (s : State) : s.captureRearmed.run = s.run := rfl
@[simp] theorem State.captureRearmed_dt (s : State) : s.captureRearmed.dt = s.dt := rfl
@[simp] theorem State.captureRearmed_bstate (s : State) : s.captureRearmed.bstate = .idle := rfl
@[simp] theorem State.captureRearmed_trigPrev (s : State) : s.captureRearmed.trigPrev = true := rfl
@[simp] theorem State.captureRearmed_bidx (s : State) : s.captureRearmed.bidx = 0 := rfl
@[simp] theorem State.captureRearmed_sa (s : State) : s.captureRearmed.sa = s.sa := rfl
@[simp] theorem State.captureRearmed_sb (s : State) : s.captureRearmed.sb = s.sb := rfl
@[simp] theorem State.captureRearmed_sc (s : State) : s.captureRearmed.sc = s.sc := rfl
@[simp] theorem State.captureRearmed_act (s : State) : s.captureRearmed.act = s.act := rfl
@[simp] theorem State.captureRearmed_hold (s : State) : s.captureRearmed.hold = s.hold := rfl
@[simp] theorem State.captureRearmed_lpf (s : State) : s.captureRearmed.lpf = s.lpf := rfl
@[simp] theorem State.captureRearmed_intg (s : State) : s.captureRearmed.intg = s.intg := rfl
@[simp] theorem State.captureRearmed_pi (s : State) : s.captureRearmed.pi = s.pi := rfl
@[simp] theorem State.captureRearmed_pll (s : State) : s.captureRearmed.pll = s.pll := rfl
@[simp] theorem State.captureRearmed_buf (s : State) : s.captureRearmed.buf = s.buf := rfl
@[simp] theorem State.captureRearmed_arg (s : State) : s.captureRearmed.arg = s.arg := rfl
@[simp] theorem State.captureRearmed_res (s : State) : s.captureRearmed.res = s.res := rfl
@[simp] theorem State.captureRearmed_net (s : State) : s.captureRearmed.net = s.net := rfl
@[simp] theorem State.captureRearmed_stepIdx (s : State) : s.captureRearmed.stepIdx = s.stepIdx := rfl
@[simp] theorem State.captureRearmed_busy (s : State) : s.captureRearmed.busy = s.busy := rfl
@[simp] theorem State.captureRearmed_edge (s : State) : s.captureRearmed.edge = s.edge := rfl
@[simp] theorem State.captureRearmed_rearm (s : State) : s.captureRearmed.rearm = s.rearm := rfl
@[simp] theorem State.captureRearmed_pins (s : State) : s.captureRearmed.pins = s.pins := rfl
@[simp] theorem State.captureRearmed_done (s : State) : s.captureRearmed.done = s.done := rfl
@[simp] theorem State.captureRearmed_hrdata (s : State) : s.captureRearmed.hrdata = s.hrdata := rfl
@[simp] theorem State.captureRearmed_inputs (s : State) : s.captureRearmed.inputs = s.inputs := rfl

@[simp] theorem State.chainRearmed_build (s : State) : s.chainRearmed.build = s.build := rfl
@[simp] theorem State.chainRearmed_run (s : State) : s.chainRearmed.run = s.run := rfl
@[simp] theorem State.chainRearmed_dt (s : State) : s.chainRearmed.dt = s.dt := rfl
@[simp] theorem State.chainRearmed_bstate (s : State) : s.chainRearmed.bstate = s.bstate := rfl
@[simp] theorem State.chainRearmed_trigPrev (s : State) : s.chainRearmed.trigPrev = s.trigPrev := rfl
@[simp] theorem State.chainRearmed_bidx (s : State) : s.chainRearmed.bidx = s.bidx := rfl
@[simp] theorem State.chainRearmed_sa (s : State) : s.chainRearmed.sa = s.sa := rfl
@[simp] theorem State.chainRearmed_sb (s : State) : s.chainRearmed.sb = s.sb := rfl
@[simp] theorem State.chainRearmed_sc (s : State) : s.chainRearmed.sc = s.sc := rfl
@[simp] theorem State.chainRearmed_act (s : State) : s.chainRearmed.act = s.act := rfl
@[simp] theorem State.chainRearmed_hold (s : State) : s.chainRearmed.hold = s.hold := rfl
@[simp] theorem State.chainRearmed_lpf (s : State) : s.chainRearmed.lpf = s.lpf := rfl
@[simp] theorem State.chainRearmed_intg (s : State) : s.chainRearmed.intg = s.intg := rfl
@[simp] theorem State.chainRearmed_pi (s : State) : s.chainRearmed.pi = s.pi := rfl
@[simp] theorem State.chainRearmed_pll (s : State) : s.chainRearmed.pll = s.pll := rfl
@[simp] theorem State.chainRearmed_buf (s : State) : s.chainRearmed.buf = s.buf := rfl
@[simp] theorem State.chainRearmed_arg (s : State) : s.chainRearmed.arg = ArgRegs.empty := rfl
@[simp] theorem State.chainRearmed_res (s : State) : s.chainRearmed.res = ResRegs.empty := rfl
@[simp] theorem State.chainRearmed_net (s : State) : s.chainRearmed.net = [] := rfl
@[simp] theorem State.chainRearmed_stepIdx (s : State) : s.chainRearmed.stepIdx = 0 := rfl
@[simp] theorem State.chainRearmed_busy (s : State) : s.chainRearmed.busy = s.busy := rfl
@[simp] theorem State.chainRearmed_edge (s : State) : s.chainRearmed.edge = s.edge := rfl
@[simp] theorem State.chainRearmed_rearm (s : State) : s.chainRearmed.rearm = false := rfl
@[simp] theorem State.chainRearmed_pins (s : State) : s.chainRearmed.pins = s.pins := rfl
@[simp] theorem State.chainRearmed_done (s : State) : s.chainRearmed.done = s.done := rfl
@[simp] theorem State.chainRearmed_hrdata (s : State) : s.chainRearmed.hrdata = s.hrdata := rfl
@[simp] theorem State.chainRearmed_inputs (s : State) : s.chainRearmed.inputs = s.inputs := rfl

@[simp] theorem State.startedInCycle_build (s : State) : s.startedInCycle.build = s.build := rfl
@[simp] theorem State.startedInCycle_run (s : State) : s.startedInCycle.run = true := rfl
@[simp] theorem State.startedInCycle_dt (s : State) : s.startedInCycle.dt = s.dt := rfl
@[simp] theorem State.startedInCycle_bstate (s : State) : s.startedInCycle.bstate = .idle := rfl
@[simp] theorem State.startedInCycle_trigPrev (s : State) : s.startedInCycle.trigPrev = true := rfl
@[simp] theorem State.startedInCycle_bidx (s : State) : s.startedInCycle.bidx = 0 := rfl
@[simp] theorem State.startedInCycle_sa (s : State) : s.startedInCycle.sa = s.sa := rfl
@[simp] theorem State.startedInCycle_sb (s : State) : s.startedInCycle.sb = s.sb := rfl
@[simp] theorem State.startedInCycle_sc (s : State) : s.startedInCycle.sc = s.sc := rfl
@[simp] theorem State.startedInCycle_act (s : State) : s.startedInCycle.act = s.act := rfl
@[simp] theorem State.startedInCycle_hold (s : State) : s.startedInCycle.hold = s.hold := rfl
@[simp] theorem State.startedInCycle_lpf (s : State) : s.startedInCycle.lpf = s.lpf := rfl
@[simp] theorem State.startedInCycle_intg (s : State) : s.startedInCycle.intg = s.intg := rfl
@[simp] theorem State.startedInCycle_pi (s : State) : s.startedInCycle.pi = s.pi := rfl
@[simp] theorem State.startedInCycle_pll (s : State) : s.startedInCycle.pll = s.pll := rfl
@[simp] theorem State.startedInCycle_buf (s : State) : s.startedInCycle.buf = s.buf := rfl
@[simp] theorem State.startedInCycle_arg (s : State) : s.startedInCycle.arg = s.arg := rfl
@[simp] theorem State.startedInCycle_res (s : State) : s.startedInCycle.res = s.res := rfl
@[simp] theorem State.startedInCycle_net (s : State) : s.startedInCycle.net = s.net := rfl
@[simp] theorem State.startedInCycle_stepIdx (s : State) : s.startedInCycle.stepIdx = s.stepIdx := rfl
@[simp] theorem State.startedInCycle_busy (s : State) : s.startedInCycle.busy = s.busy := rfl
@[simp] theorem State.startedInCycle_edge (s : State) : s.startedInCycle.edge = s.edge := rfl
@[simp] theorem State.startedInCycle_rearm (s : State) : s.startedInCycle.rearm = true := rfl
@[simp] theorem State.startedInCycle_pins (s : State) : s.startedInCycle.pins = s.pins := rfl
@[simp] theorem State.startedInCycle_done (s : State) : s.startedInCycle.done = s.done := rfl
@[simp] theorem State.startedInCycle_hrdata (s : State) : s.startedInCycle.hrdata = s.hrdata := rfl
@[simp] theorem State.startedInCycle_inputs (s : State) : s.startedInCycle.inputs = s.inputs := rfl

@[simp] theorem State.enterCycle_build (s : State) (t : Bool) : (s.enterCycle t).build = s.build := rfl
@[simp] theorem State.enterCycle_run (s : State) (t : Bool) : (s.enterCycle t).run = s.run := rfl
@[simp] theorem State.enterCycle_dt (s : State) (t : Bool) : (s.enterCycle t).dt = s.dt := rfl
@[simp] theorem State.enterCycle_bstate (s : State) (t : Bool) : (s.enterCycle t).bstate = s.bstate := rfl
@[simp] theorem State.enterCycle_trigPrev (s : State) (t : Bool) : (s.enterCycle t).trigPrev = t := rfl
@[simp] theorem State.enterCycle_bidx (s : State) (t : Bool) : (s.enterCycle t).bidx = s.bidx := rfl
@[simp] theorem State.enterCycle_sa (s : State) (t : Bool) : (s.enterCycle t).sa = s.pins.sa := rfl
@[simp] theorem State.enterCycle_sb (s : State) (t : Bool) : (s.enterCycle t).sb = s.pins.sb := rfl
@[simp] theorem State.enterCycle_sc (s : State) (t : Bool) : (s.enterCycle t).sc = s.pins.sc := rfl
@[simp] theorem State.enterCycle_act (s : State) (t : Bool) : (s.enterCycle t).act = s.act := rfl
@[simp] theorem State.enterCycle_hold (s : State) (t : Bool) : (s.enterCycle t).hold = s.hold := rfl
@[simp] theorem State.enterCycle_lpf (s : State) (t : Bool) : (s.enterCycle t).lpf = s.lpf := rfl
@[simp] theorem State.enterCycle_intg (s : State) (t : Bool) : (s.enterCycle t).intg = s.intg := rfl
@[simp] theorem State.enterCycle_pi (s : State) (t : Bool) : (s.enterCycle t).pi = s.pi := rfl
@[simp] theorem State.enterCycle_pll (s : State) (t : Bool) : (s.enterCycle t).pll = s.pll := rfl
@[simp] theorem State.enterCycle_buf (s : State) (t : Bool) : (s.enterCycle t).buf = s.buf := rfl
@[simp] theorem State.enterCycle_arg (s : State) (t : Bool) : (s.enterCycle t).arg = ArgRegs.empty := rfl
@[simp] theorem State.enterCycle_res (s : State) (t : Bool) : (s.enterCycle t).res = ResRegs.empty := rfl
@[simp] theorem State.enterCycle_net (s : State) (t : Bool) : (s.enterCycle t).net = [] := rfl
@[simp] theorem State.enterCycle_stepIdx (s : State) (t : Bool) : (s.enterCycle t).stepIdx = 0 := rfl
@[simp] theorem State.enterCycle_busy (s : State) (t : Bool) : (s.enterCycle t).busy = true := rfl
@[simp] theorem State.enterCycle_edge (s : State) (t : Bool) : (s.enterCycle t).edge = risingEdge t s.trigPrev := rfl
@[simp] theorem State.enterCycle_rearm (s : State) (t : Bool) : (s.enterCycle t).rearm = false := rfl
@[simp] theorem State.enterCycle_pins (s : State) (t : Bool) : (s.enterCycle t).pins = s.pins := rfl
@[simp] theorem State.enterCycle_done (s : State) (t : Bool) : (s.enterCycle t).done = s.done := rfl
@[simp] theorem State.enterCycle_hrdata (s : State) (t : Bool) : (s.enterCycle t).hrdata = s.hrdata := rfl
@[simp] theorem State.enterCycle_inputs (s : State) (t : Bool) : (s.enterCycle t).inputs = s.inputs := rfl

end Sys2Proof.Machine
end

