-- ==== Sys2Proof/Laws/Ops.lean ====
section
/-! SUPPORT. For each shared operation of Machine/Ops.lean and Machine/Operands.lean one lemma (or a small group)
that says what it does; and that every memory operation keeps the canonical form. -/

namespace Sys2Proof.Machine

/-- A chain answers a next state only through a next state of its first part. -/
theorem andThen_next {o : Out} {f : State → Out} {t : State} :
    andThen o f = .next t ↔ ∃ s, o = .next s ∧ f s = .next t := by
  cases o <;> simp [andThen]

@[simp] theorem andThen_next_left (s : State) (f : State → Out) : andThen (.next s) f = f s := rfl

/-! Banks. -/

theorem Bank.put_self {α : Type} (b : Bank α) (i : Inst) (x : α) : (Bank.put b i x)[i] = x := by
  simp [Bank.put]

@[simp] theorem Bank.put_self_val {α : Type} (b : Bank α) (i : Inst) (x : α) :
    (Bank.put b i x)[i.val]'i.isLt = x := Bank.put_self b i x

theorem Bank.put_ne {α : Type} (b : Bank α) {i j : Inst} (x : α) (h : i ≠ j) : (Bank.put b i x)[j] = b[j] := by
  have : i.val ≠ j.val := fun e => h (Fin.ext e)
  simp [Bank.put, this]

theorem Bank.put_get {α : Type} (b : Bank α) (i j : Inst) (x : α) :
    (Bank.put b i x)[j] = if i = j then x else b[j] := by
  by_cases h : i = j
  · subst h; rw [if_pos rfl, Bank.put_self]
  · rw [if_neg h, Bank.put_ne b x h]

/-! Cells. -/

theorem Cells.read_write_self (c : Cells) (a : Nat) (x : Scalar) : (c.write a x).read a = some x := by
  induction c with
  | nil => simp [Cells.write, Cells.read]
  | cons p rest ih =>
    unfold Cells.write
    split
    · simp [Cells.read]
    · split
      · simp [Cells.read]
      · rename_i _ h
        simp only [Cells.read]; rw [if_neg h]; exact ih

theorem Cells.read_write_ne (c : Cells) {a b : Nat} (x : Scalar) (h : a ≠ b) :
    (c.write a x).read b = c.read b := by
  induction c with
  | nil => simp [Cells.write, Cells.read, h]
  | cons p rest ih =>
    unfold Cells.write
    split
    · simp only [Cells.read]; rw [if_neg h]
    · split
      · rename_i _ hp
        simp only [Cells.read]; rw [if_neg h, if_neg (hp ▸ h)]
      · simp only [Cells.read]; rw [ih]

theorem Cells.read_write (c : Cells) (a b : Nat) (x : Scalar) :
    (c.write a x).read b = if a = b then some x else c.read b := by
  by_cases h : a = b
  · subst h; simp [Cells.read_write_self]
  · rw [if_neg h, Cells.read_write_ne c x h]

/-- Every address of the list is above `a`. -/
def Cells.above (c : Cells) (a : Nat) : Prop := ∀ p ∈ c, a < p.1

theorem Cells.wf_cons (p : Nat × Scalar) (c : Cells) : Cells.wf (p :: c) = true ↔ Cells.above c p.1 ∧ Cells.wf c = true := by
  induction c generalizing p with
  | nil => simp [Cells.wf, Cells.above]
  | cons q rest ih =>
    simp only [Cells.wf, Bool.and_eq_true, decide_eq_true_eq]
    constructor
    · rintro ⟨h1, h2⟩
      refine ⟨?_, h2⟩
      intro r hr
      rcases List.mem_cons.1 hr with rfl | hr
      · exact h1
      · exact lt_trans h1 (((ih q).1 h2).1 r hr)
    · rintro ⟨h1, h2⟩
      exact ⟨h1 q List.mem_cons_self, h2⟩

theorem Cells.above_write {c : Cells} {a b : Nat} {x : Scalar} (h : Cells.above c b) (hab : b < a) :
    Cells.above (c.write a x) b := by
  induction c with
  | nil => intro p hp; simp only [Cells.write, List.mem_singleton] at hp; subst hp; exact hab
  | cons q rest ih =>
    have hr : Cells.above rest b := fun p hp => h p (List.mem_cons_of_mem _ hp)
    unfold Cells.write
    split
    · intro p hp
      rcases List.mem_cons.1 hp with rfl | hp
      · exact hab
      · exact h p hp
    · split
      · intro p hp
        rcases List.mem_cons.1 hp with rfl | hp
        · exact hab
        · exact hr p hp
      · intro p hp
        rcases List.mem_cons.1 hp with rfl | hp
        · exact h _ List.mem_cons_self
        · exact ih hr p hp

/-- A write keeps the canonical form. -/
theorem Cells.wf_write {c : Cells} (a : Nat) (x : Scalar) (h : Cells.wf c = true) : Cells.wf (c.write a x) = true := by
  induction c with
  | nil => rfl
  | cons q rest ih =>
    obtain ⟨h1, h2⟩ := (Cells.wf_cons q rest).1 h
    unfold Cells.write
    split
    · rename_i hlt
      refine (Cells.wf_cons _ _).2 ⟨?_, h⟩
      intro p hp
      rcases List.mem_cons.1 hp with rfl | hp
      · exact hlt
      · exact lt_trans hlt (h1 p hp)
    · split
      · rename_i _ heq
        exact (Cells.wf_cons _ _).2 ⟨fun p hp => heq ▸ h1 p hp, h2⟩
      · rename_i hlt hne
        exact (Cells.wf_cons _ _).2 ⟨Cells.above_write h1 (by omega), ih h2⟩

theorem Cells.above_erase {c : Cells} {a b : Nat} (h : Cells.above c b) : Cells.above (c.erase a) b := by
  induction c with
  | nil => exact h
  | cons q rest ih =>
    have hr : Cells.above rest b := fun p hp => h p (List.mem_cons_of_mem _ hp)
    unfold Cells.erase
    split
    · exact hr
    · intro p hp
      rcases List.mem_cons.1 hp with rfl | hp
      · exact h _ List.mem_cons_self
      · exact ih hr p hp

/-- Leaving `⊥` at an address keeps the canonical form. -/
theorem Cells.wf_erase {c : Cells} (a : Nat) (h : Cells.wf c = true) : Cells.wf (c.erase a) = true := by
  induction c with
  | nil => rfl
  | cons q rest ih =>
    obtain ⟨h1, h2⟩ := (Cells.wf_cons q rest).1 h
    unfold Cells.erase
    split
    · exact h2
    · exact (Cells.wf_cons _ _).2 ⟨Cells.above_erase h1, ih h2⟩

theorem Cells.read_none_of_above {c : Cells} {a b : Nat} (h : Cells.above c b) (hab : a ≤ b) : c.read a = none := by
  induction c with
  | nil => rfl
  | cons q rest ih =>
    have := h q List.mem_cons_self
    simp only [Cells.read]
    rw [if_neg (by omega)]
    exact ih fun p hp => h p (List.mem_cons_of_mem _ hp)

theorem Cells.read_erase {c : Cells} (a b : Nat) (h : Cells.wf c = true) :
    (c.erase a).read b = if a = b then none else c.read b := by
  induction c with
  | nil => simp [Cells.erase, Cells.read]
  | cons q rest ih =>
    obtain ⟨h1, h2⟩ := (Cells.wf_cons q rest).1 h
    unfold Cells.erase
    by_cases hq : q.1 = a
    · rw [if_pos hq]
      by_cases hab : a = b
      · rw [if_pos hab]
        exact Cells.read_none_of_above h1 (by omega)
      · rw [if_neg hab]; simp only [Cells.read]; rw [if_neg (by omega)]
    · rw [if_neg hq]
      simp only [Cells.read]
      rw [ih h2]
      by_cases hab : a = b
      · rw [if_pos hab, if_neg (by omega)]; simp [hab]
      · simp [hab]

theorem Cells.wf_assign {c : Cells} (a : Nat) (v : Option Scalar) (h : Cells.wf c = true) :
    Cells.wf (c.assign a v) = true := by
  cases v
  · exact Cells.wf_erase a h
  · exact Cells.wf_write a _ h

/-- After `c[a] <- v`, address `a` holds `v` and every other address what it held. -/
theorem Cells.read_assign {c : Cells} (a b : Nat) (v : Option Scalar) (h : Cells.wf c = true) :
    (c.assign a v).read b = if a = b then v else c.read b := by
  cases v
  · exact Cells.read_erase a b h
  · exact Cells.read_write c a b _

/-! Results to nets. -/

theorem storeResults_wf (r : ResRegs) (dst : List (Option Nat)) (k : Nat) {net : Cells}
    (h : Cells.wf net = true) : Cells.wf (storeResults r dst k net) = true := by
  induction dst generalizing k net with
  | nil => exact h
  | cons d rest ih =>
    cases d with
    | none => exact ih (k + 1) h
    | some n => exact ih (k + 1) (Cells.wf_assign n _ h)

/-- A net that no destination names keeps what it held. -/
theorem storeResults_read_other (r : ResRegs) (dst : List (Option Nat)) (k : Nat) {net : Cells}
    (h : Cells.wf net = true) (n : Nat) (hn : some n ∉ dst) :
    (storeResults r dst k net).read n = net.read n := by
  induction dst generalizing k net with
  | nil => rfl
  | cons d rest ih =>
    have hr : some n ∉ rest := fun hm => hn (List.mem_cons_of_mem _ hm)
    cases d with
    | none => exact ih (k + 1) h hr
    | some m =>
      have hm : m ≠ n := fun e => hn (e ▸ List.mem_cons_self)
      rw [storeResults, ih (k + 1) (Cells.wf_assign m _ h) hr, Cells.read_assign _ _ _ h, if_neg hm]

/-- A net that one destination names, and no other, holds that destination's result (R93). -/
theorem storeResults_read_self (r : ResRegs) (dst : List (Option Nat)) (k0 : Nat) {net : Cells}
    (h : Cells.wf net = true) {n k : Nat} (hk : dst[k]? = some (some n)) (hu : ∀ j, j ≠ k → dst[j]? ≠ some (some n)) :
    (storeResults r dst k0 net).read n = resAt r (k0 + k) := by
  induction dst generalizing k0 k net with
  | nil => simp at hk
  | cons d rest ih =>
    cases k with
    | zero =>
      obtain rfl : d = some n := by simpa using hk
      have hn : some n ∉ rest := by
        intro hm
        obtain ⟨j, hj, e⟩ := List.getElem_of_mem hm
        exact hu (j + 1) (by omega) (by simp [hj, e])
      rw [storeResults, storeResults_read_other _ _ _ (Cells.wf_assign _ _ h) _ hn, Cells.read_assign _ _ _ h, if_pos rfl]
      rfl
    | succ k =>
      have rec_ : ∀ net', Cells.wf net' = true → (storeResults r rest (k0 + 1) net').read n = resAt r (k0 + (k + 1)) := by
        intro net' h'
        rw [ih (k0 + 1) h' (by simpa using hk) fun j hj => by simpa using hu (j + 1) (by omega)]
        congr 1
        omega
      cases d with
      | none => exact rec_ _ h
      | some m => exact rec_ _ (Cells.wf_assign _ _ h)

/-! The outputs of the epilogue. -/

/-- A copy of nets succeeds exactly when every net holds a value. -/
theorem copyNets_ok_iff (net : Cells) (srcs : List Nat) (j : Nat) (bank : Bank Scalar) :
    (∃ b, copyNets net srcs j bank = .ok b) ↔ ∀ n ∈ srcs, (net.read n).isSome = true := by
  induction srcs generalizing j bank with
  | nil => simp [copyNets]
  | cons n rest ih =>
    cases h : net.read n with
    | none => simp [copyNets, h]
    | some x => simp [copyNets, h, ih]

/-- What the registers hold after a copy of nets to the registers from `j` upward (R144). -/
theorem copyNets_get {net : Cells} {srcs : List Nat} {j : Nat} {bank b : Bank Scalar}
    (h : copyNets net srcs j bank = .ok b) (i : Inst) :
    (i.val < j ∨ j + srcs.length ≤ i.val → b[i] = bank[i]) ∧
    (∀ n, j ≤ i.val → srcs[i.val - j]? = some n → net.read n = some b[i]) := by
  induction srcs generalizing j bank with
  | nil =>
    simp only [copyNets, Except.ok.injEq] at h
    subst h
    exact ⟨fun _ => rfl, fun n _ hn => by simp at hn⟩
  | cons n rest ih =>
    cases hr : net.read n with
    | none => simp [copyNets, hr] at h
    | some x =>
      simp only [copyNets, hr] at h
      obtain ⟨h1, h2⟩ := ih h
      constructor
      · intro hi
        rw [h1 (by simp only [List.length_cons] at hi; omega)]
        split
        · rename_i hj
          exact Bank.put_ne bank x (fun e => by
            have := congrArg Fin.val e; simp only [List.length_cons] at hi; simp at this; omega)
        · rfl
      · intro m hj hm
        by_cases he : i.val = j
        · have hm' : n = m := by simpa [he] using hm
          subst hm'
          rw [h1 (Or.inl (by omega)), hr, dif_pos (he ▸ i.isLt)]
          have : (⟨j, he ▸ i.isLt⟩ : Inst) = i := Fin.ext he.symm
          rw [this, Bank.put_self]
        · refine h2 m (by omega) ?_
          have : i.val - j = (i.val - (j + 1)) + 1 := by omega
          rw [this, List.getElem?_cons_succ] at hm
          exact hm

/-- The epilogue answers a next state only when every output's net holds a value, and that state is
`epilogueState` of the copied banks. -/
theorem leaveCycle_next {s t : State} : leaveCycle s = .next t ↔
    ∃ acts holds, copyNets s.net s.build.wiring.actSrc 0 s.act = .ok acts ∧
      copyNets s.net s.build.wiring.holdSrc 0 s.hold = .ok holds ∧ t = s.epilogueState acts holds := by
  unfold leaveCycle
  split
  · rename_i h; simp [h]
  · rename_i acts h
    split
    · rename_i h2; simp [h2]
    · rename_i holds h2
      simp only [h, h2, Host.Outcome.next.injEq, Except.ok.injEq]
      constructor
      · intro e; exact ⟨acts, holds, rfl, rfl, e.symm⟩
      · rintro ⟨a, b, rfl, rfl, e⟩; exact e.symm

/-- What the epilogue leaves where no START waits for it: the outputs, the buffer machine, `step` and `BUSY` zero,
`done` (R141, R181). -/
theorem epilogueState_of_rearm_false {s : State} (acts holds : Bank Scalar) (h : s.rearm = false) :
    s.epilogueState acts holds =
      { (if s.build.bufEn then ({ s with act := acts, hold := holds } : State).bufferStep s.edge
          else { s with act := acts, hold := holds }) with
        stepIdx := 0, busy := false, edge := false, done := true } := by
  unfold State.epilogueState; rw [h]; rfl

/-- A START performed during the cycle re-arms the chain after the epilogue, and changes nothing else of it (R185). -/
theorem epilogueState_of_rearm {s : State} (acts holds : Bank Scalar) (h : s.rearm = true) :
    s.epilogueState acts holds = (({ s with rearm := false } : State).epilogueState acts holds).chainRearmed := by
  unfold State.epilogueState State.bufferStep State.fillEntry State.storeSample State.chainRearmed
  rw [h]
  by_cases e : s.bidx + 1 = s.build.bufCap <;> simp only [e, if_true, if_false] <;>
    cases s.build.bufEn <;> cases s.bstate <;> cases s.edge <;> rfl

/-! The buffer machine. -/

/-- What one run of the buffer machine does (R147): nothing, or one entry stored and the index moved on. -/
theorem bufferStep_cases (s : State) (edge : Bool) :
    (s.bufferStep edge = s ∧ ((s.bstate = .idle ∧ edge = false) ∨ s.bstate = .full)) ∨
    (s.bufferStep edge = s.fillEntry ∧ ((s.bstate = .idle ∧ edge = true) ∨ s.bstate = .filling)) := by
  unfold State.bufferStep
  cases h : s.bstate <;> cases edge <;> simp

/-- The store of one entry: the entry it writes, and whether it is the last (R147, R148, R149). -/
theorem fillEntry_cases (s : State) :
    (s.bidx + 1 = s.build.bufCap ∧ s.fillEntry = { s.storeSample s.bidx with bidx := 0, bstate := .idle }) ∨
    (s.bidx + 1 ≠ s.build.bufCap ∧
      s.fillEntry = { s.storeSample s.bidx with bidx := s.bidx + 1, bstate := .filling }) := by
  unfold State.fillEntry
  by_cases h : s.bidx + 1 = s.build.bufCap
  · left; exact ⟨h, by simp [h]⟩
  · right; exact ⟨h, by simp [h]⟩

/-- What the buffer holds after the Sample is stored in entry `n` (R147, R63). -/
theorem storeSample_read (s : State) (n a : Nat) :
    (s.storeSample n).buf.read a =
      if bufAddr n 2 = a then some s.sc else if bufAddr n 1 = a then some s.sb
      else if bufAddr n 0 = a then some s.sa else s.buf.read a := by
  simp only [State.storeSample, Cells.read_write]

theorem storeSample_wf {s : State} (n : Nat) (h : Cells.wf s.buf = true) : Cells.wf (s.storeSample n).buf = true :=
  Cells.wf_write _ _ (Cells.wf_write _ _ (Cells.wf_write _ _ h))

/-! Operands. -/

/-- An operand is given only where its register holds a value. -/
theorem operand_next {s t : State} {k : Nat} {v : Option Scalar} {f : Scalar → Out} :
    operand s k v f = .next t ↔ ∃ x, v = some x ∧ f x = .next t := by
  cases v <;> simp [operand]

@[simp] theorem operand_some (s : State) (k : Nat) (x : Scalar) (f : Scalar → Out) : operand s k (some x) f = f x := rfl

/-- An operation of an instance answers a next state only where the instance exists. -/
theorem withInstance_next {s t : State} {i : Instr} {o : Out} :
    withInstance s i o = .next t ↔ i.wf s.build = true ∧ o = .next t := by
  unfold withInstance
  split <;> simp [*]

theorem withInstance_of_wf {s : State} {i : Instr} (o : Out) (h : i.wf s.build = true) : withInstance s i o = o := by
  unfold withInstance; rw [if_pos h]

end Sys2Proof.Machine
end

