-- ==== Sys2Proof/Laws/Exec.lean ====
section
/-! SUPPORT. For each instruction one lemma that says when it answers a next state and which, and what every
command leaves alone; the issue of a step and the chain likewise. -/

namespace Sys2Proof.Machine

theorem execClarke_next {s t : State} : execClarke s = .next t ↔
    ∃ a b c, s.arg.arg0 = some a ∧ s.arg.arg1 = some b ∧ s.arg.arg2 = some c ∧
      t = s.setRes { res0 := some (clarkeAlpha a b c), res1 := some (clarkeBeta b c), res2 := none } := by
  simp only [execClarke, operand_next, Host.Outcome.next.injEq]
  constructor
  · rintro ⟨a, ha, b, hb, c, hc, e⟩; exact ⟨a, b, c, ha, hb, hc, e.symm⟩
  · rintro ⟨a, b, c, ha, hb, hc, e⟩; exact ⟨a, ha, b, hb, c, hc, e.symm⟩

theorem execPark_next {s t : State} : execPark s = .next t ↔
    ∃ th a b c, s.arg.arg0 = some th ∧ s.arg.arg1 = some a ∧ s.arg.arg2 = some b ∧ s.arg.arg3 = some c ∧
      t = s.setRes { res0 := some (parkD th a b c), res1 := some (parkQ th a b c), res2 := some (parkZero a b c) } := by
  simp only [execPark, operand_next, Host.Outcome.next.injEq]
  constructor
  · rintro ⟨th, h, a, ha, b, hb, c, hc, e⟩; exact ⟨th, a, b, c, h, ha, hb, hc, e.symm⟩
  · rintro ⟨th, a, b, c, h, ha, hb, hc, e⟩; exact ⟨th, h, a, ha, b, hb, c, hc, e.symm⟩

theorem execIpark_next {s t : State} : execIpark s = .next t ↔
    ∃ th d q z, s.arg.arg0 = some th ∧ s.arg.arg1 = some d ∧ s.arg.arg2 = some q ∧ s.arg.arg3 = some z ∧
      t = s.setRes { res0 := some (iparkPhase th d q z), res1 := some (iparkPhase (angleB th) d q z),
                     res2 := some (iparkPhase (angleC th) d q z) } := by
  simp only [execIpark, operand_next, Host.Outcome.next.injEq]
  constructor
  · rintro ⟨th, h, a, ha, b, hb, c, hc, e⟩; exact ⟨th, a, b, c, h, ha, hb, hc, e.symm⟩
  · rintro ⟨th, a, b, c, h, ha, hb, hc, e⟩; exact ⟨th, h, a, ha, b, hb, c, hc, e.symm⟩

theorem execLpf_next {i : Inst} {s t : State} : execLpf i s = .next t ↔
    i.val < s.build.nLpf ∧ ∃ x, s.arg.arg0 = some x ∧
      hasValue s.build.num (lpfBlend s.lpf[i].fc s.lpf[i].dt) = true ∧
      t = (s.setLpf i { s.lpf[i] with y := lpfOutput s.lpf[i] x }).setRes
        { res0 := some (lpfOutput s.lpf[i] x), res1 := none, res2 := none } := by
  simp only [execLpf, withInstance_next, operand_next, Instr.wf, decide_eq_true_eq]
  constructor
  · rintro ⟨h, x, hx, e⟩
    split at e
    · rename_i hk
      cases e
      exact ⟨h, x, hx, hk, rfl⟩
    · cases e
  · rintro ⟨h, x, hx, hk, rfl⟩
    exact ⟨h, x, hx, by rw [hk]; rfl⟩

theorem execIntg_next {i : Inst} {s t : State} : execIntg i s = .next t ↔
    i.val < s.build.nIntg ∧ ∃ cur prev h, s.arg.arg0 = some cur ∧ s.arg.arg1 = some prev ∧ s.arg.arg2 = some h ∧
      t = (s.setIntg i { acc := intgSum s.intg[i].acc cur prev h }).setRes
        { res0 := some (intgSum s.intg[i].acc cur prev h), res1 := none, res2 := none } := by
  simp only [execIntg, withInstance_next, operand_next, Instr.wf, decide_eq_true_eq, Host.Outcome.next.injEq]
  constructor
  · rintro ⟨hi, a, ha, b, hb, c, hc, e⟩; exact ⟨hi, a, b, c, ha, hb, hc, e.symm⟩
  · rintro ⟨hi, a, b, c, ha, hb, hc, e⟩; exact ⟨hi, a, ha, b, hb, c, hc, e.symm⟩

theorem execPi_next {i : Inst} {s t : State} : execPi i s = .next t ↔
    i.val < s.build.nPi ∧ ∃ e, s.arg.arg0 = some e ∧
      t = (s.setPi i (piAfter s.dt s.pi[i] e)).setRes
        { res0 := some (piOutput s.dt s.pi[i] e), res1 := none, res2 := none } := by
  simp only [execPi, withInstance_next, operand_next, Instr.wf, decide_eq_true_eq, Host.Outcome.next.injEq]
  constructor
  · rintro ⟨hi, a, ha, e⟩; exact ⟨hi, a, ha, e.symm⟩
  · rintro ⟨hi, a, ha, e⟩; exact ⟨hi, a, ha, e.symm⟩

theorem execPll_next {i : Inst} {s t : State} : execPll i s = .next t ↔
    i.val < s.build.nPll ∧ ∃ a b c, s.arg.arg0 = some a ∧ s.arg.arg1 = some b ∧ s.arg.arg2 = some c ∧
      t = (s.setPll i (pllAfter s.dt s.pll[i] a b c)).setRes
        { res0 := some (pllAfter s.dt s.pll[i] a b c).theta, res1 := some (pllAfter s.dt s.pll[i] a b c).omega,
          res2 := some (pllAfter s.dt s.pll[i] a b c).freq } := by
  simp only [execPll, withInstance_next, operand_next, Instr.wf, decide_eq_true_eq, Host.Outcome.next.injEq]
  constructor
  · rintro ⟨hi, a, ha, b, hb, c, hc, e⟩; exact ⟨hi, a, b, c, ha, hb, hc, e.symm⟩
  · rintro ⟨hi, a, b, c, ha, hb, hc, e⟩; exact ⟨hi, a, ha, b, hb, c, hc, e.symm⟩

/-- In the reference instance, where the cutoff and the period are above zero, the blend coefficient has a value: neither
divisor is zero (R111, R112, R206). -/
theorem lpf_hasValue {fc h : Scalar} (hf : NumGreater .real fc zero) (hh : NumGreater .real h zero) :
    hasValue .real (lpfBlend fc h) = true := by
  obtain ⟨f, z, hf, hz, hfz⟩ := hf
  obtain ⟨p, z', hp, hz', hpz⟩ := hh
  have e : Scalar.valueIn .real zero = some ((0 : Rat) : ℝ) := rfl
  obtain rfl : ((0 : Rat) : ℝ) = z := Option.some.inj (e.symm.trans hz)
  obtain rfl : ((0 : Rat) : ℝ) = z' := Option.some.inj (e.symm.trans hz')
  have f0 : (0 : ℝ) < f := by simpa using hfz
  have p0 : (0 : ℝ) < p := by simpa using hpz
  have d1 : 2 * Real.pi * f ≠ 0 := by positivity
  have d2 : 1 / (2 * Real.pi * f) + p ≠ 0 := by positivity
  have o : one.valueIn .real = some ((1 : Rat) : ℝ) := rfl
  have tau : (lpfTau fc).valueIn .real = some (1 / (2 * Real.pi * f)) := by
    unfold lpfTau lpfTauDivisor
    simpa using valueIn_real_div o (valueIn_real_mul (rfl : Scalar.twoPi.valueIn .real = some (2 * Real.pi)) hf) d1
  exact (hasValue_iff _ _).2 ⟨_, valueIn_real_div hp (valueIn_real_add tau hp) d2⟩

/-- What a command leaves as it was: everything but the results and the one instance it names. -/
structure KeptByCommand (s t : State) : Prop where
  build : t.build = s.build
  run : t.run = s.run
  dt : t.dt = s.dt
  bstate : t.bstate = s.bstate
  trigPrev : t.trigPrev = s.trigPrev
  bidx : t.bidx = s.bidx
  sa : t.sa = s.sa
  sb : t.sb = s.sb
  sc : t.sc = s.sc
  act : t.act = s.act
  hold : t.hold = s.hold
  buf : t.buf = s.buf
  arg : t.arg = s.arg
  net : t.net = s.net
  stepIdx : t.stepIdx = s.stepIdx
  busy : t.busy = s.busy
  rearm : t.rearm = s.rearm
  edge : t.edge = s.edge
  pins : t.pins = s.pins
  done : t.done = s.done
  hrdata : t.hrdata = s.hrdata
  inputs : t.inputs = s.inputs

/-- What a command does to the blocks: at most the one instance it names, never its configuration. -/
structure BlockStep (i : Instr) (s t : State) : Prop where
  lpf : ∀ j : Inst, i ≠ .lpf j → t.lpf[j] = s.lpf[j]
  intg : ∀ j : Inst, i ≠ .intg j → t.intg[j] = s.intg[j]
  pi : ∀ j : Inst, i ≠ .pi j → t.pi[j] = s.pi[j]
  pll : ∀ j : Inst, i ≠ .pll j → t.pll[j] = s.pll[j]
  lpfConfig : ∀ j : Inst, t.lpf[j].fc = s.lpf[j].fc ∧ t.lpf[j].dt = s.lpf[j].dt
  piConfig : ∀ j : Inst, t.pi[j].config = s.pi[j].config
  pllConfig : ∀ j : Inst, t.pll[j].pi.config = s.pll[j].pi.config

theorem keptByCommand_setRes (s : State) (r : ResRegs) : KeptByCommand s (s.setRes r) := by
  constructor <;> rfl

theorem blockStep_setRes (i : Instr) (s : State) (r : ResRegs) : BlockStep i s (s.setRes r) := by
  constructor <;> intros <;> first | exact ⟨rfl, rfl⟩ | rfl

@[simp] theorem piAfter_config (dt : Scalar) (p : PiRegs) (e : Scalar) : (piAfter dt p e).config = p.config := rfl

@[simp] theorem pllAfter_pi (dt : Scalar) (p : PllRegs) (a b c : Scalar) :
    (pllAfter dt p a b c).pi = piAfter dt p.pi (pllError p a b c) := rfl

/-- Every operation but `CYCLE` keeps all but its results and its instance (R85, R100). -/
theorem exec_command_frame {i : Instr} {s t : State} (hc : i.isCommand = true) (h : exec i s = .next t) :
    KeptByCommand s t ∧ BlockStep i s t := by
  cases i with
  | clarke =>
    obtain ⟨a, b, c, -, -, -, rfl⟩ := execClarke_next.1 h
    exact ⟨keptByCommand_setRes _ _, blockStep_setRes _ _ _⟩
  | park =>
    obtain ⟨_, a, b, c, -, -, -, -, rfl⟩ := execPark_next.1 h
    exact ⟨keptByCommand_setRes _ _, blockStep_setRes _ _ _⟩
  | ipark =>
    obtain ⟨_, a, b, c, -, -, -, -, rfl⟩ := execIpark_next.1 h
    exact ⟨keptByCommand_setRes _ _, blockStep_setRes _ _ _⟩
  | lpf i =>
    obtain ⟨-, x, -, -, -, rfl⟩ := execLpf_next.1 h
    refine ⟨by constructor <;> rfl, ?_⟩
    constructor <;> intro j
    · intro hj
      have : i ≠ j := fun e => hj (by rw [e])
      exact Bank.put_ne _ _ this
    · intro _; rfl
    · intro _; rfl
    · intro _; rfl
    · simp only [State.setRes_lpf, State.setLpf_lpf, Bank.put_get]
      split
      · rename_i e; subst e; exact ⟨rfl, rfl⟩
      · exact ⟨rfl, rfl⟩
    · rfl
    · rfl
  | intg i =>
    obtain ⟨-, a, b, c, -, -, -, rfl⟩ := execIntg_next.1 h
    refine ⟨by constructor <;> rfl, ?_⟩
    constructor <;> intro j
    · intro _; rfl
    · intro hj
      have : i ≠ j := fun e => hj (by rw [e])
      exact Bank.put_ne _ _ this
    · intro _; rfl
    · intro _; rfl
    · exact ⟨rfl, rfl⟩
    · rfl
    · rfl
  | pi i =>
    obtain ⟨-, a, -, rfl⟩ := execPi_next.1 h
    refine ⟨by constructor <;> rfl, ?_⟩
    constructor <;> intro j
    · intro _; rfl
    · intro _; rfl
    · intro hj
      have : i ≠ j := fun e => hj (by rw [e])
      exact Bank.put_ne _ _ this
    · intro _; rfl
    · exact ⟨rfl, rfl⟩
    · simp only [State.setRes_pi, State.setPi_pi, Bank.put_get]
      split
      · rename_i e; subst e; rfl
      · rfl
    · rfl
  | pll i =>
    obtain ⟨-, a, b, c, -, -, -, rfl⟩ := execPll_next.1 h
    refine ⟨by constructor <;> rfl, ?_⟩
    constructor <;> intro j
    · intro _; rfl
    · intro _; rfl
    · intro _; rfl
    · intro hj
      have : i ≠ j := fun e => hj (by rw [e])
      exact Bank.put_ne _ _ this
    · exact ⟨rfl, rfl⟩
    · rfl
    · simp only [State.setRes_pll, State.setPll_pll, Bank.put_get]
      split
      · rename_i e; subst e; rfl
      · rfl
  | cycle t => cases hc

/-- A command word never decodes to the event `CYCLE` (R82, R83). -/
theorem decodeCommand_isCommand {w : BitVec 8} {i : Instr} (h : decodeCommand w = .ok i) : i.isCommand = true := by
  unfold decodeCommand at h
  split at h <;>
    first
    | (cases h; rfl)
    | cases h
    | (unfold stateless at h; split at h <;> first | (cases h; rfl) | cases h)

/-- Inside a cycle an operation runs as `exec` runs it. -/
theorem runCommand_eq_exec {i : Instr} (h : i.isCommand = true) (s : State) : runCommand i s = exec i s := by
  cases i <;> first | rfl | cases h

/-- Issuing a step inside a cycle is issuing it with `exec`. -/
theorem issueWith_runCommand (st : WireStep) (s : State) : issueWith runCommand st s = issueWith exec st s := by
  unfold issueWith
  split
  · rfl
  · rename_i i h; rw [runCommand_eq_exec (decodeCommand_isCommand h)]

/-- What the issue of a step does when it answers a next state (R93). -/
theorem issueWith_next {st : WireStep} {s t : State} : issueWith exec st s = .next t ↔
    ∃ i u, decodeCommand st.cmd = .ok i ∧ exec i (s.setArg (argsOf s st.args)) = .next u ∧
      t = (u.setNet (storeResults u.res st.dst 0 u.net)).setStep (u.stepIdx + 1) := by
  unfold issueWith
  split
  · rename_i h; simp [h]
  · rename_i i h
    rw [andThen_next]
    simp only [h, Except.ok.injEq, Host.Outcome.next.injEq]
    constructor
    · rintro ⟨u, h1, rfl⟩; exact ⟨i, u, rfl, h1, rfl⟩
    · rintro ⟨j, u, rfl, h1, rfl⟩; exact ⟨u, h1, rfl⟩

/-- What one issued step leaves as it was. -/
structure KeptByIssue (s t : State) : Prop where
  build : t.build = s.build
  run : t.run = s.run
  dt : t.dt = s.dt
  bstate : t.bstate = s.bstate
  trigPrev : t.trigPrev = s.trigPrev
  bidx : t.bidx = s.bidx
  sa : t.sa = s.sa
  sb : t.sb = s.sb
  sc : t.sc = s.sc
  act : t.act = s.act
  hold : t.hold = s.hold
  buf : t.buf = s.buf
  busy : t.busy = s.busy
  rearm : t.rearm = s.rearm
  edge : t.edge = s.edge
  pins : t.pins = s.pins
  done : t.done = s.done
  hrdata : t.hrdata = s.hrdata
  inputs : t.inputs = s.inputs
  lpfConfig : ∀ j : Inst, t.lpf[j].fc = s.lpf[j].fc ∧ t.lpf[j].dt = s.lpf[j].dt
  piConfig : ∀ j : Inst, t.pi[j].config = s.pi[j].config
  pllConfig : ∀ j : Inst, t.pll[j].pi.config = s.pll[j].pi.config

theorem KeptByIssue.refl (s : State) : KeptByIssue s s := by
  constructor <;> intros <;> first | exact ⟨rfl, rfl⟩ | rfl

theorem KeptByIssue.trans {s t u : State} (h : KeptByIssue s t) (g : KeptByIssue t u) : KeptByIssue s u where
  build := g.build.trans h.build
  run := g.run.trans h.run
  dt := g.dt.trans h.dt
  bstate := g.bstate.trans h.bstate
  trigPrev := g.trigPrev.trans h.trigPrev
  bidx := g.bidx.trans h.bidx
  sa := g.sa.trans h.sa
  sb := g.sb.trans h.sb
  sc := g.sc.trans h.sc
  act := g.act.trans h.act
  hold := g.hold.trans h.hold
  buf := g.buf.trans h.buf
  busy := g.busy.trans h.busy
  rearm := g.rearm.trans h.rearm
  edge := g.edge.trans h.edge
  pins := g.pins.trans h.pins
  done := g.done.trans h.done
  hrdata := g.hrdata.trans h.hrdata
  inputs := g.inputs.trans h.inputs
  lpfConfig j := ⟨(g.lpfConfig j).1.trans (h.lpfConfig j).1, (g.lpfConfig j).2.trans (h.lpfConfig j).2⟩
  piConfig j := (g.piConfig j).trans (h.piConfig j)
  pllConfig j := (g.pllConfig j).trans (h.pllConfig j)

/-- One issued step: what it keeps, where `step` goes, the instance it may have written, the nets' form. -/
theorem issueWith_frame {st : WireStep} {s t : State} (h : issueWith exec st s = .next t) :
    KeptByIssue s t ∧ t.stepIdx = s.stepIdx + 1 ∧
      (Cells.wf s.net = true → Cells.wf t.net = true) ∧
      ∃ i, decodeCommand st.cmd = .ok i ∧ BlockStep i s t := by
  obtain ⟨i, u, hd, hu, rfl⟩ := issueWith_next.1 h
  obtain ⟨hk, hb⟩ := exec_command_frame (decodeCommand_isCommand hd) hu
  refine ⟨?_, ?_, ?_, i, hd, ?_⟩
  · exact
      { build := hk.build, run := hk.run, dt := hk.dt, bstate := hk.bstate, trigPrev := hk.trigPrev, bidx := hk.bidx,
        sa := hk.sa, sb := hk.sb, sc := hk.sc, act := hk.act, hold := hk.hold, buf := hk.buf, busy := hk.busy,
        rearm := hk.rearm,
        edge := hk.edge, pins := hk.pins, done := hk.done, hrdata := hk.hrdata, inputs := hk.inputs,
        lpfConfig := hb.lpfConfig, piConfig := hb.piConfig, pllConfig := hb.pllConfig }
  · simp only [State.setStep_stepIdx, hk.stepIdx, State.setArg_stepIdx]
  · intro hw
    simp only [State.setStep_net, State.setNet_net]
    exact storeResults_wf _ _ _ (by rw [hk.net]; exact hw)
  · exact
      { lpf := hb.lpf, intg := hb.intg, pi := hb.pi, pll := hb.pll, lpfConfig := hb.lpfConfig,
        piConfig := hb.piConfig, pllConfig := hb.pllConfig }

/-- The chain is the issue of its first step and then the rest of it. -/
theorem runSteps_cons_next {st : WireStep} {rest : List WireStep} {s t : State} :
    runSteps (st :: rest) s = .next t ↔ ∃ u, issueWith exec st s = .next u ∧ runSteps rest u = .next t := by
  rw [runSteps, andThen_next, issueWith_runCommand]

/-- What every issued step keeps, the chain keeps. -/
theorem runSteps_induct {p : State → State → Prop} (refl : ∀ s, p s s) (trans : ∀ {s t u}, p s t → p t u → p s u)
    {steps : List WireStep} {s t : State}
    (one : ∀ st ∈ steps, ∀ {u v}, issueWith exec st u = .next v → p u v)
    (h : runSteps steps s = .next t) : p s t := by
  induction steps generalizing s with
  | nil => cases h; exact refl _
  | cons st rest ih =>
    obtain ⟨u, h1, h2⟩ := runSteps_cons_next.1 h
    exact trans (one st List.mem_cons_self h1) (ih (fun w hw _ _ => one w (List.mem_cons_of_mem _ hw)) h2)

/-- What the chain leaves as it was. -/
theorem runSteps_frame {steps : List WireStep} {s t : State} (h : runSteps steps s = .next t) : KeptByIssue s t :=
  runSteps_induct KeptByIssue.refl KeptByIssue.trans (fun _ _ _ _ h1 => (issueWith_frame h1).1) h

/-- Where `step` stands after the chain (R22). -/
theorem runSteps_stepIdx {steps : List WireStep} {s t : State} (h : runSteps steps s = .next t) :
    t.stepIdx = s.stepIdx + steps.length := by
  induction steps generalizing s with
  | nil => cases h; rfl
  | cons st rest ih =>
    obtain ⟨u, h1, h2⟩ := runSteps_cons_next.1 h
    rw [ih h2, (issueWith_frame h1).2.1, List.length_cons]; omega

/-- The chain keeps the nets' canonical form. -/
theorem runSteps_netWf {steps : List WireStep} {s t : State} (h : runSteps steps s = .next t)
    (hw : Cells.wf s.net = true) : Cells.wf t.net = true :=
  runSteps_induct (p := fun u v => Cells.wf u.net = true → Cells.wf v.net = true) (fun _ h => h)
    (fun h g hu => g (h hu)) (fun _ _ _ _ h1 => (issueWith_frame h1).2.2.1) h hw

/-- The chain of `exec`'s issue is the chain. -/
theorem execCycle_next {tr : Bool} {s t : State} : execCycle tr s = .next t ↔
    (s.takesTick = false ∧ t = s) ∨
    (s.takesTick = true ∧ ∃ u, runSteps s.build.wiring.steps (s.enterCycle tr) = .next u ∧ leaveCycle u = .next t) := by
  unfold execCycle
  cases h : s.takesTick
  · simp [eq_comm]
  · simp [andThen_next]

end Sys2Proof.Machine
end

