-- ==== Sys2Proof/Laws/HostPort.lean ====
section
/-! SUPPORT. Everything a host access can do, once (R185, R186), and the same for one `clk` edge. -/

namespace Sys2Proof.Machine

/-- The three fields of a `REG` address (R61). -/
theorem regAddress_fields : ∀ blk i r : BitVec 4, (blk ++ i ++ r).extractLsb' 8 4 = blk ∧
    (blk ++ i ++ r).extractLsb' 4 4 = i ∧ (blk ++ i ++ r).extractLsb' 0 4 = r := by decide +kernel

/-- The register at a `REG` address, from its three fields (R61, R62). -/
theorem decodeReg_fields (b : Build) (blk : BitVec 4) (i r : Inst) :
    decodeReg b (blk ++ BitVec.ofFin (w := 4) i ++ BitVec.ofFin (w := 4) r) =
      match blk.toNat with
      | 0 => onlyIf (i = 0) (globalReg r.val)
      | 1 => onlyIf (i = 0 && decide (r.val < b.nAct)) (some (.act r))
      | 2 => onlyIf (i = 0 && decide (r.val < b.nHold)) (some (.hold r))
      | 4 => onlyIf (decide (i.val < b.nLpf)) (lpfReg i r.val)
      | 5 => onlyIf (decide (i.val < b.nIntg) && decide (r.val = 0)) (some (.intgAcc i))
      | 6 => onlyIf (decide (i.val < b.nPi)) ((piRegOf r.val).map (.pi i))
      | 7 => onlyIf (decide (i.val < b.nPll)) (pllReg i r.val)
      | _ => none := by
  obtain ⟨h1, h2, h3⟩ := regAddress_fields blk (BitVec.ofFin (w := 4) i) (BitVec.ofFin (w := 4) r)
  unfold decodeReg
  simp only [h1, h2, h3] <;> rfl

/-- A host write answers a next state in one of these ways only. -/
inductive HostEffect (s : State) : State → Prop
  /-- It changes nothing. -/
  | nothing : HostEffect s s
  /-- A read: `hrdata` answers it. -/
  | read (v : Option Elem) : HostEffect s { s with hrdata := v }
  /-- A write in INIT mode, with no cycle in progress, to a register the host may write. -/
  | stored (a : BitVec 12) (r : RegName) (d : HostData) (init : s.run = false) (idle : s.busy = false)
      (mapped : decodeReg s.build a = some r) (writable : r.initWritable = true) : HostEffect s (storeReg s r d)
  /-- STOP, or a write of 0 in INIT mode. -/
  | stopped : HostEffect s { s with run := false }
  /-- START. -/
  | started (init : s.run = false) (idle : s.busy = false) (wf : buildWf s.build = true) (valid : validConfig s = true) :
      HostEffect s s.started
  /-- START while a cycle is in progress. -/
  | startedInCycle (init : s.run = false) (busy : s.busy = true) (wf : buildWf s.build = true)
      (valid : validConfig s = true) : HostEffect s s.startedInCycle

theorem startRun_next {s t : State} : startRun s = .next t ↔
    buildWf s.build = true ∧ validConfig s = true ∧
      t = if s.busy then s.startedInCycle else s.started := by
  unfold startRun validConfig
  split
  · rename_i hw
    split
    · rename_i w hc; simp [hc]
    · rename_i hc
      simp only [hc, hw, Option.isNone_none, true_and]
      rw [Host.Outcome.next.injEq, eq_comm]
  · rename_i hw; simp [hw]

/-- What a host access does when it answers a next state. -/
theorem hostAccess_effect {s t : State} {a : HostAccess} (h : hostAccess s a = .next t) : HostEffect s t := by
  unfold hostAccess at h
  split at h
  · unfold memWrite at h
    split at h
    · cases h; exact .nothing
    · split at h
      · cases h; exact .nothing
      · rename_i r hr
        unfold writeReg at h
        split at h
        · unfold writeCtrl at h
          split at h
          · split at h
            · cases h; exact .nothing
            · rename_i hrun
              obtain ⟨h1, h2, rfl⟩ := startRun_next.1 h
              split
              · rename_i hb; exact .startedInCycle (by simpa using hrun) hb h1 h2
              · rename_i hb; exact .started (by simpa using hrun) (by simpa using hb) h1 h2
          · cases h; exact .stopped
        · split at h
          · rename_i hc
            simp only [Bool.and_eq_true, Bool.not_eq_true'] at hc
            cases h
            exact .stored _ r _ hc.1.2 hc.2 hr hc.1.1
          · cases h; exact .nothing
  · cases h; exact .read _

/-- What a write to a register leaves as it was, whatever the register. -/
structure KeptByStore (s t : State) : Prop where
  build : t.build = s.build
  run : t.run = s.run
  bstate : t.bstate = s.bstate
  trigPrev : t.trigPrev = s.trigPrev
  bidx : t.bidx = s.bidx
  sa : t.sa = s.sa
  sb : t.sb = s.sb
  sc : t.sc = s.sc
  buf : t.buf = s.buf
  arg : t.arg = s.arg
  res : t.res = s.res
  net : t.net = s.net
  stepIdx : t.stepIdx = s.stepIdx
  busy : t.busy = s.busy
  rearm : t.rearm = s.rearm
  edge : t.edge = s.edge
  pins : t.pins = s.pins
  done : t.done = s.done
  hrdata : t.hrdata = s.hrdata
  inputs : t.inputs = s.inputs

theorem storeReg_frame (s : State) (r : RegName) (d : HostData) : KeptByStore s (storeReg s r d) := by
  cases r <;> constructor <;> rfl

/-- What one `clk` edge does when it answers a next state: reset; or the host's part, then the driver's. -/
theorem clockEdge_next {e : PortEdge} {s t : State} : clockEdge e s = .next t ↔
    (e.rstN = false ∧ t = s.afterReset e.pins) ∨
    (e.rstN = true ∧ ∃ u, hostEdge e (s.atEdge e.pins) = .next u ∧ driverEdge e u = .next t) := by
  unfold clockEdge
  cases e.rstN
  · simp [eq_comm]
  · simp [andThen_next]

theorem hostEdge_effect {e : PortEdge} {s t : State} (h : hostEdge e s = .next t) : HostEffect s t := by
  unfold hostEdge at h
  split at h
  · cases h; exact .nothing
  · exact hostAccess_effect h

/-- What the driver's part of an edge does when it answers a next state. -/
inductive DriverEffect (s : State) : State → Prop
  /-- No event, or a tick that starts no cycle. -/
  | nothing : DriverEffect s s
  /-- The next command of the cycle in progress. -/
  | issued (st : WireStep) (t : State) (busy : s.busy = true) (at_ : s.build.wiring.steps[s.stepIdx]? = some st)
      (h : issueWith exec st s = .next t) : DriverEffect s t
  /-- The epilogue of the cycle in progress. -/
  | left (t : State) (busy : s.busy = true) (at_ : s.build.wiring.steps[s.stepIdx]? = none)
      (h : leaveCycle s = .next t) : DriverEffect s t
  /-- The prologue of a cycle that later edges fall into. -/
  | opened (tr : Bool) (takes : s.takesTick = true) : DriverEffect s (s.enterCycle tr)
  /-- A whole cycle. -/
  | cycled (tr : Bool) (u t : State) (takes : s.takesTick = true)
      (chain : runSteps s.build.wiring.steps (s.enterCycle tr) = .next u) (h : leaveCycle u = .next t) : DriverEffect s t

/-- The decoder of event words knows one event. -/
theorem decodeEvent_ok {w : BitVec 2} {i : Instr} : decodeEvent w = .ok i ↔
    w.getLsbD 1 = true ∧ i = .cycle (w.getLsbD 0) := by
  unfold decodeEvent
  split
  · rename_i h
    exact ⟨fun e => ⟨h, (Except.ok.inj e).symm⟩, fun e => congrArg Except.ok e.2.symm⟩
  · rename_i h
    exact ⟨(nomatch ·), fun e => absurd e.1 h⟩

theorem driverEdge_effect {e : PortEdge} {s t : State} (h : driverEdge e s = .next t) : DriverEffect s t := by
  unfold driverEdge at h
  split at h
  · rename_i hb
    unfold advance at h
    split at h
    · rename_i st hs; exact .issued st t hb hs h
    · rename_i hs; exact .left t hb hs h
  · split at h
    · cases h; exact .nothing
    · rename_i i hi
      obtain ⟨-, rfl⟩ := decodeEvent_ok.1 hi
      split at h
      · unfold openCycle at h
        split at h
        · rename_i ht; cases h; exact .opened _ ht
        · cases h; exact .nothing
      · rcases execCycle_next.1 h with ⟨-, rfl⟩ | ⟨ht, u, h1, h2⟩
        · exact .nothing
        · exact .cycled _ u t ht h1 h2

/-- `step` is one `clk` edge, of the head of `inputs` or a quiet one. -/
theorem step_eq (s : State) : step s =
    (match s.inputs with
     | [] => clockEdge (PortEdge.quiet s.pins) s
     | e :: rest => clockEdge e { s with inputs := rest }) := rfl

/-- At an edge with nothing else a core with a cycle in progress goes on by its next command or its epilogue. -/
theorem step_busy {s : State} (hi : s.inputs = []) (hb : s.busy = true) : step s = advance (s.atEdge s.pins) := by
  rw [step_eq]
  simp only [hi, clockEdge, PortEdge.quiet, if_true, hostEdge, andThen, driverEdge, State.atEdge_busy, hb]

end Sys2Proof.Machine
end

