-- ==== Sys2Proof/Laws/PerInstr.lean ====
section
/-! SUPPORT. The statements made per instruction: a family's `Statement` and one lemma per constructor. -/

namespace Sys2Proof.Laws.OperandShape

/-- An operation names at most four operand registers and three result registers (R21, R84), and the event
`CYCLE`, which is no command, names none. -/
def Statement (i : Sys2Proof.Instr) : Prop :=
  i.argCount ≤ 4 ∧ i.resCount ≤ 3 ∧ (i.isCommand = true ↔ 1 ≤ i.argCount) ∧ (i.isCommand = true ↔ 1 ≤ i.resCount)

theorem clarke : Statement .clarke := by unfold Statement; decide
theorem park : Statement .park := by unfold Statement; decide
theorem ipark : Statement .ipark := by unfold Statement; decide
theorem lpf : ∀ i, Statement (.lpf i) := by unfold Statement; decide
theorem intg : ∀ i, Statement (.intg i) := by unfold Statement; decide
theorem pi : ∀ i, Statement (.pi i) := by unfold Statement; decide
theorem pll : ∀ i, Statement (.pll i) := by unfold Statement; decide
theorem cycle : ∀ t, Statement (.cycle t) := by unfold Statement; decide

end Sys2Proof.Laws.OperandShape
end

