-- ==== Sys2Proof/Machine/ReferenceWirings.lean ====
section
/-! DEFINITION. The three reference wirings of spec/44_cycle_driver.md section 3 and the builds they are the wirings
of (R151, R152, R153). An application is a value of the parameter `WIRING` with its counts, and nothing else sets one
apart from another (R154). The rules give no buffer, so `BUF_EN` and `BUF_CAP` are arguments; the numerics are the
reference instance. -/

namespace Sys2Proof.Machine

/-- `W_PLL` (R151): the angle and the frequency of the line. -/
def wiringPll : Wiring :=
  { steps := [{ cmd := 0x70#8, args := [.sa, .sb, .sc], dst := [some 0, some 1, some 2] }],
    actSrc := [0, 2], holdSrc := [] }

/-- `W_PI` (R152): one filtered error signal regulated by one PI controller. -/
def wiringPi : Wiring :=
  { steps := [{ cmd := 0x40#8, args := [.sa], dst := [some 0] },
              { cmd := 0x60#8, args := [.net 0], dst := [some 1] }],
    actSrc := [1], holdSrc := [] }

/-- `W_ALL` (R153): every operation once. -/
def wiringAll : Wiring :=
  { steps := [{ cmd := 0x70#8, args := [.sa, .sb, .sc], dst := [some 0, some 1, some 2] },
              { cmd := 0x10#8, args := [.sa, .sb, .sc], dst := [some 3, some 4] },
              { cmd := 0x20#8, args := [.net 0, .sa, .sb, .sc], dst := [some 5, some 6, some 7] },
              { cmd := 0x40#8, args := [.net 6], dst := [some 8] },
              { cmd := 0x60#8, args := [.net 8], dst := [some 9] },
              { cmd := 0x50#8, args := [.net 2, .hold 0, .dt], dst := [some 10] },
              { cmd := 0x30#8, args := [.net 0, .net 5, .net 9, .const zero], dst := [some 11, some 12, some 13] }],
    actSrc := [11, 12, 13, 10], holdSrc := [2] }

/-- The line-tracking application (R151). -/
def referencePll (bufEn : Bool) (bufCap : Nat) : Build :=
  { num := .real, nLpf := 0, nIntg := 0, nPi := 0, nPll := 1, bufEn := bufEn, bufCap := bufCap, wiring := wiringPll }

/-- The speed-loop or current-loop application (R152). -/
def referencePi (bufEn : Bool) (bufCap : Nat) : Build :=
  { num := .real, nLpf := 1, nIntg := 0, nPi := 1, nPll := 0, bufEn := bufEn, bufCap := bufCap, wiring := wiringPi }

/-- The test application that uses every operation (R153). -/
def referenceAll (bufEn : Bool) (bufCap : Nat) : Build :=
  { num := .real, nLpf := 1, nIntg := 1, nPi := 1, nPll := 1, bufEn := bufEn, bufCap := bufCap, wiring := wiringAll }

end Sys2Proof.Machine
end

