-- ==== Sys2Proof/Tests/Slice0.lean ====
section
/-! SUPPORT. Tests: the smoke test of WellFormed, words written out from the encoding tables, one step of each
operation against the spec's own vectors (spec/95_test_vectors.md), and a witness for the hypotheses of every
statement that has some. -/

namespace Sys2Proof.Tests

open Sys2Proof Sys2Proof.Machine

/-! ## Builds and states -/

/-- `W_ALL` (R153), with a buffer of two entries. -/
def buildAll : Build := referenceAll true 2

/-- `W_ALL` without a buffer. -/
def buildPlain : Build := referenceAll false 0

/-- `W_PI` (R152), without a buffer. -/
def buildPi : Build := referencePi false 0

/-- `W_PLL` (R151), with a buffer of one entry. -/
def buildPll : Build := referencePll true 1

/-- A rational from an integer and a denominator, as the kernel evaluates it. -/
def rat (n : Int) (d : Nat) : Scalar := .div (.lit n) (.lit d)

/-- The PI configuration of the first table of section 2.6, with literals. -/
def piTable : PiRegs :=
  { kp := .lit 2, ki := .lit 4, outLo := .lit (-5), outHi := .lit 5, intLo := .lit (-1), intHi := .lit 1,
    clampEn := { intEn := true, outEn := true }, acc := zero, eprev := zero }

/-- A running core of build `b`, instance 0 of each block configured, with operands 1, 2, 3, 4. -/
def ready (b : Build) : State :=
  { (((State.resetOf b).setLpf 0 { fc := .lit 10, dt := one, y := zero }).setPi 0 piTable).setPll 0
      { pi := piTable, theta := zero, omega := zero, freq := zero } with
    run := true, dt := one,
    arg := { arg0 := some (.lit 1), arg1 := some (.lit 2), arg2 := some (.lit 3), arg3 := some (.lit 4) } }

/-- A running core of build `b` between cycles with the trigger history and the buffer machine given (P4). -/
def atTick (b : Build) (prev : Bool) (st : BState) (n : Nat) : State :=
  { ready b with trigPrev := prev, bstate := st, bidx := n, pins := { sa := .lit 30, sb := .lit 31, sc := .lit 32 } }

/-- A state with four operands. -/
def withArgs (s : State) (a b c d : Scalar) : State :=
  s.setArg { arg0 := some a, arg1 := some b, arg2 := some c, arg3 := some d }

/-- The outcome is a next state that passes a check. -/
def nextIs (o : Out) (p : State → Bool) : Bool :=
  match o with
  | .next t => p t
  | .fault _ => false
  | .refused _ => false

/-- The outcome is the fault `r`. -/
def faultIs (o : Out) (r : Fault) : Bool :=
  match o with
  | .next _ => false
  | .fault q => decide (q = r)
  | .refused _ => false

theorem exists_next {o : Out} {p : State → Bool} (h : nextIs o p = true) : ∃ t, o = .next t ∧ p t = true := by
  cases o with
  | next t => exact ⟨t, rfl, h⟩
  | fault r => cases h
  | refused r => cases h

/-- The scalar is a literal. -/
def isLit : Scalar → Bool
  | .lit _ => true
  | .sqrt3Div2 => false
  | .twoPi => false
  | .twoPiDiv3 => false
  | .free _ => false
  | .add _ _ => false
  | .sub _ _ => false
  | .mul _ _ => false
  | .div _ _ => false
  | .cos _ => false
  | .sin _ => false
  | .ifGt _ _ _ _ => false
  | .ifLt _ _ _ _ => false

theorem hasReal_of_lit {a : Scalar} (h : isLit a = true) : a.HasReal := by
  cases a <;> first | exact lit_hasReal _ | cases h

/-- The bounds of a PI controller are literals. -/
def litBounds (p : PiRegs) : Bool := isLit p.intLo && isLit p.intHi && isLit p.outLo && isLit p.outHi

/-- Every register `ValidConfig` compares holds a literal. -/
def litConfig (s : State) : Bool :=
  isLit s.dt && decide (∀ i : Inst, (isLit s.lpf[i].fc && isLit s.lpf[i].dt) = true) &&
  decide (∀ i : Inst, litBounds s.pi[i] = true) && decide (∀ i : Inst, litBounds s.pll[i].pi = true)

theorem hasReal_of_litBounds {p : PiRegs} (h : litBounds p = true) :
    p.intLo.HasReal ∧ p.intHi.HasReal ∧ p.outLo.HasReal ∧ p.outHi.HasReal := by
  simp only [litBounds, Bool.and_eq_true] at h
  exact ⟨hasReal_of_lit h.1.1.1, hasReal_of_lit h.1.1.2, hasReal_of_lit h.1.2, hasReal_of_lit h.2⟩

theorem configHasReal_of_lit {s : State} (h : litConfig s = true) : ConfigHasReal s := by
  simp only [litConfig, Bool.and_eq_true, decide_eq_true_eq] at h
  obtain ⟨⟨⟨h1, h2⟩, h3⟩, h4⟩ := h
  exact ⟨hasReal_of_lit h1, fun i => ⟨hasReal_of_lit (h2 i).1, hasReal_of_lit (h2 i).2⟩,
    fun i => hasReal_of_litBounds (h3 i), fun i => hasReal_of_litBounds (h4 i)⟩

/-- The scalar is the integer `n`. -/
def isInt (x : Scalar) (n : Int) : Bool := (encl x).any (·.isInt n)

/-- The result register holds the integer `n`. -/
def resIs (v : Option Scalar) (n : Int) : Bool := v.any fun x => isInt x n

/-- The scalar lies between two others. -/
def between (lo x hi : Scalar) : Bool := knownGt x lo && knownGt hi x

/-! ## WellFormed refuses each ill-formed term (R5, R82, R87) -/

theorem test_wf_lpf_refused : Instr.wf buildAll (.lpf 1) = false := by decide
theorem test_wf_intg_refused : Instr.wf buildAll (.intg 1) = false := by decide
theorem test_wf_pi_refused : Instr.wf buildAll (.pi 15) = false := by decide
theorem test_wf_pll_refused : Instr.wf buildAll (.pll 1) = false := by decide
theorem test_wf_accepted : Instr.wf buildAll (.lpf 0) = true ∧ Instr.wf buildAll .park = true := by decide
theorem test_build_counts_refused :
    Build.inRange { buildAll with nLpf := 17 } = false ∧ Build.inRange { buildAll with nIntg := 17 } = false ∧
    Build.inRange { buildAll with nPi := 17 } = false ∧ Build.inRange { buildAll with nPll := 17 } = false := by decide
theorem test_build_outputs_refused :
    Build.inRange { buildAll with wiring := { steps := wiringAll.steps, actSrc := [], holdSrc := [] } } = false ∧
    Build.inRange { buildAll with wiring := { steps := wiringAll.steps, actSrc := List.replicate 17 0, holdSrc := [] } } = false ∧
    Build.inRange { buildAll with wiring := { steps := wiringAll.steps, actSrc := [0], holdSrc := List.replicate 17 0 } } =
      false := by decide
theorem test_build_buffer_refused :
    Build.inRange { buildAll with bufCap := 0 } = false ∧ Build.inRange { buildAll with bufCap := 16385 } = false ∧
    Build.inRange { buildAll with bufEn := false, bufCap := 0 } = true := by decide

/-- `buildAll` with other steps. -/
def withSteps (steps : List WireStep) : Build :=
  { buildAll with wiring := { steps := steps, actSrc := [0], holdSrc := [0] } }

/-- A step that is well formed: `LPF 0 n0 <- SA`. -/
def goodStep : WireStep := { cmd := 0x40#8, args := [.sa], dst := [some 0] }

theorem test_wiring_accepted :
    buildWf buildAll = true ∧ buildWf buildPi = true ∧ buildWf buildPll = true ∧
    buildWf (withSteps [goodStep]) = true := by decide
/-- `N_NET`, `N_ACT`, `N_HOLD` of the reference wirings, the operations they name, and a cycle of `W_PI` that
drives output 0 (R151, R152, R153). -/
theorem test_reference_wirings :
    [netCount wiringPll, netCount wiringPi, netCount wiringAll] = [3, 2, 14] ∧
    [buildPll.nAct, buildPi.nAct, buildAll.nAct] = [2, 1, 4] ∧
    [buildPll.nHold, buildPi.nHold, buildAll.nHold] = [0, 0, 1] ∧
    wiringInstrs wiringPll = [.pll 0] ∧ wiringInstrs wiringPi = [.lpf 0, .pi 0] ∧
    wiringInstrs wiringAll = [.pll 0, .clarke, .park, .lpf 0, .pi 0, .intg 0, .ipark] ∧
    nextIs (exec (.cycle false) (atTick buildPi true .idle 0))
      (fun t => t.done && (t.net.read 1).isSome && decide (t.act[0] ≠ zero)) = true := by decide +kernel
/-- R92 (a): a reserved operation, a stateless operation with an instance, an instance that does not exist. -/
theorem test_wiring_command_refused :
    buildWf (withSteps [{ goodStep with cmd := 0x80#8 }]) = false ∧
    buildWf (withSteps [{ cmd := 0x11#8, args := [.sa, .sb, .sc], dst := [some 0, none] }]) = false ∧
    buildWf (withSteps [{ goodStep with cmd := 0x43#8 }]) = false := by decide
/-- R92 (b): a source or a destination too many. -/
theorem test_wiring_shape_refused :
    buildWf (withSteps [{ goodStep with args := [.sa, .sb] }]) = false ∧
    buildWf (withSteps [{ goodStep with dst := [some 0, none] }]) = false := by decide
/-- R92 (c): a net read before a step writes it, and an output from a net no step writes. -/
theorem test_wiring_source_refused :
    buildWf (withSteps [{ goodStep with args := [.net 0] }]) = false ∧
    buildWf { withSteps [goodStep] with wiring := { steps := [goodStep], actSrc := [1], holdSrc := [] } } = false ∧
    buildWf { withSteps [goodStep] with wiring := { steps := [goodStep], actSrc := [0], holdSrc := [1] } } = false := by
  decide
/-- R92 (d): a net written twice. -/
theorem test_wiring_net_refused :
    buildWf (withSteps [goodStep, { cmd := 0x60#8, args := [.sa], dst := [some 0] }]) = false ∧
    buildWf (withSteps [{ cmd := 0x10#8, args := [.sa, .sb, .sc], dst := [some 0, some 0] }]) = false := by decide
/-- R92 (e): a stateful instance named twice; a stateless operation may be. -/
theorem test_wiring_instance_refused :
    buildWf (withSteps [goodStep, { goodStep with dst := [some 1] }]) = false ∧
    buildWf (withSteps [{ cmd := 0x10#8, args := [.sa, .sb, .sc], dst := [some 0, none] },
      { cmd := 0x10#8, args := [.sa, .sb, .sc], dst := [some 1, none] }]) = true := by decide
/-- R92 (f): a hold latch that does not exist. -/
theorem test_wiring_hold_refused : buildWf (withSteps [{ goodStep with args := [.hold 1] }]) = false := by decide

/-! ## Words written out from the encoding tables (R81, R82, R83; section 2.9) -/

theorem test_word_clarke : decode (.command 0b00010000#8) = .ok .clarke := by decide
theorem test_word_park : decode (.command 0b00100000#8) = .ok .park := by decide
theorem test_word_ipark : decode (.command 0b00110000#8) = .ok .ipark := by decide
theorem test_word_lpf : decode (.command 0b01000011#8) = .ok (.lpf 3) := by decide
theorem test_word_intg : decode (.command 0b01011111#8) = .ok (.intg 15) := by decide
theorem test_word_pi : decode (.command 0b01100000#8) = .ok (.pi 0) := by decide
theorem test_word_pll : decode (.command 0b01110001#8) = .ok (.pll 1) := by decide
theorem test_word_cycle : decode (.event 0b10#2) = .ok (.cycle false) ∧ decode (.event 0b11#2) = .ok (.cycle true) := by
  decide
theorem test_word_reserved :
    decode (.command 0x00#8) = .error (.illegalOp 0x00#8) ∧ decode (.command 0x0A#8) = .error (.illegalOp 0x0A#8) ∧
    decode (.command 0x80#8) = .error (.illegalOp 0x80#8) ∧ decode (.command 0xFF#8) = .error (.illegalOp 0xFF#8) ∧
    decode (.command 0x21#8) = .error (.badInstance 0x21#8) ∧ decode (.event 0b01#2) = .error (.noEvent 0b01#2) := by
  decide
theorem test_table_words :
    decodeTableWord 8 0x10 = some .clarke ∧ decodeTableWord 8 0x73 = some (.pll 3) ∧
    decodeTableWord 8 3 = some (.cycle true) ∧ decodeTableWord 2 2 = some (.cycle false) ∧
    decodeTableWord 8 0 = none ∧ decodeTableWord 8 0xF0 = none := by decide

/-- The addresses of section 2.9. -/
theorem test_addresses :
    decodeReg buildAll 0x000#12 = some .ctrl ∧ decodeReg buildAll 0x003#12 = some .bidx ∧
    decodeReg buildAll 0x101#12 = some (.act 1) ∧ decodeReg buildAll 0x200#12 = some (.hold 0) ∧
    decodeReg buildAll 0x402#12 = some (.lpfY 0) ∧ decodeReg buildAll 0x412#12 = none ∧
    decodeReg buildAll 0x608#12 = some (.pi 0 .eprev) ∧ decodeReg buildAll 0x701#12 = some (.pllPi 0 .ki) ∧
    decodeReg buildAll 0x70B#12 = some (.freq 0) ∧ decodeReg buildAll 0x70C#12 = none ∧
    decodeReg buildAll 0x010#12 = none ∧ decodeReg buildAll 0x300#12 = none ∧ decodeReg buildAll 0x501#12 = none := by
  decide

/-- The word of every row is fetched and run by the next step, from reset. -/
theorem test_fetch_words :
    [0x10, 0x20, 0x30, 0x40, 0x5F, 0x60, 0x71, 2, 3].all
      (fun w => nextIs (step (State.reset.withFetchWord 8 w)) fun _ => true) = true := by
  decide +kernel

/-! ## One step of each operation -/

/-- Section 2.3, one phase alone: `alpha = 2a/3`, `beta = 0`. -/
theorem test_clarke_one_phase :
    nextIs (exec .clarke (withArgs (ready buildAll) (.lit 3) zero zero zero))
      (fun t => resIs t.res.res0 2 && resIs t.res.res1 0 && decide (t.res.res2 = none)) = true := by decide
/-- Section 2.3: `beta > 0` for `b > c`, near `2√3/3`. -/
theorem test_clarke_sign :
    nextIs (exec .clarke (withArgs (ready buildAll) zero (.lit 1) (.lit (-1)) zero))
      (fun t => resIs t.res.res0 0 && t.res.res1.any fun x => between (rat 11547 10000) x (rat 11548 10000)) = true := by
  decide
/-- Section 2.1: three equal inputs give `d = 0`, `q = 0`, `zero = v` at angle 3. -/
theorem test_park_zero_sequence :
    nextIs (exec .park (withArgs (ready buildAll) (.lit 3) (.lit 2) (.lit 2) (.lit 2)))
      (fun t => resIs t.res.res2 2) = true := by decide
/-- Section 2.1: at angle zero phase A alone is projected on `d`, not on `q`. -/
theorem test_park_aligned :
    nextIs (exec .park (withArgs (ready buildAll) zero (.lit 3) zero zero))
      (fun t => resIs t.res.res0 2 && resIs t.res.res1 0 && resIs t.res.res2 1) = true := by decide
/-- Section 2.2: the zero sequence is added unscaled. -/
theorem test_ipark_zero_sequence :
    nextIs (exec .ipark (withArgs (ready buildAll) (.lit 7) zero zero (.lit 5)))
      (fun t => resIs t.res.res0 5 && resIs t.res.res1 5 && resIs t.res.res2 5) = true := by decide
/-- Section 2.2: `q` reaches phase `b` with the sine of `-2π/3` and phase `c` with that of `+2π/3`. -/
theorem test_ipark_phase_order :
    ∃ t, exec .ipark (withArgs (ready buildAll) zero zero (.lit 1) zero) = .next t ∧
      t.res.res1 = some (.add (.add (.mul zero (.cos (.sub zero .twoPiDiv3))) (.mul (.lit 1) (.sin (.sub zero .twoPiDiv3)))) zero) ∧
      t.res.res2 = some (.add (.add (.mul zero (.cos (.add zero .twoPiDiv3))) (.mul (.lit 1) (.sin (.add zero .twoPiDiv3)))) zero) :=
  ⟨_, rfl, rfl, rfl⟩

/-- `ready` with other registers in filter 0. -/
def withLpf (r : LpfRegs) : State := (ready buildAll).setLpf 0 r

/-- Section 2.4: `FC = 10`, `DT = 0.001`, from zero with input 1. -/
theorem test_lpf_first_update :
    nextIs (exec (.lpf 0) (withLpf { fc := .lit 10, dt := rat 1 1000, y := zero }))
      (fun t => between (rat 5911 100000) t.lpf[0].y (rat 5912 100000) && decide (t.res.res0 = some t.lpf[0].y)) = true := by
  decide
/-- Section 2.4: a zero cutoff. -/
theorem test_lpf_invalid :
    faultIs (exec (.lpf 0) (withLpf { fc := zero, dt := one, y := zero })) (.invalidConfig 4 0) = true := by decide
/-- Section 2.4: `τ + DT = 0`, with `FC = 1/2π` and `DT = -1`. -/
theorem tau_cancels_period : (lpfBlend (.div one .twoPi) (.lit (-1))).valueIn .real = none := by
  have hp := Real.pi_ne_zero
  have o : one.valueIn .real = some ((1 : Rat) : ℝ) := rfl
  have h : (Scalar.lit (-1)).valueIn .real = some ((-1 : Rat) : ℝ) := rfl
  have w : Scalar.twoPi.valueIn .real = some (2 * Real.pi) := rfl
  have fc := valueIn_real_div o w (by simp [hp])
  have tau := valueIn_real_div o (valueIn_real_mul w fc) (by simp [hp])
  have d := valueIn_real_add tau h
  unfold Scalar.valueIn at h d
  unfold Scalar.valueIn lpfBlend lpfBlendDivisor lpfTau lpfTauDivisor
  rw [evalIn_div, h, d]
  exact if_pos (by push_cast; field_simp; norm_num)
/-- Section 2.5: `ACC = 0`, `3, 1, 1/2` gives 1. -/
theorem test_intg_trapezoid :
    nextIs (exec (.intg 0) (withArgs (ready buildAll) (.lit 3) (.lit 1) half zero))
      (fun t => isInt t.intg[0].acc 1 && resIs t.res.res0 1) = true := by decide
/-- Section 2.5: `ACC = 5`, opposite values leave it. -/
theorem test_intg_opposite :
    nextIs (exec (.intg 0) ((withArgs (ready buildAll) (.lit 4) (.lit (-4)) one zero).setIntg 0 { acc := .lit 5 }))
      (fun t => isInt t.intg[0].acc 5) = true := by decide

/-- `ready` with `DT = 1/2` and the state of section 2.6 before a call. -/
def withPi (acc eprev e : Scalar) : State :=
  { (withArgs (ready buildAll) e zero zero zero).setPi 0 { piTable with acc := acc, eprev := eprev } with dt := half }

/-- Section 2.6, call 3: both clamps act. -/
theorem test_pi_both_clamps :
    nextIs (exec (.pi 0) (withPi (rat 3 4) one one))
      (fun t => isInt t.pi[0].acc 1 && resIs t.res.res0 5 && decide (t.pi[0].eprev = one)) = true := by decide
/-- Section 2.6, call 5: the accumulator leaves its bound at once. -/
theorem test_pi_leaves_bound :
    nextIs (exec (.pi 0) (withPi one (.lit (-1)) (.lit (-1))))
      (fun t => isInt (.mul (.lit 2) t.pi[0].acc) 1 && resIs t.res.res0 0) = true := by decide

/-- The state of a PLL vector of section 2.7 with `KI = 1` and no clamp, and a zero Sample. -/
def withPll (dt acc theta omega : Scalar) : State :=
  { (withArgs (ready buildAll) zero zero zero zero).setPll 0
      { pi := { piTable with kp := zero, ki := one, clampEn := { intEn := false, outEn := false }, acc := acc },
        theta := theta, omega := omega, freq := zero } with dt := dt }

/-- Section 2.7: the wrap, `6.5 - 2π`. -/
theorem test_pll_wrap :
    nextIs (exec (.pll 0) (withPll (rat 1 4) (.lit 2) (.lit 6) (.lit 2)))
      (fun t => isInt t.pll[0].omega 2 && between (rat 2168 10000) t.pll[0].theta (rat 2169 10000)
        && between (rat 3183 10000) t.pll[0].freq (rat 3184 10000) && decide (t.res.res0 = some t.pll[0].theta)) = true := by
  decide
/-- Section 2.7: one subtraction only, `20 - 2π`. -/
theorem test_pll_wraps_once :
    nextIs (exec (.pll 0) (withPll half (.lit 28) (.lit 6) (.lit 28)))
      (fun t => between (rat 13716 1000) t.pll[0].theta (rat 13717 1000)) = true := by decide

/-- P4, cycle 3, in a buffer of two entries: the edge stores entry 0 and the machine is `Filling`. -/
theorem test_cycle_edge :
    nextIs (exec (.cycle true) (atTick buildAll false .idle 0))
      (fun t => decide (t.bstate = .filling) && decide (t.bidx = 1) && decide (t.buf.read 0 = some (.lit 30))
        && decide (t.buf.read 2 = some (.lit 32)) && decide (statusWord t = 5#16) && t.done) = true := by decide +kernel
/-- P4, cycle 5: the last entry makes the machine `Idle`; a low trigger is remembered. -/
theorem test_cycle_last_entry :
    nextIs (exec (.cycle false) (atTick buildAll true .filling 1))
      (fun t => decide (t.bstate = .idle) && decide (t.bidx = 0) && decide (t.buf.read 5 = some (.lit 31))
        && decide (statusWord t = 0#16)) = true := by decide +kernel

/-- An edge with a host write of `bits` to `REG` address `a`. -/
def hostEdgeAt (a bits : BitVec 16) : PortEdge :=
  { rstN := true, word := 0#2, pins := { sa := zero, sb := zero, sc := zero },
    host := some { hsel := false, haddr := a, hwe := true, hwdata := { scalar := one, bits := bits } }, overlap := false }

/-- P5, step 4: START of a core whose filter has no cutoff is `InvalidConfig`. -/
theorem test_start_invalid :
    faultIs (step { State.resetOf buildAll with dt := one, inputs := [hostEdgeAt 0#16 1#16] }) (.invalidConfig 4 0) = true := by
  decide
/-- P5, step 7: a write to a gain in RUN mode is ignored. -/
theorem test_run_write_ignored :
    nextIs (step { ready buildAll with inputs := [hostEdgeAt 0x600#16 0#16] }) (fun t => decide (t.pi[0].kp = .lit 2)) =
      true := by decide

/-! ## A witness for the hypotheses of every statement that has some

Each theorem shows a concrete state and operands that meet the hypotheses of the statement it is named after, and
for a statement of several clauses one for each clause. -/

/-- Every operand register of `ready buildAll` holds a value. -/
theorem witness_ClarkeWritesAlphaAndBeta :
    ∃ (s : State) (a b c : Scalar), s.arg.arg0 = some a ∧ s.arg.arg1 = some b ∧ s.arg.arg2 = some c :=
  ⟨ready buildAll, _, _, _, rfl, rfl, rfl⟩
theorem witness_ParkWritesRotatingFrame : ∃ (s : State) (th a b c : Scalar),
    s.arg.arg0 = some th ∧ s.arg.arg1 = some a ∧ s.arg.arg2 = some b ∧ s.arg.arg3 = some c :=
  ⟨ready buildAll, _, _, _, _, rfl, rfl, rfl, rfl⟩
theorem witness_IparkWritesThreePhases : ∃ (s : State) (th d q z : Scalar),
    s.arg.arg0 = some th ∧ s.arg.arg1 = some d ∧ s.arg.arg2 = some q ∧ s.arg.arg3 = some z :=
  ⟨ready buildPll, _, _, _, _, rfl, rfl, rfl, rfl⟩
/-- Filter 0 with cutoff `fc` and period `h` meets the hypotheses common to the statements on `LPF` in the reference
instance, and the case `p` of the values of the two. -/
def LpfCase (fc h : Scalar) (p : ℝ → ℝ → Prop) : Prop :=
  0 < (withLpf { fc := fc, dt := h, y := zero }).build.nLpf ∧
  (withLpf { fc := fc, dt := h, y := zero }).build.num = .real ∧
  (withLpf { fc := fc, dt := h, y := zero }).arg.arg0 = some (.lit 1) ∧ fc.HasReal ∧ h.HasReal ∧ p fc.val h.val

theorem lpfCase_positive : LpfCase (.lit 10) one (fun f h => 0 < f ∧ 0 < h) :=
  ⟨by decide, rfl, rfl, lit_hasReal _, lit_hasReal _, by norm_num [Scalar.val], by norm_num [Scalar.val, one]⟩

/-- The filter of section 2.4, and one with the cutoff below zero. -/
theorem witness_LpfBlendsInputAndOutput :
    LpfCase (.lit 10) (rat 1 1000) (fun f h => f ≠ 0 ∧ 1 / (2 * Real.pi * f) + h ≠ 0) ∧
    LpfCase (.lit (-10)) one (fun f h => f ≠ 0 ∧ 1 / (2 * Real.pi * f) + h ≠ 0) := by
  have hp := Real.pi_gt_three
  refine ⟨⟨by decide, rfl, rfl, lit_hasReal _, ⟨_, valueIn_real_div (u := ((1 : ℚ) : ℝ)) rfl rfl (by norm_num)⟩, ?_, ?_⟩,
    ⟨by decide, rfl, rfl, lit_hasReal _, lit_hasReal _, ?_, ?_⟩⟩
  · norm_num [Scalar.val]
  · have : 0 < (1 : ℝ) / (2 * Real.pi * (Scalar.lit 10).val) := by norm_num [Scalar.val]; linarith
    have h : (rat 1 1000).val = 1 / 1000 := by norm_num [Scalar.val, rat]
    rw [h]; positivity
  · norm_num [Scalar.val]
  · have h : (Scalar.lit (-10)).val = -10 := by norm_num [Scalar.val]
    rw [h, one_val]
    intro e
    field_simp at e
    linarith
theorem witness_LpfCompletesWhenConfigured : LpfCase (.lit 10) one (fun f h => 0 < f ∧ 0 < h) := lpfCase_positive
/-- A cutoff of zero, and a period of `-τ`. -/
theorem witness_LpfZeroDivisorRaises :
    LpfCase zero one (fun f _ => f = 0) ∧ (lpfBlend zero one).valueIn .real = none ∧
    LpfCase (.div one .twoPi) (.lit (-1)) (fun f h => 1 / (2 * Real.pi * f) + h = 0) ∧
    (lpfBlend (.div one .twoPi) (.lit (-1))).valueIn .real = none := by
  have hp : 2 * Real.pi ≠ 0 := by simp [Real.pi_ne_zero]
  refine ⟨⟨by decide, rfl, rfl, lit_hasReal _, lit_hasReal _, zero_val⟩, knownNoValue_sound _ (by decide),
    ⟨by decide, rfl, rfl, ⟨_, valueIn_real_div (u := ((1 : ℚ) : ℝ)) (v := 2 * Real.pi) rfl rfl hp⟩, lit_hasReal _, ?_⟩,
    tau_cancels_period⟩
  rw [div_val (show Scalar.val .twoPi ≠ 0 from hp)]
  simp only [Scalar.val, one]
  field_simp
  norm_num
theorem witness_LpfZeroPeriodFreezes : LpfCase (.lit (-1)) zero (fun f h => f ≠ 0 ∧ h = 0) :=
  ⟨by decide, rfl, rfl, lit_hasReal _, lit_hasReal _, by norm_num [Scalar.val], zero_val⟩
theorem witness_IntgAddsTrapezoid :
    ∃ (s : State) (i : Inst) (cur prev h : Scalar), i.val < s.build.nIntg ∧ s.arg.arg0 = some cur ∧
      s.arg.arg1 = some prev ∧ s.arg.arg2 = some h :=
  ⟨ready buildAll, 0, _, _, _, by decide, rfl, rfl, rfl⟩
theorem witness_PiUpdatesAccumulatorAndOutput :
    ∃ (s : State) (i : Inst) (e : Scalar), i.val < s.build.nPi ∧ s.arg.arg0 = some e :=
  ⟨ready buildAll, 0, _, by decide, rfl⟩
theorem witness_PllPerformsSixSteps :
    ∃ (s : State) (i : Inst) (a b c : Scalar), i.val < s.build.nPll ∧ s.arg.arg0 = some a ∧
      s.arg.arg1 = some b ∧ s.arg.arg2 = some c :=
  ⟨ready buildPll, 0, _, _, _, by decide, rfl, rfl, rfl⟩
theorem witness_CycleCompletesWhenValid :
    (ready buildAll).build.num = .real ∧ (ready buildAll).takesTick = true ∧ buildWf (ready buildAll).build = true ∧
    validConfig (ready buildAll) = true := by
  decide +kernel
theorem witness_CycleLatchesAndRoutes :
    ∃ s t : State, s.takesTick = true ∧ exec (.cycle true) s = .next t ∧ s.build.wiring.actSrc[3]? = some 10 ∧
      s.build.wiring.holdSrc[0]? = some 2 ∧ s.build.nAct ≤ 4 ∧ s.build.nHold ≤ 1 := by
  obtain ⟨t, h, -⟩ := exists_next (o := exec (.cycle true) (ready buildAll)) (p := fun _ => true) (by decide +kernel)
  exact ⟨ready buildAll, t, by decide, h, by decide, by decide, by decide, by decide⟩
theorem witness_TickWithoutCycleLeavesNoTrace :
    State.reset.run = false ∧ ({ ready buildAll with busy := true } : State).busy = true := ⟨rfl, rfl⟩
theorem witness_ParkThenIparkIsIdentity : ∃ (s : State) (th a b c : Scalar),
    s.arg = { arg0 := some th, arg1 := some a, arg2 := some b, arg3 := some c } :=
  ⟨ready buildAll, _, _, _, _, rfl⟩
theorem witness_IparkThenParkIsIdentity : ∃ (s : State) (th d q z : Scalar),
    s.arg = { arg0 := some th, arg1 := some d, arg2 := some q, arg3 := some z } :=
  ⟨ready buildPlain, _, _, _, _, rfl⟩
theorem witness_ParkTurnsClarke : ∃ (s : State) (th a b c : Scalar),
    s.arg = { arg0 := some th, arg1 := some a, arg2 := some b, arg3 := some c } :=
  ⟨ready buildPll, _, _, _, _, rfl⟩
/-- The balanced set of amplitude 2 at phase 0: `2, -1, -1`. -/
theorem witness_ParkOfBalancedSet : ∃ (s : State) (th a b c : Scalar) (v psi : ℝ),
    s.arg = { arg0 := some th, arg1 := some a, arg2 := some b, arg3 := some c } ∧
    a.val = v * Real.cos psi ∧ b.val = v * Real.cos (psi - 2 * Real.pi / 3) ∧
    c.val = v * Real.cos (psi + 2 * Real.pi / 3) := by
  have h : Real.cos (2 * Real.pi / 3) = -1 / 2 := by
    rw [show 2 * Real.pi / 3 = Real.pi - Real.pi / 3 by ring, Real.cos_pi_sub, Real.cos_pi_div_three]
    norm_num
  refine ⟨withArgs (ready buildAll) (.lit 1) (.lit 2) (.lit (-1)) (.lit (-1)), _, _, _, _, 2, 0, rfl, ?_, ?_, ?_⟩
  · simp [Scalar.val]
  · rw [zero_sub, Real.cos_neg, h]; norm_num [Scalar.val]
  · rw [zero_add, h]; norm_num [Scalar.val]
/-- Two machines of different builds and modes with the same operands; a fourth operand is not asked of `CLARKE`. -/
theorem witness_FrameTransformsAreStateless :
    ∃ s s' : State, s ≠ s' ∧ s.arg = s'.arg ∧ ∀ k, k < Instr.argCount .park → argAt s.arg k ≠ none :=
  ⟨ready buildAll, { ready buildPll with run := false }, by decide, rfl, by
    intro k hk
    have : k = 0 ∨ k = 1 ∨ k = 2 ∨ k = 3 := by simp only [Instr.argCount] at hk; omega
    rcases this with rfl | rfl | rfl | rfl <;> decide⟩
theorem witness_LpfConstantInputDecays : LpfCase (.lit 10) one (fun f h => 0 < f ∧ 0 < h) := lpfCase_positive
theorem witness_IntgConstantIntegrandIsExact :
    ∃ (s : State) (i : Inst) (v h : Scalar), i.val < s.build.nIntg ∧ s.arg.arg0 = some v ∧ s.arg.arg1 = some v ∧
      s.arg.arg2 = some h :=
  ⟨withArgs (ready buildAll) (.lit 3) (.lit 3) half zero, 0, _, _, by decide, rfl, rfl, rfl⟩
/-- Both clamps of the PI controller of section 2.6 and of the embedded one are enabled, with bounds in order. -/
theorem witness_PiStaysInItsBounds :
    (∃ t, exec (.pi 0) (ready buildAll) = .next t) ∧ (∃ t, exec (.pll 0) (ready buildAll) = .next t) ∧
    (ready buildAll).pi[0].clampEn = { intEn := true, outEn := true } ∧
    (ready buildAll).pll[0].pi.clampEn = { intEn := true, outEn := true } ∧
    (ready buildAll).pi[0].intLo.val ≤ (ready buildAll).pi[0].intHi.val ∧
    (ready buildAll).pi[0].outLo.val ≤ (ready buildAll).pi[0].outHi.val ∧
    (ready buildAll).pll[0].pi.intLo.val ≤ (ready buildAll).pll[0].pi.intHi.val ∧
    (ready buildAll).pll[0].pi.outLo.val ≤ (ready buildAll).pll[0].pi.outHi.val := by
  have h1 : Scalar.val (.lit (-1)) ≤ Scalar.val (.lit 1) := by norm_num [Scalar.val]
  have h5 : Scalar.val (.lit (-5)) ≤ Scalar.val (.lit 5) := by norm_num [Scalar.val]
  exact ⟨⟨_, rfl⟩, ⟨_, rfl⟩, rfl, rfl, h1, h5, h1, h5⟩

/-- The common hypotheses of the statement on a bound left at once, and the case `p` of one of its clauses. -/
def LeavesBoundCase (s : State) (p : PiRegs → ℝ → ℝ → Prop) : Prop :=
  ∃ (t : State) (e : Scalar), exec (.pi 0) s = .next t ∧ s.arg.arg0 = some e ∧ s.pi[0].clampEn.intEn = true ∧
    s.pi[0].intLo.val ≤ s.pi[0].intHi.val ∧ 0 < s.dt.val ∧ p s.pi[0] e.val s.dt.val

/-- A raw sum of 5/4 and one of -5/4, an accumulator at its upper bound with a sum of errors of -1/2, and the mirror
case. -/
theorem witness_PiLeavesItsBoundAtOnce :
    LeavesBoundCase (withPi (rat 3 4) one one) (fun p e h => p.acc.val + realTrap e p.eprev.val h > p.intHi.val) ∧
    LeavesBoundCase (withPi (rat (-3) 4) (.lit (-1)) (.lit (-1)))
      (fun p e h => p.acc.val + realTrap e p.eprev.val h < p.intLo.val) ∧
    LeavesBoundCase (withPi one half (.lit (-1))) (fun p e _ =>
      p.intLo.val < p.intHi.val ∧ p.acc.val = p.intHi.val ∧ e + p.eprev.val < 0) ∧
    LeavesBoundCase (withPi (.lit (-1)) (rat (-1) 2) one)
      (fun p e _ => p.intLo.val < p.intHi.val ∧ p.acc.val = p.intLo.val ∧ e + p.eprev.val > 0) := by
  have lt : Scalar.val (.lit (-1)) < Scalar.val (.lit 1) := by norm_num [Scalar.val]
  have dt : 0 < Scalar.val half := by norm_num [half_val]
  refine ⟨⟨_, one, rfl, rfl, rfl, lt.le, dt, ?_⟩, ⟨_, .lit (-1), rfl, rfl, rfl, lt.le, dt, ?_⟩,
    ⟨_, .lit (-1), rfl, rfl, rfl, lt.le, dt, lt, ?_, ?_⟩, ⟨_, one, rfl, rfl, rfl, lt.le, dt, lt, ?_, ?_⟩⟩
  · show Scalar.val (rat 3 4) + realTrap (Scalar.val one) (Scalar.val one) (Scalar.val half) > Scalar.val (.lit 1)
    norm_num [Scalar.val, rat, one, half_val, realTrap]
  · show Scalar.val (rat (-3) 4) + realTrap (Scalar.val (.lit (-1))) (Scalar.val (.lit (-1))) (Scalar.val half) <
      Scalar.val (.lit (-1))
    norm_num [Scalar.val, rat, half_val, realTrap]
  · rfl
  · show Scalar.val (.lit (-1)) + Scalar.val half < 0
    norm_num [Scalar.val, half_val]
  · rfl
  · show Scalar.val one + Scalar.val (rat (-1) 2) > 0
    norm_num [Scalar.val, one, rat]

/-- `ready buildAll` at rest with other clamps enabled. -/
def withClamp (c : ClampEn) : State := (ready buildAll).setPi 0 { piTable with clampEn := c }

theorem witness_PiIntegratesConstantError : ∃ (s : State) (i : Inst) (e : Scalar), i.val < s.build.nPi ∧
    s.arg.arg0 = some e ∧ s.pi[i].clampEn = { intEn := false, outEn := false } ∧ s.pi[i].acc.val = 0 ∧
    s.pi[i].eprev.val = 0 := by
  refine ⟨withClamp { intEn := false, outEn := false }, 0, .lit 1, by decide, rfl, rfl, ?_, ?_⟩ <;>
    exact (show Scalar.val zero = 0 by simp [Scalar.val])
/-- `KP = 2`, `KI = 4`, `DT = 1`, error 1: the unclamped output of call 2 is 8, above the bound 5. -/
theorem witness_PiSaturatesAtItsUpperBound :
    ∃ (n : Nat) (s : State) (i : Inst) (e : Scalar), 1 ≤ n ∧ i.val < s.build.nPi ∧ s.arg.arg0 = some e ∧
      s.pi[i].clampEn = { intEn := false, outEn := true } ∧ s.pi[i].outLo.val ≤ s.pi[i].outHi.val ∧
      s.pi[i].acc.val = 0 ∧ s.pi[i].eprev.val = 0 ∧ 0 < s.dt.val ∧ 0 < e.val ∧ 0 ≤ s.pi[i].kp.val ∧
      0 < s.pi[i].ki.val ∧
      s.pi[i].outHi.val ≤ s.pi[i].kp.val * e.val + s.pi[i].ki.val * (s.dt.val * e.val * (n - 1 / 2)) := by
  have h0 : Scalar.val zero = 0 := by simp [Scalar.val]
  refine ⟨2, withClamp { intEn := false, outEn := true }, 0, .lit 1, by decide, by decide, rfl, rfl, ?_, h0, h0, ?_, ?_,
    ?_, ?_, ?_⟩
  · exact (show Scalar.val (.lit (-5)) ≤ Scalar.val (.lit 5) by norm_num [Scalar.val])
  · exact (show 0 < Scalar.val one by norm_num [Scalar.val, one])
  · norm_num [Scalar.val]
  · exact (show 0 ≤ Scalar.val (.lit 2) by norm_num [Scalar.val])
  · exact (show 0 < Scalar.val (.lit 4) by norm_num [Scalar.val])
  · show Scalar.val (.lit 5) ≤ Scalar.val (.lit 2) * Scalar.val (.lit 1) +
      Scalar.val (.lit 4) * (Scalar.val one * Scalar.val (.lit 1) * (((2 : ℕ) : ℝ) - 1 / 2))
    norm_num [Scalar.val, one]

/-- With `DT` zero the angle before the wrap is the old angle; `x` is that angle. -/
theorem angle_before_wrap (x : Scalar) (t : State) :
    (withPll zero zero x zero).pll[0].theta.val +
      realTrap t.pll[0].omega.val (withPll zero zero x zero).pll[0].omega.val (withPll zero zero x zero).dt.val =
    x.val := by
  show x.val + realTrap t.pll[0].omega.val (Scalar.val zero) (Scalar.val zero) = x.val
  simp [Scalar.val, realTrap]

/-- An angle before the wrap in each of the cases: `0`, `-1`, exactly `2π`, `7` between `2π` and `4π`, `13` above
`4π`. -/
theorem witness_PllWrapsAtMostOnce :
    (∀ x : Scalar, ∃ t, exec (.pll 0) (withPll zero zero x zero) = .next t) ∧
    Scalar.val zero ≤ 2 * Real.pi ∧ Scalar.val (.lit (-1)) < 0 ∧ Scalar.val .twoPi = 2 * Real.pi ∧
    2 * Real.pi < Scalar.val (.lit 7) ∧ Scalar.val (.lit 7) < 4 * Real.pi ∧ 4 * Real.pi < Scalar.val (.lit 13) := by
  have hlo := Real.pi_gt_d2
  have hhi := Real.pi_lt_d2
  refine ⟨fun x => ⟨_, rfl⟩, ?_, ?_, rfl, ?_, ?_, ?_⟩ <;> norm_num [Scalar.val] <;> linarith
/-- The angle 0, with an increment of 0. -/
theorem witness_PllKeepsAngleInRange :
    ∃ (s t : State) (i : Inst), exec (.pll i) s = .next t ∧ 0 ≤ s.pll[i].theta.val ∧
      s.pll[i].theta.val < 2 * Real.pi ∧
      -s.pll[i].theta.val ≤ realTrap t.pll[i].omega.val s.pll[i].omega.val s.dt.val ∧
      realTrap t.pll[i].omega.val s.pll[i].omega.val s.dt.val < 2 * Real.pi ∧
      s.pll[i].theta.val + realTrap t.pll[i].omega.val s.pll[i].omega.val s.dt.val ≠ 2 * Real.pi := by
  have h0 : Scalar.val zero = 0 := by simp [Scalar.val]
  have hp := Real.pi_pos
  have hr : ∀ x y : ℝ, realTrap x y (Scalar.val zero) = 0 := by intro x y; simp [realTrap, h0]
  refine ⟨withPll zero zero zero zero, _, 0, rfl, h0.ge, ?_, ?_, ?_, ?_⟩
  · exact (show Scalar.val zero < 2 * Real.pi by rw [h0]; linarith)
  · exact (show -Scalar.val zero ≤ realTrap _ _ (Scalar.val zero) by rw [hr, h0]; norm_num)
  · exact (show realTrap _ _ (Scalar.val zero) < 2 * Real.pi by rw [hr]; linarith)
  · exact (show Scalar.val zero + realTrap _ _ (Scalar.val zero) ≠ 2 * Real.pi by rw [hr, h0]; linarith)

theorem witness_EncodingRoundTrip : ∃ (w : BusWord) (i : Instr), decode w = .ok i := ⟨.command 0x4F#8, _, rfl⟩
/-- Codes 0, 8 and 15, and a step of such a code in a wiring. -/
theorem witness_ReservedOpRaises :
    (commandOp 0x0F#8).toNat = 0 ∧ 8 ≤ (commandOp 0x80#8).toNat ∧ 8 ≤ (commandOp 0xFF#8).toNat ∧
    ({ goodStep with cmd := 0x80#8 } : WireStep) ∈ (withSteps [{ goodStep with cmd := 0x80#8 }]).wiring.steps := by
  decide
/-- Each stateless operation with instance 1, each stateful one with the first instance it does not have, and such a
step in a wiring. -/
theorem witness_BadInstanceRaises :
    (commandOp 0x11#8).toNat = 1 ∧ commandInst 0x11#8 ≠ 0 ∧ (commandOp 0x21#8).toNat = 2 ∧ commandInst 0x21#8 ≠ 0 ∧
    (commandOp 0x31#8).toNat = 3 ∧ commandInst 0x31#8 ≠ 0 ∧
    ((commandOp 0x41#8).toNat = 4 ∧ buildAll.nLpf ≤ (commandInst 0x41#8).val) ∧
    ((commandOp 0x51#8).toNat = 5 ∧ buildAll.nIntg ≤ (commandInst 0x51#8).val) ∧
    ((commandOp 0x61#8).toNat = 6 ∧ buildAll.nPi ≤ (commandInst 0x61#8).val) ∧
    ((commandOp 0x71#8).toNat = 7 ∧ buildAll.nPll ≤ (commandInst 0x71#8).val) ∧
    ({ goodStep with cmd := 0x41#8 } : WireStep) ∈ (withSteps [{ goodStep with cmd := 0x41#8 }]).wiring.steps := by
  decide
/-- The last operand of `PARK` alone is empty, and every operand of `LPF 0` is. -/
theorem witness_EmptyOperandRaises :
    (∃ s : State, Instr.wf s.build .park = true ∧ argAt s.arg 3 = none ∧ ∀ j, j < 3 → argAt s.arg j ≠ none) ∧
    Instr.wf buildAll (.lpf 0) = true ∧ argAt (State.resetOf buildAll).arg 0 = none := by
  refine ⟨⟨(ready buildAll).setArg { arg0 := some one, arg1 := some one, arg2 := some one, arg3 := none }, rfl, rfl,
    ?_⟩, by decide, rfl⟩
  intro j hj
  have : j = 0 ∨ j = 1 ∨ j = 2 := by omega
  rcases this with rfl | rfl | rfl <;> decide
/-- Output 1 has the first empty net; every output has a value and hold latch 0 has none. -/
theorem witness_EmptyOutputNetRaises :
    (∃ s : State, s.build.wiring.actSrc[1]? = some 12 ∧ s.net.read 12 = none ∧
      ∀ k m, k < 1 → s.build.wiring.actSrc[k]? = some m → s.net.read m ≠ none) ∧
    ∃ s : State, s.build.wiring.holdSrc[0]? = some 2 ∧ s.net.read 2 = none ∧
      (∀ j m : Nat, s.build.wiring.actSrc[j]? = some m → s.net.read m ≠ none) ∧
      ∀ j m : Nat, j < 0 → s.build.wiring.holdSrc[j]? = some m → s.net.read m ≠ none := by
  refine ⟨⟨(ready buildAll).setNet [(11, one)], rfl, by decide, ?_⟩,
    ⟨(ready buildAll).setNet [(10, one), (11, one), (12, one), (13, one)], rfl, by decide, ?_, ?_⟩⟩
  · intro k m hk hm
    obtain rfl : k = 0 := by omega
    obtain rfl : 11 = m := Option.some.inj hm
    decide
  · intro j m hm
    have := List.mem_of_getElem? hm
    rw [show ((ready buildAll).setNet [(10, one), (11, one), (12, one), (13, one)]).build.wiring.actSrc =
      [11, 12, 13, 10] from rfl] at this
    simp only [List.mem_cons, List.not_mem_nil, or_false] at this
    rcases this with rfl | rfl | rfl | rfl <;> decide
  · intro j m hj
    omega

/-- An edge with the event word `w` and nothing else. -/
def tickEdge (w : BitVec 2) : PortEdge :=
  { rstN := true, word := w, pins := { sa := .free 0, sb := .free 1, sc := .free 2 }, host := none, overlap := false }

/-- A quiet edge; a listed edge with a tick, one with `trig` alone, one with a host write that is not to `CTRL` at a
tick; an event that later edges fall into; the first command of a cycle in progress, the last, and the epilogue, each in a
core that is busy; a source of each kind, and none; two results to nets and one dropped. -/
theorem witness_StepRunsTheDecodedInstruction :
    ((ready buildAll).inputs = [] ∧ (ready buildAll).busy = false) ∧
    ((tickEdge 3#2).rstN = true ∧ (tickEdge 3#2).host = none ∧ decode (.event (tickEdge 3#2).word) = .ok (.cycle true) ∧
      (tickEdge 3#2).overlap = false ∧ (tickEdge 1#2).word.getLsbD 1 = false) ∧
    (∃ (e : PortEdge) (a : HostAccess), e.rstN = true ∧ e.host = some a ∧ a.hwe = true ∧ a.haddr = 0x600#16 ∧
      decode (.event e.word) = .ok (.cycle false) ∧ e.overlap = true) ∧
    (∃ (u : State) (st : WireStep), u.busy = true ∧ u.build.wiring.steps[u.stepIdx]? = some st ∧
      decode (.command st.cmd) = .ok (.pll 0)) ∧
    (∃ (u : State) (st : WireStep), u.busy = true ∧ u.build.wiring.steps[u.stepIdx]? = some st ∧
      decode (.command st.cmd) = .ok .ipark) ∧
    (∃ u : State, u.busy = true ∧ u.build.wiring.steps[u.stepIdx]? = none) ∧
    (([.sa, .sb, .sc, .dt] : List Src).length = 4 ∧ ([.net 2, .hold 0, .const zero] : List Src).length ≤ 3 ∧
      (0 : Inst).val < buildAll.nHold ∧ ¬ (1 : Inst).val < buildAll.nHold) ∧
    Cells.wf [(3, one)] = true ∧ some 3 ∉ [some 5, none, some 4] ∧
    ([some 5, none, some 4] : List (Option Nat))[2]? = some (some 4) ∧
    ∀ j, j ≠ 2 → ([some 5, none, some 4] : List (Option Nat))[j]? ≠ some (some 4) := by
  refine ⟨⟨rfl, rfl⟩, by decide,
    ⟨{ hostEdgeAt 0x600#16 0#16 with word := 2#2, overlap := true }, _, rfl, rfl, rfl, rfl, rfl, rfl⟩,
    ⟨{ ready buildAll with busy := true }, _, rfl, rfl, rfl⟩,
    ⟨{ ready buildAll with busy := true, stepIdx := 6 }, _, rfl, rfl, rfl⟩,
    ⟨{ ready buildAll with busy := true, stepIdx := 7 }, rfl, rfl⟩, by decide, by decide, by decide, by decide, ?_⟩
  intro j hj
  match j with
  | 0 => decide
  | 1 => decide
  | 2 => exact absurd rfl hj
  | _ + 3 => simp
theorem witness_OverlappedCycleRefinesAtomicCycle :
    (tickEdge 2#2).driverOnly = true ∧ (ready buildAll).busy = false ∧ (tickEdge 2#2).word.getLsbD 1 = true ∧
    (ready buildAll).run = true := by decide
/-- STOP and START at the edge of a tick. -/
theorem witness_HostAccessComesBeforeTick :
    (∃ (s : State) (e : PortEdge) (a : HostAccess), s.inputs = [e] ∧ e.rstN = true ∧ e.host = some a ∧ a.hwe = true ∧
      a.hsel = false ∧ a.haddr = 0#16 ∧ s.busy = false ∧ e.word.getLsbD 1 = true ∧ e.overlap = false ∧ s.run = true ∧
      a.hwdata.bits.getLsbD 0 = false) ∧
    (∃ (s : State) (e : PortEdge) (a : HostAccess), s.inputs = [e] ∧ e.rstN = true ∧ e.host = some a ∧ a.hwe = true ∧
      a.hsel = false ∧ a.haddr = 0#16 ∧ s.busy = false ∧ e.word.getLsbD 1 = true ∧ e.overlap = false ∧ s.run = false ∧
      a.hwdata.bits.getLsbD 0 = true ∧ buildWf s.build = true ∧ validConfig s = true) :=
  ⟨⟨{ ready buildAll with inputs := [{ hostEdgeAt 0#16 0#16 with word := 3#2 }] }, _, _, rfl, rfl, rfl, rfl, rfl, rfl,
      rfl, rfl, rfl, rfl, rfl⟩,
    ⟨{ ready buildAll with run := false, inputs := [{ hostEdgeAt 0#16 1#16 with word := 2#2 }] }, _, _, rfl, rfl, rfl,
      rfl, rfl, rfl, rfl, rfl, rfl, rfl, rfl, by decide +kernel, by decide +kernel⟩⟩
theorem witness_TickDuringCycleIsDropped :
    ∃ (s : State) (e : PortEdge), s.busy = true ∧ e.host = none ∧ e.word = 2#2 :=
  ⟨{ ready buildAll with busy := true }, tickEdge 2#2, rfl, rfl, rfl⟩

/-- A state that has the invariant: running, filling, about to store the last entry. -/
def lastEntry : State := { atTick buildAll true .filling 1 with inputs := [tickEdge 2#2] }

theorem witness_StepKeepsInvariant : ∃ s t : State, s.Inv ∧ s.run = true ∧ step s = .next t := by
  obtain ⟨t, h, -⟩ := exists_next (o := step lastEntry) (p := fun _ => true) (by decide +kernel)
  refine ⟨lastEntry, t, ?_, rfl, h⟩
  exact {
    bufCanonical := rfl, netCanonical := rfl, neverFull := by decide, idleAtZero := by decide,
    indexInside := by decide, lanesExist := fun _ a x ha => (Option.some_ne_none x ha.symm).elim, noBuffer := by decide,
    stepZero := by decide, rearmInCycle := by decide, stepInside := by decide, noLpf := by decide,
    noIntg := by decide, noPi := by decide,
    noPll := by decide, noAct := by decide, noHold := by decide }
/-- A running core, and a core stopped in the middle of a cycle. -/
theorem witness_StepKeepsRunValid :
    (∃ s t : State, s.RunValid ∧ s.run = true ∧ step s = .next t) ∧
    ∃ s t : State, s.RunValid ∧ s.run = false ∧ s.busy = true ∧ step s = .next t := by
  obtain ⟨t, h, -⟩ := exists_next (o := step lastEntry) (p := fun _ => true) (by decide +kernel)
  obtain ⟨u, g, -⟩ := exists_next (o := step { ready buildAll with run := false, busy := true }) (p := fun _ => true)
    (by decide +kernel)
  exact ⟨⟨lastEntry, t, fun _ => ⟨by decide +kernel, by decide +kernel⟩, rfl, h⟩,
    ⟨_, u, fun _ => ⟨by decide +kernel, by decide +kernel⟩, rfl, rfl, g⟩⟩
/-- A host write to a gain in RUN mode, and one while a stopped core ends its cycle. -/
theorem witness_RunModeKeepsConfiguration :
    (∃ s t : State, s.run = true ∧ (∀ e rest, s.inputs = e :: rest → e.rstN = true) ∧ step s = .next t) ∧
    ∃ s t : State, s.busy = true ∧ s.run = false ∧ (∀ e rest, s.inputs = e :: rest → e.rstN = true) ∧
      step s = .next t := by
  refine ⟨⟨{ ready buildAll with inputs := [hostEdgeAt 0x600#16 0#16] }, _, rfl, ?_, rfl⟩,
    ⟨{ ready buildAll with run := false, busy := true, inputs := [hostEdgeAt 0x600#16 0#16] }, _, rfl, rfl, ?_, rfl⟩⟩ <;>
  · intro e rest h
    obtain ⟨rfl, -⟩ := List.cons.inj h
    rfl
theorem witness_RunningCoreNeverStops :
    ∃ s : State, s.build.num = .real ∧ s.RunValid ∧ s.run = true ∧ s.busy = false :=
  ⟨ready buildPll, rfl, fun _ => ⟨by decide +kernel, by decide +kernel⟩, rfl, rfl⟩
/-- Instance 1 of every block is not named by `W_ALL`. -/
theorem witness_CycleKeepsUnwiredInstances : ∃ s t : State, exec (.cycle true) s = .next t ∧
    .lpf 1 ∉ wiringInstrs s.build.wiring ∧ .intg 1 ∉ wiringInstrs s.build.wiring ∧
    .pi 1 ∉ wiringInstrs s.build.wiring ∧ .pll 1 ∉ wiringInstrs s.build.wiring := by
  obtain ⟨t, h, -⟩ := exists_next (o := exec (.cycle true) (ready buildAll)) (p := fun _ => true) (by decide +kernel)
  exact ⟨ready buildAll, t, h, by decide, by decide, by decide, by decide⟩
theorem witness_CycleForgetsOldNets : (ready buildAll).takesTick = true := rfl

/-- The hypotheses of the buffer statement for the state `s` and the trigger level `tr`. -/
def BufferCase (s : State) (tr : Bool) : Prop :=
  s.takesTick = true ∧ s.build.bufEn = true ∧ s.bidx < s.build.bufCap ∧ (s.bstate = .idle → s.bidx = 0) ∧
    s.bstate ≠ .full ∧ ∃ t, exec (.cycle tr) s = .next t

theorem bufferCase_of {s : State} {tr : Bool}
    (h : (s.takesTick && s.build.bufEn && decide (s.bidx < s.build.bufCap) && (s.bstate != .idle || s.bidx == 0) &&
      s.bstate != .full && nextIs (exec (.cycle tr) s) fun _ => true) = true) : BufferCase s tr := by
  simp only [Bool.and_eq_true, Bool.or_eq_true, bne_iff_ne, beq_iff_eq, decide_eq_true_eq] at h
  obtain ⟨⟨⟨⟨⟨h1, h2⟩, h3⟩, h4⟩, h5⟩, h6⟩ := h
  obtain ⟨t, ht, -⟩ := exists_next h6
  exact ⟨h1, h2, h3, fun hi => h4.resolve_left fun hn => hn hi, h5, t, ht⟩

/-- Idle without an edge; idle with one, in a buffer of two entries and in one of a single entry; filling the first
and the last entry. -/
theorem witness_CycleRunsBufferMachine :
    BufferCase (atTick buildAll true .idle 0) true ∧ BufferCase (atTick buildAll false .idle 0) true ∧
    BufferCase (atTick buildPll false .idle 0) true ∧ BufferCase (atTick buildAll true .filling 0) false ∧
    BufferCase (atTick buildAll true .filling 1) false := by
  refine ⟨?_, ?_, ?_, ?_, ?_⟩ <;> exact bufferCase_of (by decide +kernel)
theorem witness_CycleWithoutBufferStoresNothing :
    ∃ s t : State, s.takesTick = true ∧ s.build.bufEn = false ∧ exec (.cycle false) s = .next t := by
  obtain ⟨t, h, -⟩ := exists_next (o := exec (.cycle false) (ready buildPlain)) (p := fun _ => true) (by decide +kernel)
  exact ⟨ready buildPlain, t, rfl, rfl, h⟩

/-- An unmapped register; lane 3, the entry after the last, no buffer, a lane never stored; a read-only register; a gain
in RUN mode, and while a stopped core ends its cycle. -/
theorem witness_RefusedAccessesChangeNothing :
    decodeReg buildAll ((0x412#16).setWidth 12) = none ∧ (3#16).toNat % 4 = 3 ∧
    buildAll.bufCap ≤ (8#16).toNat / 4 ∧ buildPlain.bufEn = false ∧
    (ready buildAll).buf.read (0#16).toNat = none ∧ decodeReg buildAll ((2#16).setWidth 12) = some .status ∧
    decodeReg buildAll ((0x600#16).setWidth 12) = some (.pi 0 .kp) ∧ (ready buildAll).run = true ∧
    ({ ready buildAll with run := false, busy := true } : State).busy = true := by decide
/-- A scalar register and the two flag registers of the PI controllers. -/
theorem witness_InitWriteIsReadBack :
    (State.reset.run = false ∧ State.reset.busy = false) ∧ decodeReg buildAll ((1#16).setWidth 12) = some .dt ∧
    decodeReg buildAll ((0x606#16).setWidth 12) = some (.pi 0 .clampEn) ∧
    decodeReg buildAll ((0x706#16).setWidth 12) = some (.pllPi 0 .clampEn) ∧ RegName.initWritable .dt = true ∧
    RegName.initWritable (.pi 0 .clampEn) = true ∧ RegName.initWritable (.pllPi 0 .clampEn) = true :=
  ⟨⟨rfl, rfl⟩, by decide, by decide, by decide, rfl, rfl, rfl⟩
/-- The first and the last register of each block, and the first number after the last. -/
theorem witness_RegisterMap :
    (0 < buildAll.nLpf ∧ 0 < buildAll.nIntg ∧ 0 < buildAll.nPi ∧ 0 < buildAll.nPll) ∧
    (buildAll.nLpf ≤ (1 : Inst).val ∧ buildAll.nPi ≤ (1 : Inst).val ∧ buildAll.nPll ≤ (1 : Inst).val) ∧
    (7 ≤ (7 : Inst).val ∧ (1 : Inst) ≠ 0 ∧ 3 ≤ (3 : Inst).val ∧ 9 ≤ (9 : Inst).val ∧ 12 ≤ (12 : Inst).val) := by
  decide
/-- A mapped register and a mapped lane; a read at an edge without a tick; a read, and a write that START answers with a
next state. -/
theorem witness_AccessesAreIdempotent :
    (decodeReg buildAll ((0x402#16).setWidth 12) = some (.lpfY 0) ∧ buildAll.bufEn = true ∧
      (6#16).toNat / 4 < buildAll.bufCap ∧ (6#16).toNat % 4 ≠ 3) ∧
    (∃ (s : State) (e : PortEdge) (a : HostAccess), s.inputs = [e] ∧ e.rstN = true ∧ e.host = some a ∧ a.hwe = false ∧
      s.busy = false ∧ e.word.getLsbD 1 = false) ∧
    (∃ a : HostAccess, a.hwe = false) ∧ ∃ (s t : State) (a : HostAccess), a.hwe = true ∧ hostAccess s a = .next t := by
  refine ⟨by decide, ⟨{ ready buildAll with
      inputs := [{ tickEdge 1#2 with
        host := some { hsel := true, haddr := 6#16, hwe := false, hwdata := { scalar := zero, bits := 0#16 } } }] },
      _, _, rfl, rfl, rfl, rfl, rfl, rfl⟩,
    ⟨{ hsel := false, haddr := 0#16, hwe := false, hwdata := { scalar := zero, bits := 0#16 } }, rfl⟩, ?_⟩
  obtain ⟨t, h, -⟩ := exists_next
    (o := hostAccess { ready buildAll with run := false }
      { hsel := false, haddr := 0#16, hwe := true, hwdata := { scalar := zero, bits := 1#16 } })
    (p := fun _ => true) (by decide +kernel)
  exact ⟨_, t, _, rfl, h⟩
/-- Each state of the buffer machine with a buffer, and a build without one; an index inside a buffer. -/
theorem witness_FlagRegistersAsWords :
    buildPlain.bufEn = false ∧ buildAll.bufEn = true ∧ (atTick buildAll true .idle 0).bstate = .idle ∧
    (atTick buildAll true .filling 1).bstate = .filling ∧ (atTick buildAll true .full 0).bstate = .full ∧
    (atTick buildAll true .filling 1).bidx < 16384 := by decide
/-- START of a valid core between cycles and in one, of a core with `DT` zero, of a build that is not well formed; STOP;
a write of the bit as it is, in either mode. -/
theorem witness_StartAndStop :
    (State.resetOf buildAll).run = false ∧ (1#16).getLsbD 0 = true ∧ (0#16).getLsbD 0 = false ∧
    (buildWf buildAll = true ∧ validConfig { ready buildAll with run := false } = true) ∧
    ((ready buildAll).busy = false ∧ validConfig { ready buildAll with run := false, busy := true } = true) ∧
    validConfig (State.resetOf buildAll) = false ∧ buildWf (withSteps [{ goodStep with cmd := 0#8 }]) = false ∧
    (ready buildAll).run = true := by decide +kernel
/-- A valid configuration of literals in the reference instance, and one that is not valid. -/
theorem witness_ValidConfigMeansValid :
    (∃ s : State, s.build.num = .real ∧ ConfigHasReal s ∧ validConfig s = true) ∧
    ∃ s : State, s.build.num = .real ∧ ConfigHasReal s ∧ validConfig s = false := by
  have lits : ∀ s : State, litConfig s = true → ConfigHasReal s := fun s h => configHasReal_of_lit h
  exact ⟨⟨ready buildAll, rfl, lits _ (by decide), by decide +kernel⟩,
    State.resetOf buildAll, rfl, lits _ (by decide), by decide +kernel⟩
/-- A stopped core before the epilogue of a cycle in progress that observed an edge or not. -/
def atEpilogue (b : Build) (edge : Bool) : State :=
  { ready b with
    run := false, busy := true, edge := edge, stepIdx := b.wiring.steps.length,
    net := (List.range 14).map fun n => (n, one) }

/-- A command and the epilogue of a cycle in progress whose core was stopped, the epilogue with and without an observed
edge, in a buffer of one entry and in one of two, and without a buffer. -/
theorem witness_StopLetsTheCycleFinish :
    (∃ s t : State, s.inputs = [] ∧ s.busy = true ∧ s.run = false ∧ step s = .next t ∧ t.busy = true ∧
      buildWf s.build = true ∧ validConfig s = true) ∧
    (∀ b ∈ [buildAll, buildPll, buildPlain], ∀ g : Bool,
      nextIs (step (atEpilogue b g)) (fun t => !t.busy) = true ∧ (atEpilogue b g).busy = true ∧
      buildWf b = true ∧ validConfig (atEpilogue b g) = true) ∧
    buildPll.bufCap = 1 ∧ buildAll.bufCap = 2 ∧ buildPlain.bufEn = false :=
  ⟨⟨{ ready buildAll with busy := true, run := false }, _, rfl, rfl, rfl, rfl, rfl, by decide +kernel, by decide +kernel⟩,
    by decide +kernel, rfl, rfl, rfl⟩
/-- Reset in the middle of a cycle, with a tick and a host access at the same edge. -/
theorem witness_ResetEdgeResetsEverything : ∃ (s : State) (e : PortEdge) (rest : List PortEdge),
    s.inputs = e :: rest ∧ e.rstN = false ∧ s.busy = true :=
  ⟨{ ready buildAll with busy := true, inputs := [{ hostEdgeAt 0#16 0#16 with rstN := false, word := 3#2 }] }, _, _,
    rfl, rfl, rfl⟩

/-! The statements over every numerics record, in the reference instance. -/

/-- `ready b` with three operands. -/
def withThree (b : Build) : State :=
  (ready b).setArg { arg0 := some (.lit 1), arg1 := some (.lit 2), arg2 := some (.lit 3), arg3 := none }

theorem witness_FrameTransformsFollowThePseudocode :
    ∃ (N : Sys2Proof.Num) (ext : Nat → N.S) (s : State) (a b c th : Scalar) (x y z w : N.S),
      th.evalIn N ext = some w ∧ a.evalIn N ext = some x ∧ b.evalIn N ext = some y ∧ c.evalIn N ext = some z ∧
      s.arg = { arg0 := some th, arg1 := some a, arg2 := some b, arg3 := some c } :=
  ⟨Sys2Proof.Num.real, Config.freeReal, ready buildAll, _, _, _, _, _, _, _, _, rfl, rfl, rfl, rfl, rfl⟩
/-- `FC = 10`, `DT = 1` in the reference instance, whose divisors `20π` and `1/20π + 1` are not zero; and a cutoff of
zero. -/
theorem witness_FilterAndIntegratorFollowThePseudocode :
    (∃ (s : State) (x fc h y0 : ℝ) (tau c1 : ℝ), s.build.num = .real ∧ s.arg.arg0 = some one ∧
      one.valueIn .real = some x ∧ 0 < s.build.nLpf ∧ s.lpf[0].fc.valueIn .real = some fc ∧
      s.lpf[0].dt.valueIn .real = some h ∧ s.lpf[0].y.valueIn .real = some y0 ∧
      Sys2Proof.Num.real.div (Sys2Proof.Num.real.ofRat 1) (Sys2Proof.Num.real.mul Sys2Proof.Num.real.twoPi fc) = some tau ∧
      Sys2Proof.Num.real.div h (Sys2Proof.Num.real.add tau h) = some c1) ∧
    (∃ (s : State) (fc : ℝ), s.build.num = .real ∧ s.lpf[0].fc.valueIn .real = some fc ∧
      Sys2Proof.Num.real.div (Sys2Proof.Num.real.ofRat 1) (Sys2Proof.Num.real.mul Sys2Proof.Num.real.twoPi fc) = none) ∧
    ∃ (s : State) (i : Inst) (a b c : Scalar) (x y z acc : ℝ),
      a.evalIn Sys2Proof.Num.real Config.freeReal = some x ∧ b.evalIn Sys2Proof.Num.real Config.freeReal = some y ∧
      c.evalIn Sys2Proof.Num.real Config.freeReal = some z ∧
      s.arg.arg0 = some a ∧ s.arg.arg1 = some b ∧ s.arg.arg2 = some c ∧
      i.val < s.build.nIntg ∧ s.intg[i].acc.evalIn Sys2Proof.Num.real Config.freeReal = some acc := by
  have hp := Real.pi_pos
  have h1 : (2 * Real.pi * ((10 : ℚ) : ℝ)) ≠ 0 := by positivity
  have h2 : (((1 : ℚ) : ℝ) / (2 * Real.pi * ((10 : ℚ) : ℝ)) + ((1 : ℚ) : ℝ)) ≠ 0 := by positivity
  exact ⟨⟨ready buildAll, _, _, _, _, _, _, rfl, rfl, rfl, by decide, rfl, rfl, rfl, if_neg h1, if_neg h2⟩,
    ⟨withLpf { fc := zero, dt := one, y := zero }, _, rfl, rfl,
      if_pos (show 2 * Real.pi * ((0 : ℚ) : ℝ) = 0 by simp)⟩,
    ⟨withThree buildAll, 0, .lit 1, .lit 2, .lit 3, _, _, _, _, rfl, rfl, rfl, rfl, rfl, rfl, by decide, rfl⟩⟩
/-- The registers of section 2.6, both clamps enabled, with the operands a wiring step loads and no other. -/
theorem witness_ControllersFollowThePseudocode :
    (∃ (s : State) (i : Inst) (a : Scalar) (x dt : ℝ) (v : NumPi Sys2Proof.Num.real),
      s.arg = argsOf s [.const a] ∧ s.arg.arg0 = some a ∧
      a.evalIn Sys2Proof.Num.real Config.freeReal = some x ∧ s.dt.evalIn Sys2Proof.Num.real Config.freeReal = some dt ∧
      i.val < s.build.nPi ∧ v.ValuesOf Config.freeReal s.pi[i]) ∧
    ∃ (s : State) (i : Inst) (a b c : Scalar) (x y z dt th om : ℝ) (v : NumPi Sys2Proof.Num.real),
      s.arg.arg0 = some a ∧ s.arg.arg1 = some b ∧ s.arg.arg2 = some c ∧
      a.evalIn Sys2Proof.Num.real Config.freeReal = some x ∧ b.evalIn Sys2Proof.Num.real Config.freeReal = some y ∧
      c.evalIn Sys2Proof.Num.real Config.freeReal = some z ∧ s.dt.evalIn Sys2Proof.Num.real Config.freeReal = some dt ∧
      i.val < s.build.nPll ∧ v.ValuesOf Config.freeReal s.pll[i].pi ∧
      s.pll[i].theta.evalIn Sys2Proof.Num.real Config.freeReal = some th ∧
      s.pll[i].omega.evalIn Sys2Proof.Num.real Config.freeReal = some om := by
  let v : NumPi Sys2Proof.Num.real :=
    { kp := ((2 : ℚ) : ℝ), ki := ((4 : ℚ) : ℝ), outLo := ((-5 : ℚ) : ℝ), outHi := ((5 : ℚ) : ℝ),
      intLo := ((-1 : ℚ) : ℝ), intHi := ((1 : ℚ) : ℝ), acc := ((0 : ℚ) : ℝ), eprev := ((0 : ℚ) : ℝ) }
  have hv : v.ValuesOf Config.freeReal piTable := by
    refine ⟨rfl, rfl, rfl, rfl, fun _ => ⟨rfl, rfl, ?_⟩, fun _ => ⟨rfl, rfl, ?_⟩⟩
    · exact decide_eq_false (show ¬ ((-1 : ℚ) : ℝ) > ((1 : ℚ) : ℝ) by norm_num)
    · exact decide_eq_false (show ¬ ((-5 : ℚ) : ℝ) > ((5 : ℚ) : ℝ) by norm_num)
  exact ⟨⟨(ready buildAll).setArg { arg0 := some (.lit 1), arg1 := none, arg2 := none, arg3 := none }, 0, .lit 1, _, _, v,
      rfl, rfl, rfl, rfl, by decide, hv⟩,
    ⟨withThree buildAll, 0, .lit 1, .lit 2, .lit 3, _, _, _, _, _, _, v, rfl, rfl, rfl, rfl, rfl, rfl, rfl, by decide, hv,
      rfl, rfl⟩⟩
theorem witness_ValueIsTheReferenceInstance :
    ∃ (a : Scalar) (x : ℝ), a.evalIn Sys2Proof.Num.real Config.freeReal = some x ∧ a = .div one three :=
  ⟨.div one three, _, if_neg (show ((3 : ℚ) : ℝ) ≠ 0 by norm_num), rfl⟩

end Sys2Proof.Tests
end

section
/-! PROOFS. The frame transforms (spec/40_frame_transform.md): the real values of their angles and phases, that they
read operands and write results alone, and `IPARK` as the inverse transform. -/

namespace Sys2Proof.Machine

/-! Values in the reference instance. -/

@[simp] theorem angleB_val (th : Scalar) : (angleB th).val = th.val - 2 * Real.pi / 3 := rfl

@[simp] theorem angleC_val (th : Scalar) : (angleC th).val = th.val + 2 * Real.pi / 3 := rfl

@[simp] theorem iparkPhase_val (th d q z : Scalar) :
    (iparkPhase th d q z).val = realIparkPhase th.val d.val q.val z.val := rfl

/-- A register holds the real value of the scalar in it. -/
theorem holds_some {y : Scalar} {x : ℝ} (h : y.val = x) : Holds (some y) x := ⟨y, rfl, h⟩

/-! Operands alone decide the results. -/

/-- An operand register that is not empty holds a value (R21). -/
theorem exists_operand {A : ArgRegs} {n : Nat} (full : ∀ k, k < n → argAt A k ≠ none) (k : Nat) (hk : k < n) :
    ∃ x, argAt A k = some x :=
  Option.ne_none_iff_exists'.1 (full k hk)

/-- The operands determine the three results of a frame transform, in every state that holds them, and the results
are all it writes (R100). -/
theorem frameTransform_results {i : Instr} {A : ArgRegs} (hi : i = .clarke ∨ i = .park ∨ i = .ipark)
    (full : ∀ k, k < i.argCount → argAt A k ≠ none) :
    ∃ r : ResRegs, ∀ s : State, s.arg = A → exec i s = .next (s.setRes r) := by
  have operandAt := exists_operand full
  rcases hi with rfl | rfl | rfl
  case inl =>
    obtain ⟨a, ha⟩ := operandAt 0 (by decide)
    obtain ⟨b, hb⟩ := operandAt 1 (by decide)
    obtain ⟨c, hc⟩ := operandAt 2 (by decide)
    exact ⟨_, fun s hs => execClarke_next.2 ⟨a, b, c, hs ▸ ha, hs ▸ hb, hs ▸ hc, rfl⟩⟩
  case inr.inl =>
    obtain ⟨th, hth⟩ := operandAt 0 (by decide)
    obtain ⟨a, ha⟩ := operandAt 1 (by decide)
    obtain ⟨b, hb⟩ := operandAt 2 (by decide)
    obtain ⟨c, hc⟩ := operandAt 3 (by decide)
    exact ⟨_, fun s hs => execPark_next.2 ⟨th, a, b, c, hs ▸ hth, hs ▸ ha, hs ▸ hb, hs ▸ hc, rfl⟩⟩
  case inr.inr =>
    obtain ⟨th, hth⟩ := operandAt 0 (by decide)
    obtain ⟨d, hd⟩ := operandAt 1 (by decide)
    obtain ⟨q, hq⟩ := operandAt 2 (by decide)
    obtain ⟨z, hz⟩ := operandAt 3 (by decide)
    exact ⟨_, fun s hs => execIpark_next.2 ⟨th, d, q, z, hs ▸ hth, hs ▸ hd, hs ▸ hq, hs ▸ hz, rfl⟩⟩

/-- Settles O3: the three results are the model's `iparkPhase` at the angles of the three phases, whose values are
those of R102. -/
theorem iparkWritesThreePhases : Obligations.IparkWritesThreePhases := by
  refine ⟨by decide, fun s th d q z hth hd hq hz => ?_⟩
  have completes := execIpark_next.2 ⟨th, d, q, z, hth, hd, hq, hz, rfl⟩
  exact ⟨_, completes, rfl, holds_some (iparkPhase_val th d q z),
    holds_some (by rw [iparkPhase_val, angleB_val]), holds_some (by rw [iparkPhase_val, angleC_val])⟩

/-- Settles O18: both machines hold the operands, so the results those determine are the results of both. -/
theorem frameTransformsAreStateless : Obligations.FrameTransformsAreStateless := by
  intro i s s' hi sameArg full
  obtain ⟨r, completes⟩ := frameTransform_results hi full
  exact ⟨r, completes s rfl, completes s' sameArg.symm⟩

end Sys2Proof.Machine
end

section
/-! PROOFS. The integrator (spec/41_filter_integrator.md): its command word decodes to it, and its running sum grows by
one trapezoid. -/

namespace Sys2Proof.Machine

/-! The fields of a command word (R81). -/

@[simp] theorem commandOp_commandWord (op : BitVec 4) (i : Inst) : commandOp (commandWord op i) = op :=
  BitVec.extractLsb'_append_eq_left

@[simp] theorem commandInst_commandWord (op : BitVec 4) (i : Inst) : commandInst (commandWord op i) = i := by
  simp only [commandInst, commandWord, BitVec.extractLsb'_append_eq_right]

/-- Operation code 5 is the integrator of the instance the word names (R82). -/
theorem decode_commandWord_intg (i : Inst) : decode (.command (commandWord 5#4 i)) = .ok (.intg i) := by
  simp [decode, decodeCommand]

/-! The running sum in the reference instance (R113). -/

@[simp] theorem intgSum_val (acc cur prev h : Scalar) :
    (intgSum acc cur prev h).val = acc.val + realTrap cur.val prev.val h.val :=
  congrArg (acc.val + ·) (trap_val cur prev h)

/-- Settles O8: the model's next state carries `intgSum` in the accumulator and in the result, and the value of that
sum is the accumulator and one trapezoid. -/
theorem intgAddsTrapezoid : Obligations.IntgAddsTrapezoid := by
  intro s i cur prev h
  refine ⟨decode_commandWord_intg i, fun present hcur hprev hh => ?_⟩
  have completes := execIntg_next.2 ⟨present, cur, prev, h, hcur, hprev, hh, rfl⟩
  exact ⟨_, completes, intgSum s.intg[i].acc cur prev h, rfl, intgSum_val s.intg[i].acc cur prev h⟩

end Sys2Proof.Machine
end

section
/-! PROOFS. The PI controller (spec/42_pi_controller.md): the real values of the clamp, of the raw sum and of the
accumulator it leaves, and the accumulator at a bound. -/

namespace Sys2Proof.Machine

/-! The clamp and the trapezoid on the real numbers (R10, R11). -/

section Real
variable {x lo hi cur prev h : ℝ}

theorem realClamp_of_gt (above : x > hi) : realClamp x lo hi = hi := if_pos above

theorem realClamp_of_lt (ordered : lo ≤ hi) (below : x < lo) : realClamp x lo hi = lo := by
  have notAbove : ¬ x > hi := not_lt.2 (below.le.trans ordered)
  rw [realClamp, if_neg notAbove, if_pos below]

/-- Between bounds that differ, a value below the upper one stays below it. -/
theorem realClamp_lt_hi (differ : lo < hi) (below : x < hi) : realClamp x lo hi < hi := by
  rw [realClamp, if_neg below.not_gt]
  split
  · exact differ
  · exact below

/-- Between bounds that differ, a value above the lower one stays above it. -/
theorem lo_lt_realClamp (differ : lo < hi) (above : lo < x) : lo < realClamp x lo hi := by
  rw [realClamp, if_neg above.not_gt]
  split
  · exact differ
  · exact above

theorem realTrap_neg (positiveStep : 0 < h) (sum : cur + prev < 0) : realTrap cur prev h < 0 :=
  mul_neg_of_pos_of_neg (by positivity) sum

theorem realTrap_pos (positiveStep : 0 < h) (sum : 0 < cur + prev) : 0 < realTrap cur prev h :=
  mul_pos (by positivity) sum

end Real

/-! The accumulator in the reference instance (R120). -/

theorem clamp_val_eq_realClamp {x lo hi : Scalar} (ordered : lo.val ≤ hi.val) :
    (clamp x lo hi).val = realClamp x.val lo.val hi.val := clamp_val ordered

@[simp] theorem piRawSum_val (dt : Scalar) (p : PiRegs) (e : Scalar) :
    (piRawSum dt p e).val = p.acc.val + realTrap e.val p.eprev.val dt.val :=
  congrArg (p.acc.val + ·) (trap_val e p.eprev dt)

/-- With `INT_EN` and its bounds in order, the accumulator is the clamp of the raw sum (R120, R121). -/
theorem piAcc_val_of_intEn {dt e : Scalar} {p : PiRegs} (enabled : p.clampEn.intEn = true)
    (ordered : p.intLo.val ≤ p.intHi.val) :
    (piAcc dt p e).val =
      realClamp (p.acc.val + realTrap e.val p.eprev.val dt.val) p.intLo.val p.intHi.val := by
  rw [piAcc, if_pos enabled, clamp_val_eq_realClamp ordered, piRawSum_val]

/-- `PI i` leaves in its instance what `pi_update` does with the error in `arg[0]` (R120). -/
theorem exec_pi_regs {s t : State} {i : Inst} {e : Scalar} (completes : exec (.pi i) s = .next t)
    (loaded : s.arg.arg0 = some e) : t.pi[i] = piAfter s.dt s.pi[i] e := by
  obtain ⟨-, e', loaded', rfl⟩ := execPi_next.1 completes
  obtain rfl : e = e' := Option.some.inj (loaded.symm.trans loaded')
  exact Bank.put_self s.pi i _

/-- Settles O22: the stored accumulator is the clamp of the old one and one trapezoid. So a raw sum beyond a bound is
stored as the bound, and from a bound a trapezoid of the other sign puts the raw sum, and its clamp, strictly inside. -/
theorem piLeavesItsBoundAtOnce : Obligations.PiLeavesItsBoundAtOnce := by
  intro s t i e completes loaded enabled ordered positiveStep
  have stored : t.pi[i].acc.val = realClamp
      (s.pi[i].acc.val + realTrap e.val s.pi[i].eprev.val s.dt.val) s.pi[i].intLo.val s.pi[i].intHi.val := by
    rw [exec_pi_regs completes loaded]
    exact piAcc_val_of_intEn enabled ordered
  rw [stored]
  refine ⟨realClamp_of_gt, realClamp_of_lt ordered, fun differ atHi back => ?_, fun differ atLo back => ?_⟩
  · rw [atHi]
    exact realClamp_lt_hi differ (add_lt_of_neg_right _ (realTrap_neg positiveStep back))
  · rw [atLo]
    exact lo_lt_realClamp differ (lt_add_of_pos_right _ (realTrap_pos positiveStep back))

end Sys2Proof.Machine
end

section
/-! PROOFS. The encoding (spec/30_encoding.md): a command word is its two fields, decoder and encoder are inverse, and
what a word that names no operation of the build raises. -/

namespace Sys2Proof.Machine

/-! The fields of a command word (R81). -/

/-- A command word is its two fields put together again (R81). -/
theorem commandWord_fields (w : BitVec 8) : commandWord (commandOp w) (commandInst w) = w := by
  have fields : commandOp w ++ w.extractLsb' 0 4 = w.extractLsb' 0 8 :=
    BitVec.extractLsb'_append_extractLsb'_eq_extractLsb' (by decide)
  exact fields.trans (by simp)

/-- A command word with operation code `n` is the word of that code and of its own instance. -/
theorem commandWord_of_op {w : BitVec 8} {n : Nat} (op : (commandOp w).toNat = n) :
    commandWord (BitVec.ofNat 4 n) (commandInst w) = w := by
  rw [← op, BitVec.ofNat_toNat, BitVec.setWidth_eq, commandWord_fields]

/-- A stateless operation is decoded only where the instance field is zero (R82, R87). -/
theorem stateless_ok {w : BitVec 8} {i j : Instr} : stateless w i = .ok j ↔ commandInst w = 0 ∧ i = j := by
  unfold stateless
  split <;> simp [*]

/-! Decoder and encoder (R82, R83). -/

/-- The decoder reads from the word of an instruction that instruction. -/
theorem decode_encode (i : Instr) : decode (encode i) = .ok i := by
  cases i with
  | clarke => simp [encode, decode, decodeCommand, stateless]
  | park => simp [encode, decode, decodeCommand, stateless]
  | ipark => simp [encode, decode, decodeCommand, stateless]
  | lpf i => simp [encode, decode, decodeCommand]
  | intg i => exact decode_commandWord_intg i
  | pi i => simp [encode, decode, decodeCommand]
  | pll i => simp [encode, decode, decodeCommand]
  | cycle t => cases t <;> rfl

/-- A command word that decodes is the word of the command it decodes to. -/
theorem encode_of_decodeCommand {w : BitVec 8} {i : Instr} (ok : decodeCommand w = .ok i) : encode i = .command w := by
  have word {n : Nat} (op : (commandOp w).toNat = n) := congrArg BusWord.command (commandWord_of_op op)
  have stateless_word {n : Nat} {j : Instr} (op : (commandOp w).toNat = n) (h : stateless w j = .ok i) :
      .command (commandWord (BitVec.ofNat 4 n) 0) = BusWord.command w ∧ j = i := by
    obtain ⟨inst, same⟩ := stateless_ok.1 h
    exact ⟨inst ▸ word op, same⟩
  unfold decodeCommand at ok
  split at ok
  case h_1 op => obtain ⟨e, rfl⟩ := stateless_word op ok; exact e
  case h_2 op => obtain ⟨e, rfl⟩ := stateless_word op ok; exact e
  case h_3 op => obtain ⟨e, rfl⟩ := stateless_word op ok; exact e
  case h_4 op => cases ok; exact word op
  case h_5 op => cases ok; exact word op
  case h_6 op => cases ok; exact word op
  case h_7 op => cases ok; exact word op
  case h_8 => cases ok

/-- An event word with `tick` set is the word of its event. -/
theorem encode_of_decodeEvent {w : BitVec 2} {i : Instr} (ok : decodeEvent w = .ok i) : encode i = .event w := by
  obtain ⟨tick, rfl⟩ := decodeEvent_ok.1 ok
  refine congrArg BusWord.event ?_
  revert tick w
  decide

/-- Settles O27: one direction constructor by constructor, the other by the formats; a word is its two fields. -/
theorem encodingRoundTrip : Obligations.EncodingRoundTrip := by
  refine ⟨decode_encode, fun w i ok => ?_⟩
  cases w with
  | command w => exact encode_of_decodeCommand ok
  | event w => exact encode_of_decodeEvent ok

/-- Settles O28: the decoder evaluates each word. -/
theorem tableWordsDecode : Obligations.TableWordsDecode := by
  unfold Obligations.TableWordsDecode
  decide

end Sys2Proof.Machine
end

section
/-! PROOFS. What a command word that names no operation of the build raises (spec/30_encoding.md section 3), and that a
well-formed build holds no such word. -/

namespace Sys2Proof.Machine

/-! The words the decoder rejects (R86, R87). -/

theorem stateless_error {w : BitVec 8} {i : Instr} {e : DecodeError} (h : stateless w i = .error e) :
    e = .badInstance w := by
  unfold stateless at h
  split at h
  · cases h
  · exact (Except.error.inj h).symm

/-- A word the decoder rejects is rejected by name (R86, R87). -/
theorem decodeCommand_error {w : BitVec 8} {e : DecodeError} (h : decodeCommand w = .error e) :
    e = .illegalOp w ∨ e = .badInstance w := by
  unfold decodeCommand at h
  split at h
  case h_1 | h_2 | h_3 => exact .inr (stateless_error h)
  case h_4 | h_5 | h_6 | h_7 => cases h
  case h_8 => exact .inl (Except.error.inj h).symm

theorem decodeCommand_reserved {w : BitVec 8} (op : (commandOp w).toNat = 0 ∨ 8 ≤ (commandOp w).toNat) :
    decodeCommand w = .error (.illegalOp w) := by
  unfold decodeCommand
  split <;> first | rfl | omega

theorem decodeCommand_stateless_bad {w : BitVec 8}
    (op : (commandOp w).toNat = 1 ∨ (commandOp w).toNat = 2 ∨ (commandOp w).toNat = 3) (inst : commandInst w ≠ 0) :
    decodeCommand w = .error (.badInstance w) := by
  rcases op with op | op | op <;> simp [decodeCommand, stateless, op, inst]

/-! What their issue raises (R173, R174). -/

/-- A word the decoder rejects raises its fault (R173, R174). -/
theorem issueWith_of_error {st : WireStep} {e : DecodeError} (s : State) (h : decodeCommand st.cmd = .error e) :
    issueWith exec st s = .fault (commandFault st.cmd e) := by
  unfold issueWith; rw [h]

/-- A word that decodes runs its operation on the loaded operands (R93). -/
theorem issueWith_of_ok {st : WireStep} {i : Instr} (s : State) (h : decodeCommand st.cmd = .ok i) :
    issueWith exec st s = andThen (exec i (s.setArg (argsOf s st.args))) fun t =>
      .next ((t.setNet (storeResults t.res st.dst 0 t.net)).setStep (t.stepIdx + 1)) := by
  unfold issueWith; rw [h]

theorem withInstance_of_not_wf {s : State} {i : Instr} (o : Out) (h : i.wf s.build = false) :
    withInstance s i o = .fault (.badInstance (encodeCommand i)) := by
  rw [withInstance, h]; rfl

/-- An operation of an instance the build does not have raises `BadInstance` with its own word, whatever its operands
hold (R87, R174). -/
theorem exec_of_not_wf {s : State} {i : Instr} (h : i.wf s.build = false) :
    exec i s = .fault (.badInstance (encodeCommand i)) := by
  cases i with
  | lpf i => exact withInstance_of_not_wf _ h
  | intg i => exact withInstance_of_not_wf _ h
  | pi i => exact withInstance_of_not_wf _ h
  | pll i => exact withInstance_of_not_wf _ h
  | clarke => cases h
  | park => cases h
  | ipark => cases h
  | cycle t => cases h

/-- A step whose word names an absent instance raises `BadInstance` with that word (R174). -/
theorem issueWith_of_not_wf {s : State} {st : WireStep} {i : Instr} (ok : decodeCommand st.cmd = .ok i)
    (h : i.wf s.build = false) : issueWith exec st s = .fault (.badInstance st.cmd) := by
  have word : encodeCommand i = st.cmd := by rw [encodeCommand, encode_of_decodeCommand ok]
  rw [issueWith_of_ok s ok, exec_of_not_wf (s := s.setArg (argsOf s st.args)) h, word]
  rfl

/-! What a well-formed build holds (R92). -/

/-- Clauses (a) and (b) of R92: every step's word is an operation of the build, and its lists have the operation's
lengths. -/
theorem buildWf_step {b : Build} {st : WireStep} (wf : buildWf b = true) (mem : st ∈ b.wiring.steps) :
    ∃ i, decodeCommand st.cmd = .ok i ∧ i.wf b = true ∧ st.args.length = i.argCount ∧ st.dst.length = i.resCount := by
  have shape : stepShapeOk b st = true := by
    simp only [buildWf, Bool.and_eq_true, List.all_eq_true] at wf
    obtain ⟨⟨⟨⟨⟨-, shapes⟩, -⟩, -⟩, -⟩, -⟩ := wf
    exact shapes st mem
  unfold stepShapeOk at shape
  split at shape
  case h_1 => cases shape
  case h_2 i ok =>
    simp only [Bool.and_eq_true, decide_eq_true_eq] at shape
    obtain ⟨⟨present, args⟩, dst⟩ := shape
    exact ⟨i, ok, present, args, dst⟩

/-- A build with a word the decoder rejects is not well formed. -/
theorem buildWf_of_error {b : Build} {st : WireStep} {e : DecodeError} (mem : st ∈ b.wiring.steps)
    (h : decodeCommand st.cmd = .error e) : buildWf b = false := by
  rw [Bool.eq_false_iff]
  intro wf
  obtain ⟨i, ok, -⟩ := buildWf_step wf mem
  cases h.symm.trans ok

/-- A build with a word of an absent instance is not well formed. -/
theorem buildWf_of_not_wf {b : Build} {st : WireStep} {i : Instr} (mem : st ∈ b.wiring.steps)
    (ok : decodeCommand st.cmd = .ok i) (h : i.wf b = false) : buildWf b = false := by
  rw [Bool.eq_false_iff]
  intro wf
  obtain ⟨j, ok', present, -⟩ := buildWf_step wf mem
  obtain rfl : i = j := Except.ok.inj (ok.symm.trans ok')
  exact Bool.noConfusion (h.symm.trans present)

/-- Settles O29: the decoder rejects the word, so its issue raises and no well-formed build holds it. -/
theorem reservedOpRaises : Obligations.ReservedOpRaises := by
  intro s st op
  have rejected := decodeCommand_reserved op
  refine ⟨fun i ok => ?_, issueWith_of_error s rejected, fun b mem => buildWf_of_error mem rejected⟩
  cases rejected.symm.trans (show decodeCommand st.cmd = .ok i from ok)

/-- Settles O30: a stateless operation with an instance is rejected by the decoder, a stateful one of an absent instance
by the operation. -/
theorem badInstanceRaises : Obligations.BadInstanceRaises := by
  intro s st bad
  have absent {i : Instr} (ok : decodeCommand st.cmd = .ok i) (h : i.wf s.build = false) :
      issueWith exec st s = .fault (.badInstance st.cmd) ∧ (st ∈ s.build.wiring.steps → buildWf s.build = false) :=
    ⟨issueWith_of_not_wf ok h, fun mem => buildWf_of_not_wf mem ok h⟩
  rcases bad with ⟨op, inst⟩ | ⟨op, above⟩ | ⟨op, above⟩ | ⟨op, above⟩ | ⟨op, above⟩
  · have rejected := decodeCommand_stateless_bad op inst
    exact ⟨issueWith_of_error s rejected, fun mem => buildWf_of_error mem rejected⟩
  · exact absent (i := .lpf (commandInst st.cmd)) (by simp [decodeCommand, op]) (by simpa [Instr.wf] using above)
  · exact absent (i := .intg (commandInst st.cmd)) (by simp [decodeCommand, op]) (by simpa [Instr.wf] using above)
  · exact absent (i := .pi (commandInst st.cmd)) (by simp [decodeCommand, op]) (by simpa [Instr.wf] using above)
  · exact absent (i := .pll (commandInst st.cmd)) (by simp [decodeCommand, op]) (by simpa [Instr.wf] using above)

/-- Settles O31: the word is rejected by name, or names an absent instance, or is an operation of the build. -/
theorem everyCommandWordRunsOrRaises : Obligations.EveryCommandWordRunsOrRaises := by
  intro s st
  cases decoded : decodeCommand st.cmd with
  | error e =>
    rcases decodeCommand_error decoded with rfl | rfl
    · exact .inr (.inl (issueWith_of_error s decoded))
    · exact .inr (.inr (issueWith_of_error s decoded))
  | ok i =>
    cases present : i.wf s.build with
    | true => exact .inl ⟨i, decoded, decodeCommand_isCommand decoded, present⟩
    | false => exact .inr (.inr (issueWith_of_not_wf decoded present))

end Sys2Proof.Machine
end

section
/-! PROOFS. What one `clk` edge does, once: the edge it is, the epilogue as one equation, and the registers a host write
can reach. The invariants and the laws of the cycle are derived from these. -/

namespace Sys2Proof.Machine

/-! One edge. -/

/-- The state at an edge whose ports carry `p` and after which the edges `rest` are to come. -/
def State.atPorts (s : State) (p : Pins) (rest : List PortEdge) : State := ({ s with inputs := rest } : State).atEdge p

/-- A step is a reset edge, or the host's part of an edge and then the driver's (R179, R200). -/
theorem step_effect {s t : State} (h : step s = .next t) :
    (∃ e rest, s.inputs = e :: rest ∧ e.rstN = false ∧ t = ({ s with inputs := rest } : State).afterReset e.pins) ∨
    ∃ p rest u, HostEffect (s.atPorts p rest) u ∧ DriverEffect u t := by
  have edge {e : PortEdge} {rest : List PortEdge} (h : clockEdge e { s with inputs := rest } = .next t) :
      (e.rstN = false ∧ t = ({ s with inputs := rest } : State).afterReset e.pins) ∨
      ∃ u, HostEffect (s.atPorts e.pins rest) u ∧ DriverEffect u t := by
    rcases clockEdge_next.1 h with reset | ⟨-, u, host, driver⟩
    · exact .inl reset
    · exact .inr ⟨u, hostEdge_effect host, driverEdge_effect driver⟩
  unfold step at h
  split at h
  case h_1 none_left =>
    have same : s = { s with inputs := [] } := by rw [← none_left]
    rw [same] at h
    rcases edge h with ⟨reset, -⟩ | ⟨u, host, driver⟩
    · cases reset
    · exact .inr ⟨_, _, u, host, driver⟩
  case h_2 e rest listed =>
    rcases edge h with ⟨reset, e'⟩ | ⟨u, host, driver⟩
    · exact .inl ⟨e, rest, listed, reset, e'⟩
    · exact .inr ⟨_, _, u, host, driver⟩

/-! The epilogue. -/

/-- The state the buffer machine leaves at the end of a cycle (R145, R147). -/
def State.captured (s : State) : State := if s.build.bufEn then s.bufferStep s.edge else s

/-- The buffer machine does nothing, or stores one entry; the entry is the last or it is not (R145, R147, R149). -/
theorem captured_cases (s : State) :
    (s.captured = s ∧ (s.build.bufEn = false ∨ s.bstate = .idle ∧ s.edge = false ∨ s.bstate = .full)) ∨
    (s.build.bufEn = true ∧ (s.bstate = .idle ∧ s.edge = true ∨ s.bstate = .filling) ∧
      (s.bidx + 1 = s.build.bufCap ∧ s.captured = { s.storeSample s.bidx with bidx := 0, bstate := .idle } ∨
       s.bidx + 1 ≠ s.build.bufCap ∧
        s.captured = { s.storeSample s.bidx with bidx := s.bidx + 1, bstate := .filling })) := by
  unfold State.captured
  by_cases enabled : s.build.bufEn = true
  · rw [if_pos enabled]
    rcases bufferStep_cases s s.edge with ⟨e, why⟩ | ⟨e, why⟩
    · exact .inl ⟨e, .inr why⟩
    · rw [e]
      exact .inr ⟨enabled, why, fillEntry_cases s⟩
  · rw [if_neg enabled]
    exact .inl ⟨rfl, .inl (by simpa using enabled)⟩

/-- The buffer machine writes the buffer, its index and its state alone (R147). -/
theorem captured_frame (s : State) :
    s.captured = { s with bstate := s.captured.bstate, bidx := s.captured.bidx, buf := s.captured.buf } := by
  rcases captured_cases s with ⟨e, -⟩ | ⟨-, -, ⟨-, e⟩ | ⟨-, e⟩⟩ <;> rw [e] <;> rfl

/-- The store of one entry looks neither at the mode nor at the outputs. -/
theorem fillEntry_unread (s : State) (r : Bool) (acts holds : Bank Scalar) :
    ({ s with run := r, act := acts, hold := holds } : State).fillEntry =
      { s.fillEntry with run := r, act := acts, hold := holds } := by
  unfold State.fillEntry
  by_cases last : s.bidx + 1 = s.build.bufCap <;> simp only [last, if_true, if_false] <;> rfl

/-- The buffer machine looks neither at the mode nor at the outputs. -/
theorem captured_unread (s : State) (r : Bool) (acts holds : Bank Scalar) :
    ({ s with run := r, act := acts, hold := holds } : State).captured =
      { s.captured with run := r, act := acts, hold := holds } := by
  simp only [State.captured, State.bufferStep, fillEntry_unread]
  split
  · split
    · split <;> rfl
    · rfl
    · rfl
  · rfl

/-- What the epilogue leaves, field by field: the outputs, the buffer machine, and the chain re-armed where a START was
performed during the cycle (R141, R144, R147, R181, R185). -/
theorem epilogueState_eq (s : State) (acts holds : Bank Scalar) :
    s.epilogueState acts holds =
      { s with
        act := acts, hold := holds, stepIdx := 0, busy := false, edge := false, done := true, rearm := false,
        bstate := s.captured.bstate, bidx := s.captured.bidx, buf := s.captured.buf,
        net := if s.rearm then [] else s.net, arg := if s.rearm then ArgRegs.empty else s.arg,
        res := if s.rearm then ResRegs.empty else s.res } := by
  have machine : (if s.build.bufEn then ({ s with act := acts, hold := holds } : State).bufferStep s.edge
      else { s with act := acts, hold := holds }) =
      { s with act := acts, hold := holds, bstate := s.captured.bstate, bidx := s.captured.bidx,
               buf := s.captured.buf } :=
    (captured_unread s s.run acts holds).trans (by rw [captured_frame])
  simp only [State.epilogueState, machine]
  cases rearm : s.rearm
  · rfl
  · rfl

/-! The registers the host reaches. -/

/-- The register is one of the build (R62): its instance or its output exists. -/
def RegName.present (b : Build) : RegName → Prop
  | .act j => j.val < b.nAct
  | .hold k => k.val < b.nHold
  | .lpfFc i => i.val < b.nLpf
  | .lpfDt i => i.val < b.nLpf
  | .lpfY i => i.val < b.nLpf
  | .intgAcc i => i.val < b.nIntg
  | .pi i _ => i.val < b.nPi
  | .pllPi i _ => i.val < b.nPll
  | .theta i => i.val < b.nPll
  | .omega i => i.val < b.nPll
  | .freq i => i.val < b.nPll
  | .ctrl => True
  | .dt => True
  | .status => True
  | .bidx => True
  | .sa => True
  | .sb => True
  | .sc => True

theorem onlyIf_eq_some {c : Bool} {o : Option RegName} {r : RegName} :
    onlyIf c o = some r ↔ c = true ∧ o = some r := by
  cases c <;> simp [onlyIf]

theorem globalReg_present {b : Build} {n : Nat} {r : RegName} (h : globalReg n = some r) : r.present b := by
  unfold globalReg at h
  split at h <;> cases h <;> trivial

theorem lpfReg_present {b : Build} {i : Inst} {n : Nat} {r : RegName} (h : lpfReg i n = some r) (hi : i.val < b.nLpf) :
    r.present b := by
  unfold lpfReg at h
  split at h <;> cases h <;> exact hi

theorem pllReg_present {b : Build} {i : Inst} {n : Nat} {r : RegName} (h : pllReg i n = some r) (hi : i.val < b.nPll) :
    r.present b := by
  unfold pllReg at h
  split at h
  case h_4 =>
    obtain ⟨x, -, rfl⟩ := Option.map_eq_some_iff.1 h
    exact hi
  all_goals cases h; exact hi

/-- Only registers of the build have an address (R62). -/
theorem decodeReg_present {b : Build} {a : BitVec 12} {r : RegName} (h : decodeReg b a = some r) : r.present b := by
  unfold decodeReg at h
  simp only at h
  split at h
  case h_8 => cases h
  all_goals
    obtain ⟨cond, h⟩ := onlyIf_eq_some.1 h
    simp only [Bool.and_eq_true, decide_eq_true_eq] at cond
  case h_1 => exact globalReg_present h
  case h_2 => cases h; exact cond.2
  case h_3 => cases h; exact cond.2
  case h_4 => exact lpfReg_present h cond
  case h_5 => cases h; exact cond.1
  case h_6 =>
    obtain ⟨x, -, rfl⟩ := Option.map_eq_some_iff.1 h
    exact cond
  case h_7 => exact pllReg_present h cond

end Sys2Proof.Machine
end

section
/-! PROOFS. The invariant of the machine (spec/10_state.md): reset has it, and the host's part of an edge, one command,
the chain and the epilogue each keep it. -/

namespace Sys2Proof.Machine

/-! Reset. -/

/-- A bank filled with one value holds it everywhere. -/
theorem replicate_get {α : Type} (x : α) (i : Inst) : (Vector.replicate 16 x)[i] = x := Vector.getElem_replicate i.isLt

/-- The machine after reset has the invariant, whatever the build (R201, R202). -/
theorem resetOf_inv (b : Build) : (State.resetOf b).Inv where
  bufCanonical := rfl
  netCanonical := rfl
  neverFull := nofun
  idleAtZero _ := rfl
  indexInside _ cap := cap
  lanesExist _ _ _ read := nomatch read
  noBuffer _ := ⟨rfl, rfl⟩
  stepZero _ := rfl
  rearmInCycle := nofun
  stepInside := Nat.zero_le _
  noLpf i _ := replicate_get _ i
  noIntg i _ := replicate_get _ i
  noPi i _ := replicate_get _ i
  noPll i _ := replicate_get _ i
  noAct j _ := replicate_get _ j
  noHold k _ := replicate_get _ k

/-- Settles O39: the literal of R202, for this hardware and for every build. -/
theorem resetHasInvariant : Obligations.ResetHasInvariant := ⟨resetOf_inv _, resetOf_inv⟩

/-- The invariant does not speak of the sample ports and of the edges to come. -/
theorem afterReset_inv (s : State) (p : Pins) : (s.afterReset p).Inv :=
  { resetOf_inv s.build with }

theorem State.Inv.atPorts {s : State} (inv : s.Inv) (p : Pins) (rest : List PortEdge) : (s.atPorts p rest).Inv :=
  { inv with }

/-! The host's part of an edge. -/

/-- A write below `n` leaves what a bank holds from `n` upward. -/
theorem put_keeps_above {α : Type} {b : Bank α} {n : Nat} {z : α} (h : ∀ j : Inst, n ≤ j.val → b[j] = z) {i : Inst}
    (x : α) (below : i.val < n) (j : Inst) (above : n ≤ j.val) : (Bank.put b i x)[j] = z := by
  rw [Bank.put_ne b x (fun e => by subst e; omega), h j above]

/-- A write to a register of the build leaves the registers of absent instances and all the machinery (R62). -/
theorem storeReg_inv {s : State} {r : RegName} (d : HostData) (inv : s.Inv) (present : r.present s.build) :
    (storeReg s r d).Inv := by
  cases r with
  | ctrl => exact inv
  | status => exact inv
  | bidx => exact inv
  | sa => exact inv
  | sb => exact inv
  | sc => exact inv
  | dt => exact { inv with }
  | act j => exact { inv with noAct := put_keeps_above inv.noAct _ present }
  | hold k => exact { inv with noHold := put_keeps_above inv.noHold _ present }
  | lpfFc i => exact { inv with noLpf := put_keeps_above inv.noLpf _ present }
  | lpfDt i => exact { inv with noLpf := put_keeps_above inv.noLpf _ present }
  | lpfY i => exact { inv with noLpf := put_keeps_above inv.noLpf _ present }
  | intgAcc i => exact { inv with noIntg := put_keeps_above inv.noIntg _ present }
  | pi i r => exact { inv with noPi := put_keeps_above inv.noPi _ present }
  | pllPi i r => exact { inv with noPll := put_keeps_above inv.noPll _ present }
  | theta i => exact { inv with noPll := put_keeps_above inv.noPll _ present }
  | omega i => exact { inv with noPll := put_keeps_above inv.noPll _ present }
  | freq i => exact { inv with noPll := put_keeps_above inv.noPll _ present }

/-- START re-arms the buffer machine at zero (R185). -/
theorem captureRearmed_inv {s : State} (inv : s.Inv) : s.captureRearmed.Inv :=
  { inv with
    neverFull := nofun
    idleAtZero := fun _ => rfl
    indexInside := fun _ cap => cap
    noBuffer := fun disabled => ⟨rfl, (inv.noBuffer disabled).2⟩ }

theorem hostEffect_inv {s t : State} (inv : s.Inv) (h : HostEffect s t) : t.Inv := by
  cases h with
  | nothing => exact inv
  | read v => exact { inv with }
  | stored a r d init idle mapped writable => exact storeReg_inv d inv (decodeReg_present mapped)
  | stopped => exact { inv with }
  | started init idle wf valid =>
    exact { captureRearmed_inv inv with
      netCanonical := rfl
      stepZero := fun _ => rfl
      rearmInCycle := nofun
      stepInside := Nat.zero_le _ }
  | startedInCycle init busy wf valid => exact { captureRearmed_inv inv with rearmInCycle := fun _ => busy }

/-! The driver's part of an edge. -/

/-- The prologue empties the nets and sets `step` to zero (R141). -/
theorem enterCycle_inv {s : State} (tr : Bool) (inv : s.Inv) : (s.enterCycle tr).Inv :=
  { inv with
    netCanonical := rfl
    stepZero := nofun
    rearmInCycle := nofun
    stepInside := Nat.zero_le _ }

/-- A step that answers a next state names an instance of the build (R87). -/
theorem issueWith_present {st : WireStep} {s t : State} {i : Instr} (h : issueWith exec st s = .next t)
    (ok : decodeCommand st.cmd = .ok i) : i.wf s.build = true := by
  by_contra absent
  cases h.symm.trans (issueWith_of_not_wf ok (by simpa using absent))

/-- One command of a cycle keeps the invariant: it writes its own instance, which exists, and moves `step` on inside the
wiring. -/
theorem issueWith_inv {st : WireStep} {s t : State} (inv : s.Inv) (busy : s.busy = true)
    (room : s.stepIdx < s.build.wiring.steps.length) (h : issueWith exec st s = .next t) : t.Inv := by
  obtain ⟨kept, moved, netWf, i, ok, block⟩ := issueWith_frame h
  have present := issueWith_present h ok
  have other {j : Inst} {n : Nat} {f : Inst → Instr} (wf : ∀ j, (f j).wf s.build = decide (j.val < n))
      (above : n ≤ j.val) : i ≠ f j := by
    rintro rfl
    rw [wf, decide_eq_true_eq] at present
    omega
  exact
    { bufCanonical := kept.buf ▸ inv.bufCanonical
      netCanonical := netWf inv.netCanonical
      neverFull := kept.bstate ▸ inv.neverFull
      idleAtZero := by rw [kept.bstate, kept.bidx]; exact inv.idleAtZero
      indexInside := by rw [kept.build, kept.bidx]; exact inv.indexInside
      lanesExist := by rw [kept.build, kept.buf]; exact inv.lanesExist
      noBuffer := by rw [kept.build, kept.bstate, kept.buf]; exact inv.noBuffer
      stepZero := fun idle => by rw [kept.busy, busy] at idle; cases idle
      rearmInCycle := fun _ => kept.busy.trans busy
      stepInside := by rw [moved, kept.build]; exact room
      noLpf := fun j above => by
        rw [kept.build] at above; exact (block.lpf j (other (fun _ => rfl) above)).trans (inv.noLpf j above)
      noIntg := fun j above => by
        rw [kept.build] at above; exact (block.intg j (other (fun _ => rfl) above)).trans (inv.noIntg j above)
      noPi := fun j above => by
        rw [kept.build] at above; exact (block.pi j (other (fun _ => rfl) above)).trans (inv.noPi j above)
      noPll := fun j above => by
        rw [kept.build] at above; exact (block.pll j (other (fun _ => rfl) above)).trans (inv.noPll j above)
      noAct := by rw [kept.build, kept.act]; exact inv.noAct
      noHold := by rw [kept.build, kept.hold]; exact inv.noHold }

/-- The chain keeps the invariant where its steps fit into the wiring. -/
theorem runSteps_inv {steps : List WireStep} {s t : State} (inv : s.Inv) (busy : s.busy = true)
    (room : s.stepIdx + steps.length ≤ s.build.wiring.steps.length) (h : runSteps steps s = .next t) : t.Inv := by
  induction steps generalizing s with
  | nil => cases h; exact inv
  | cons st rest ih =>
    obtain ⟨u, first, others⟩ := runSteps_cons_next.1 h
    obtain ⟨kept, moved, -⟩ := issueWith_frame first
    rw [List.length_cons] at room
    refine ih (issueWith_inv inv busy (by omega) first) (kept.busy.trans busy) ?_ others
    rw [moved, kept.build]
    omega

/-- The lanes of an entry are those of its number (R63). -/
theorem storeSample_lane {s : State} {n a : Nat} {x : Scalar} (read : (s.storeSample n).buf.read a = some x) :
    s.buf.read a = some x ∨ a % 4 ≠ 3 ∧ a / 4 = n := by
  rw [storeSample_read] at read
  unfold bufAddr at read
  by_cases lane : 4 * n + 2 = a ∨ 4 * n + 1 = a ∨ 4 * n + 0 = a
  · exact .inr (by omega)
  · simp only [not_or] at lane
    obtain ⟨c, b, a⟩ := lane
    rw [if_neg c, if_neg b, if_neg a] at read
    exact .inl read

/-- The buffer machine keeps the invariant: the entry it stores exists, and the index stays inside the buffer (R147,
R148, R149). -/
theorem captured_inv {s : State} (inv : s.Inv) : s.captured.Inv := by
  rcases captured_cases s with ⟨e, -⟩ | ⟨enabled, -, ⟨last, e⟩ | ⟨notLast, e⟩⟩
  · rw [e]; exact inv
  all_goals
    have lanes (cap : 1 ≤ s.build.bufCap) (a : Nat) (x : Scalar) (read : (s.storeSample s.bidx).buf.read a = some x) :
        a % 4 ≠ 3 ∧ a / 4 < s.build.bufCap := by
      rcases storeSample_lane read with old | ⟨lane, entry⟩
      · exact inv.lanesExist cap a x old
      · exact ⟨lane, entry ▸ inv.indexInside enabled cap⟩
    rw [e]
  · exact { inv with
      bufCanonical := storeSample_wf _ inv.bufCanonical
      neverFull := nofun
      idleAtZero := fun _ => rfl
      indexInside := fun _ cap => cap
      lanesExist := lanes
      noBuffer := fun disabled => Bool.noConfusion (enabled.symm.trans disabled) }
  · exact { inv with
      bufCanonical := storeSample_wf _ inv.bufCanonical
      neverFull := nofun
      idleAtZero := nofun
      indexInside := fun _ cap => lt_of_le_of_ne (inv.indexInside enabled cap) notLast
      lanesExist := lanes
      noBuffer := fun disabled => Bool.noConfusion (enabled.symm.trans disabled) }

/-- An output beyond the wiring's list keeps its register (R144). -/
theorem copyNets_keeps_above {net : Cells} {srcs : List Nat} {bank b : Bank Scalar}
    (h : copyNets net srcs 0 bank = .ok b) {j : Inst} (above : srcs.length ≤ j.val) : b[j] = bank[j] :=
  (copyNets_get h j).1 (.inr (by omega))

/-- The epilogue keeps the invariant. -/
theorem leaveCycle_inv {s t : State} (inv : s.Inv) (h : leaveCycle s = .next t) : t.Inv := by
  obtain ⟨acts, holds, copiedActs, copiedHolds, rfl⟩ := leaveCycle_next.1 h
  have machine := captured_inv inv
  have build : s.captured.build = s.build := by rw [captured_frame]
  rw [epilogueState_eq]
  exact
    { inv with
      bufCanonical := machine.bufCanonical
      netCanonical := by dsimp only; split; exacts [rfl, inv.netCanonical]
      neverFull := machine.neverFull
      idleAtZero := machine.idleAtZero
      indexInside := build ▸ machine.indexInside
      lanesExist := build ▸ machine.lanesExist
      noBuffer := build ▸ machine.noBuffer
      stepZero := fun _ => rfl
      rearmInCycle := nofun
      stepInside := Nat.zero_le _
      noAct := fun j above => (copyNets_keeps_above copiedActs above).trans (inv.noAct j above)
      noHold := fun k above => (copyNets_keeps_above copiedHolds above).trans (inv.noHold k above) }

theorem driverEffect_inv {s t : State} (inv : s.Inv) (h : DriverEffect s t) : t.Inv := by
  cases h with
  | nothing => exact inv
  | issued st t busy at_ h => exact issueWith_inv inv busy (List.getElem?_eq_some_iff.1 at_).1 h
  | left t busy at_ h => exact leaveCycle_inv inv h
  | opened tr takes => exact enterCycle_inv tr inv
  | cycled tr u t takes chain h =>
    exact leaveCycle_inv (runSteps_inv (enterCycle_inv tr inv) rfl (Nat.zero_add _).le chain) h

/-- Settles O38: reset has the invariant, and each part of an edge keeps it. -/
theorem stepKeepsInvariant : Obligations.StepKeepsInvariant := by
  intro s t inv h
  rcases step_effect h with ⟨e, rest, -, -, rfl⟩ | ⟨p, rest, u, host, driver⟩
  · exact afterReset_inv _ _
  · exact driverEffect_inv (hostEffect_inv (inv.atPorts p rest) host) driver

end Sys2Proof.Machine
end

section
/-! PROOFS. The configuration (spec/70_reset_and_hazards.md section 2, spec/60_exceptions.md section 3): no edge but
reset changes it in RUN mode or in a cycle, and from START on it stays valid. -/

namespace Sys2Proof.Machine

/-! The same configuration (R186). -/

theorem SameConfig.refl (s : State) : SameConfig s s :=
  ⟨rfl, rfl, fun _ => ⟨rfl, rfl⟩, fun _ => rfl, fun _ => rfl⟩

theorem SameConfig.trans {s t u : State} (h : SameConfig s t) (g : SameConfig t u) : SameConfig s u := by
  obtain ⟨build, dt, lpf, pi, pll⟩ := h
  obtain ⟨build', dt', lpf', pi', pll'⟩ := g
  exact ⟨build'.trans build, dt'.trans dt, fun i => ⟨(lpf' i).1.trans (lpf i).1, (lpf' i).2.trans (lpf i).2⟩,
    fun i => (pi' i).trans (pi i), fun i => (pll' i).trans (pll i)⟩

theorem KeptByIssue.sameConfig {s t : State} (kept : KeptByIssue s t) : SameConfig s t :=
  ⟨kept.build, kept.dt, kept.lpfConfig, kept.piConfig, kept.pllConfig⟩

theorem leaveCycle_sameConfig {s t : State} (h : leaveCycle s = .next t) : SameConfig s t := by
  obtain ⟨acts, holds, -, -, rfl⟩ := leaveCycle_next.1 h
  rw [epilogueState_eq]
  exact SameConfig.refl s

/-- The driver writes no configuration register (R74). -/
theorem driverEffect_sameConfig {s t : State} (h : DriverEffect s t) : SameConfig s t := by
  cases h with
  | nothing => exact SameConfig.refl s
  | issued st t busy at_ h => exact (issueWith_frame h).1.sameConfig
  | left t busy at_ h => exact leaveCycle_sameConfig h
  | opened tr takes => exact SameConfig.refl s
  | cycled tr u t takes chain h => exact (runSteps_frame chain).sameConfig.trans (leaveCycle_sameConfig h)

/-- In RUN mode and in a cycle the host writes no configuration register (R186). -/
theorem hostEffect_sameConfig {s t : State} (active : s.run = true ∨ s.busy = true) (h : HostEffect s t) :
    SameConfig s t := by
  cases h with
  | stored a r d init idle mapped writable => simp [init, idle] at active
  | nothing => exact SameConfig.refl s
  | read v => exact SameConfig.refl s
  | stopped => exact SameConfig.refl s
  | started init idle wf valid => exact SameConfig.refl s
  | startedInCycle init busy wf valid => exact SameConfig.refl s

/-- Settles O41: without a reset the edge is the host's part and the driver's, and neither writes the configuration. -/
theorem runModeKeepsConfiguration : Obligations.RunModeKeepsConfiguration := by
  intro s t active noReset h
  rcases step_effect h with ⟨e, rest, listed, reset, -⟩ | ⟨p, rest, u, host, driver⟩
  · cases (noReset e rest listed).symm.trans reset
  · have ports : SameConfig s (s.atPorts p rest) := SameConfig.refl s
    have hostSame : SameConfig (s.atPorts p rest) u := hostEffect_sameConfig active host
    exact ports.trans (hostSame.trans (driverEffect_sameConfig driver))

/-! The same verdict (R206). -/

/-- `ValidConfig` looks at a PI controller's configuration alone. -/
theorem boundsOk_congr {c : Numerics} {p q : PiRegs} (h : q.config = p.config) : boundsOk c q = boundsOk c p := by
  change boundsOk c q.config = boundsOk c p.config
  rw [h]

/-- `ValidConfig` looks at the configuration registers and the build alone. -/
theorem configFault_congr {s t : State} (h : SameConfig s t) : configFault t = configFault s := by
  obtain ⟨build, dt, lpf, pi, pll⟩ := h
  have lpfSame : lpfInvalid t = lpfInvalid s := by
    funext i
    cases i with
    | lpf i => simp only [lpfInvalid, build, (lpf i).1, (lpf i).2]
    | _ => rfl
  have piSame : piInvalid t = piInvalid s := by
    funext i
    cases i with
    | pi i => simp only [piInvalid, build, boundsOk_congr (pi i)]
    | pll i => simp only [piInvalid, build, boundsOk_congr (pll i)]
    | _ => rfl
  unfold configFault
  rw [build, dt, lpfSame, piSame]

theorem validConfig_congr {s t : State} (h : SameConfig s t) : validConfig t = validConfig s :=
  congrArg Option.isNone (configFault_congr h)

/-! From START on (R158, R206). -/

/-- A step that keeps the configuration, and is active only where the machine was active before, keeps `RunValid`. -/
theorem State.RunValid.of_sameConfig {s t : State} (valid : s.RunValid) (same : SameConfig s t)
    (active : t.run = true ∨ t.busy = true → s.run = true ∨ s.busy = true) : t.RunValid := by
  intro h
  obtain ⟨wf, config⟩ := valid (active h)
  exact ⟨same.1 ▸ wf, (validConfig_congr same).trans config⟩

/-- The host's part: START establishes it, and nothing else it does makes an idle core active. -/
theorem hostEffect_runValid {s t : State} (valid : s.RunValid) (h : HostEffect s t) : t.RunValid := by
  cases h with
  | nothing => exact valid
  | read v => exact valid.of_sameConfig (SameConfig.refl s) id
  | stopped => exact valid.of_sameConfig (SameConfig.refl s) fun active => .inr (by simpa using active)
  | stored a r d init idle mapped writable =>
    have kept := storeReg_frame s r d
    intro active
    rw [kept.run, kept.busy, init, idle] at active
    simp at active
  | started init idle wf config => exact fun _ => ⟨wf, (validConfig_congr (SameConfig.refl s)).trans config⟩
  | startedInCycle init busy wf config => exact fun _ => ⟨wf, (validConfig_congr (SameConfig.refl s)).trans config⟩

/-- A tick is taken in RUN mode with no cycle in progress only (R140). -/
theorem takesTick_iff {s : State} : s.takesTick = true ↔ s.run = true ∧ s.busy = false := by
  simp [State.takesTick]

/-- The driver makes no idle core active: a cycle begins in RUN mode only (R140). -/
theorem driverEffect_active {s t : State} (h : DriverEffect s t) (active : t.run = true ∨ t.busy = true) :
    s.run = true ∨ s.busy = true := by
  cases h with
  | nothing => exact active
  | issued st t busy at_ h => exact .inr busy
  | left t busy at_ h => exact .inr busy
  | opened tr takes => exact .inl (takesTick_iff.1 takes).1
  | cycled tr u t takes chain h => exact .inl (takesTick_iff.1 takes).1

/-- Settles O40: reset leaves an idle core in INIT mode, the host's part keeps `RunValid`, and the driver keeps the
configuration and makes no idle core active. -/
theorem stepKeepsRunValid : Obligations.StepKeepsRunValid := by
  intro s t valid h
  rcases step_effect h with ⟨e, rest, -, -, rfl⟩ | ⟨p, rest, u, host, driver⟩
  · intro active
    rcases active with run | busy
    · cases run
    · cases busy
  · have ports : (s.atPorts p rest).RunValid := valid.of_sameConfig (SameConfig.refl s) id
    exact (hostEffect_runValid ports host).of_sameConfig (driverEffect_sameConfig driver) (driverEffect_active driver)

end Sys2Proof.Machine
end

section
/-! PROOFS. Scalars in the reference instance and the verdict of `ValidConfig` (spec/00_scope.md section 5,
spec/70_reset_and_hazards.md section 2): what a scalar stands for is its value there, and a configuration is found valid
exactly when it is. -/

namespace Sys2Proof.Machine

/-! The value of a scalar (R6). -/

/-- A scalar that has a value in the reference instance stands for that value. -/
theorem val_of_evalIn (a : Scalar) {x : ℝ} (h : a.evalIn Num.real Config.freeReal = some x) : a.val = x := by
  induction a generalizing x with
  | lit q => exact Option.some.inj h
  | sqrt3Div2 => exact Option.some.inj h
  | twoPi => exact Option.some.inj h
  | twoPiDiv3 => exact Option.some.inj h
  | free n => exact Option.some.inj h
  | add a b iha ihb =>
    obtain ⟨u, hu, h⟩ := Option.bind_eq_some_iff.1 h
    obtain ⟨v, hv, h⟩ := Option.bind_eq_some_iff.1 h
    rw [Scalar.val, iha hu, ihb hv]; exact Option.some.inj h
  | sub a b iha ihb =>
    obtain ⟨u, hu, h⟩ := Option.bind_eq_some_iff.1 h
    obtain ⟨v, hv, h⟩ := Option.bind_eq_some_iff.1 h
    rw [Scalar.val, iha hu, ihb hv]; exact Option.some.inj h
  | mul a b iha ihb =>
    obtain ⟨u, hu, h⟩ := Option.bind_eq_some_iff.1 h
    obtain ⟨v, hv, h⟩ := Option.bind_eq_some_iff.1 h
    rw [Scalar.val, iha hu, ihb hv]; exact Option.some.inj h
  | div a b iha ihb =>
    obtain ⟨u, hu, h⟩ := Option.bind_eq_some_iff.1 h
    obtain ⟨v, hv, h⟩ := Option.bind_eq_some_iff.1 h
    obtain ⟨nonzero, h⟩ := (Option.ite_none_left_eq_some (p := v = 0)).1 h
    rw [div_val (by rwa [ihb hv]), iha hu, ihb hv]; exact Option.some.inj h
  | cos a iha =>
    obtain ⟨u, hu, h⟩ := Option.bind_eq_some_iff.1 h
    rw [Scalar.val, iha hu]; exact Option.some.inj h
  | sin a iha =>
    obtain ⟨u, hu, h⟩ := Option.bind_eq_some_iff.1 h
    rw [Scalar.val, iha hu]; exact Option.some.inj h
  | ifGt a b x y iha ihb ihx ihy =>
    obtain ⟨u, hu, h⟩ := Option.bind_eq_some_iff.1 h
    obtain ⟨v, hv, h⟩ := Option.bind_eq_some_iff.1 h
    rw [Scalar.val, iha hu, ihb hv]
    by_cases c : u > v
    · rw [if_pos (decide_eq_true c)] at h; rw [if_pos c]; exact ihx h
    · rw [if_neg (by simpa using c)] at h; rw [if_neg c]; exact ihy h
  | ifLt a b x y iha ihb ihx ihy =>
    obtain ⟨u, hu, h⟩ := Option.bind_eq_some_iff.1 h
    obtain ⟨v, hv, h⟩ := Option.bind_eq_some_iff.1 h
    rw [Scalar.val, iha hu, ihb hv]
    by_cases c : u < v
    · rw [if_pos (decide_eq_true c)] at h; rw [if_pos c]; exact ihx h
    · rw [if_neg (by simpa using c)] at h; rw [if_neg c]; exact ihy h

/-- Settles O60: by induction over the scalar, `val_of_evalIn`. -/
theorem valueIsTheReferenceInstance : Obligations.ValueIsTheReferenceInstance := fun a _ h => val_of_evalIn a h

/-- A scalar without a zero divisor has its real value in the reference instance (R6). -/
theorem valueIn_real_of_hasReal {a : Scalar} (h : a.HasReal) : a.valueIn .real = some a.val := by
  obtain ⟨x, hx⟩ := h
  rw [hx, val_of_evalIn a hx]

/-- In the reference instance the build's comparison of two scalars is that of the real numbers. -/
theorem numGreater_real {a b : Scalar} (ha : a.HasReal) (hb : b.HasReal) : NumGreater .real a b ↔ a.val > b.val := by
  constructor
  · rintro ⟨x, y, hx, hy, gt⟩
    rw [val_of_evalIn a hx, val_of_evalIn b hy]
    exact of_decide_eq_true (p := (x : ℝ) > y) gt
  · intro gt
    exact ⟨_, _, valueIn_real_of_hasReal ha, valueIn_real_of_hasReal hb, decide_eq_true gt⟩

/-! The verdict of `ValidConfig` (R206). -/

theorem lpfInvalid_eq_none {s : State} {i : Inst} : lpfInvalid s (.lpf i) = none ↔
    NumGreater s.build.num s.lpf[i].fc zero ∧ NumGreater s.build.num s.lpf[i].dt zero := by
  simp [lpfInvalid, numGt_iff]

theorem boundsOk_iff {c : Numerics} {p : PiRegs} : boundsOk c p = true ↔
    (p.clampEn.intEn = true → ¬ NumGreater c p.intLo p.intHi) ∧
    (p.clampEn.outEn = true → ¬ NumGreater c p.outLo p.outHi) := by
  simp only [boundsOk, Bool.and_eq_true, Bool.or_eq_true, Bool.not_eq_true', ← numGt_iff, Bool.not_eq_true]
  cases p.clampEn.intEn <;> cases p.clampEn.outEn <;> simp

theorem piInvalid_pi {s : State} {i : Inst} : piInvalid s (.pi i) = none ↔ boundsOk s.build.num s.pi[i] = true := by
  simp [piInvalid]

theorem piInvalid_pll {s : State} {i : Inst} :
    piInvalid s (.pll i) = none ↔ boundsOk s.build.num s.pll[i].pi = true := by
  simp [piInvalid]

/-- The three clauses of R206, each over the operations the wiring names. -/
theorem validConfig_iff {s : State} : validConfig s = true ↔
    numGt s.build.num s.dt zero = true ∧ (∀ i ∈ wiringInstrs s.build.wiring, lpfInvalid s i = none) ∧
    (∀ i ∈ wiringInstrs s.build.wiring, piInvalid s i = none) := by
  rw [← List.findSome?_eq_none_iff, ← List.findSome?_eq_none_iff]
  unfold validConfig configFault
  split
  case isTrue gt =>
    cases (wiringInstrs s.build.wiring).findSome? (lpfInvalid s) <;> simp [gt]
  case isFalse gt => simp [gt]

/-- The verdict is the validity of R206 by the comparison of the build's own `NUM`. -/
theorem validConfig_iff_validBy {s : State} : validConfig s = true ↔ ValidBy (NumGreater s.build.num) s := by
  rw [validConfig_iff, numGt_iff]
  refine and_congr_right fun _ => ⟨fun ⟨filters, controllers⟩ => ⟨fun i mem => ?_, fun i mem => ?_, fun i mem => ?_⟩,
    fun ⟨filters, pis, plls⟩ => ⟨fun i mem => ?_, fun i mem => ?_⟩⟩
  · exact lpfInvalid_eq_none.1 (filters _ mem)
  · exact boundsOk_iff.1 (piInvalid_pi.1 (controllers _ mem))
  · exact boundsOk_iff.1 (piInvalid_pll.1 (controllers _ mem))
  · cases i with
    | lpf i => exact lpfInvalid_eq_none.2 (filters i mem)
    | _ => rfl
  · cases i with
    | pi i => exact piInvalid_pi.2 (boundsOk_iff.2 (pis i mem))
    | pll i => exact piInvalid_pll.2 (boundsOk_iff.2 (plls i mem))
    | _ => rfl

/-- Where two comparisons agree on the registers `ValidConfig` compares, so do the verdicts. -/
theorem validBy_congr {gt gt' : Scalar → Scalar → Prop} {s : State} (config : ConfigHasReal s)
    (agree : ∀ a b : Scalar, a.HasReal → b.HasReal → (gt a b ↔ gt' a b)) : ValidBy gt s ↔ ValidBy gt' s := by
  obtain ⟨dt, lpf, pi, pll⟩ := config
  have zeroReal : zero.HasReal := lit_hasReal 0
  have bounds {p : PiRegs}
      (h : p.intLo.HasReal ∧ p.intHi.HasReal ∧ p.outLo.HasReal ∧ p.outHi.HasReal) :
      ((p.clampEn.intEn = true → ¬ gt p.intLo p.intHi) ∧ (p.clampEn.outEn = true → ¬ gt p.outLo p.outHi)) ↔
      ((p.clampEn.intEn = true → ¬ gt' p.intLo p.intHi) ∧ (p.clampEn.outEn = true → ¬ gt' p.outLo p.outHi)) := by
    obtain ⟨intLo, intHi, outLo, outHi⟩ := h
    rw [agree _ _ intLo intHi, agree _ _ outLo outHi]
  refine and_congr (agree _ _ dt zeroReal) (and_congr ?_ (and_congr ?_ ?_))
  · exact forall₂_congr fun i _ => and_congr (agree _ _ (lpf i).1 zeroReal) (agree _ _ (lpf i).2 zeroReal)
  · exact forall₂_congr fun i _ => bounds (pi i)
  · exact forall₂_congr fun i _ => bounds (pll i)

/-- Settles O52: the verdict clause by clause, and in the reference instance the two comparisons agree. -/
theorem validConfigMeansValid : Obligations.ValidConfigMeansValid := by
  intro s
  refine ⟨validConfig_iff_validBy, fun real config => ?_⟩
  rw [validConfig_iff_validBy, real]
  exact validBy_congr config fun _ _ => numGreater_real

end Sys2Proof.Machine
end

section
/-! PROOFS. When an operation and a cycle complete (spec/44_cycle_driver.md section 5, spec/60_exceptions.md section 1):
an operation stops at its lowest empty operand and completes on full ones; on a well-formed build with a valid
configuration no operand, no divisor and no output of a cycle stops it. -/

namespace Sys2Proof.Machine

/-! Empty operands (R84, R175). -/

/-- Operand `j` of an operation whose lowest empty operand is `k`: it is the one that raises, or it is given. -/
theorem operand_raises {s : State} {j k : Nat} {v : Option Scalar} {f : Scalar → Out} (le : j ≤ k)
    (empty : j = k → v = none) (full : j < k → v ≠ none)
    (rest : j < k → ∀ x, f x = .fault (.noValue (.operand s.stepIdx k))) :
    operand s j v f = .fault (.noValue (.operand s.stepIdx k)) := by
  rcases le.eq_or_lt with rfl | lt
  · rw [empty rfl]; rfl
  · obtain ⟨x, rfl⟩ := Option.ne_none_iff_exists'.1 (full lt)
    exact rest lt x

/-- Settles O32: the operation is given its operands in their order up to the lowest empty one, and that one raises. -/
theorem emptyOperandRaises : Obligations.EmptyOperandRaises := by
  intro i s k command present inside empty lower
  have at_ (j : Nat) (e : j = k) : argAt s.arg j = none := e ▸ empty
  have one (f : Scalar → Out) (le : k < 1) :
      operand s 0 s.arg.arg0 f = .fault (.noValue (.operand s.stepIdx k)) :=
    operand_raises (Nat.zero_le _) (at_ 0) (lower 0) fun lt => by omega
  have three (f : Scalar → Scalar → Scalar → Out) (le : k < 3) :
      (operand s 0 s.arg.arg0 fun x => operand s 1 s.arg.arg1 fun y => operand s 2 s.arg.arg2 fun z => f x y z) =
        .fault (.noValue (.operand s.stepIdx k)) :=
    operand_raises (Nat.zero_le _) (at_ 0) (lower 0) fun lt _ =>
      operand_raises lt (at_ 1) (lower 1) fun lt _ =>
        operand_raises lt (at_ 2) (lower 2) fun lt _ => by omega
  have four (f : Scalar → Scalar → Scalar → Scalar → Out) (le : k < 4) :
      (operand s 0 s.arg.arg0 fun x => operand s 1 s.arg.arg1 fun y => operand s 2 s.arg.arg2 fun z =>
        operand s 3 s.arg.arg3 fun w => f x y z w) = .fault (.noValue (.operand s.stepIdx k)) :=
    operand_raises (Nat.zero_le _) (at_ 0) (lower 0) fun lt _ =>
      operand_raises lt (at_ 1) (lower 1) fun lt _ =>
        operand_raises lt (at_ 2) (lower 2) fun lt _ =>
          operand_raises lt (at_ 3) (lower 3) fun lt _ => by omega
  cases i with
  | clarke => exact three _ inside
  | park => exact four _ inside
  | ipark => exact four _ inside
  | lpf i => exact (withInstance_of_wf _ present).trans (one _ inside)
  | intg i => exact (withInstance_of_wf _ present).trans (three _ inside)
  | pi i => exact (withInstance_of_wf _ present).trans (one _ inside)
  | pll i => exact (withInstance_of_wf _ present).trans (three _ inside)
  | cycle t => cases command

/-! Empty outputs (R175). -/

/-- The copy of nets stops at the first one that holds nothing. -/
theorem copyNets_error {net : Cells} {srcs : List Nat} {j k n : Nat} {bank : Bank Scalar} (at_ : srcs[k]? = some n)
    (empty : net.read n = none) (lower : ∀ i m, i < k → srcs[i]? = some m → net.read m ≠ none) :
    copyNets net srcs j bank = .error (j + k) := by
  induction srcs generalizing j k bank with
  | nil => simp at at_
  | cons m rest ih =>
    cases k with
    | zero =>
      obtain rfl : m = n := by simpa using at_
      simp [copyNets, empty]
    | succ k =>
      obtain ⟨x, read⟩ := Option.ne_none_iff_exists'.1 (lower 0 m (by omega) rfl)
      simp only [copyNets, read]
      rw [ih (by simpa using at_) fun i m' lt h => lower (i + 1) m' (by omega) (by simpa using h)]
      congr 1
      omega

/-- Every entry of a list is at some index of it. -/
theorem forall_mem_of_forall_getElem? {l : List Nat} {p : Nat → Prop} (h : ∀ (j m : Nat), l[j]? = some m → p m) :
    ∀ m ∈ l, p m := by
  intro m mem
  obtain ⟨j, at_⟩ := List.mem_iff_getElem?.1 mem
  exact h j m at_

/-- Settles O33: the epilogue copies the actuation outputs and then the hold latches, and each copy stops at the first
empty net. -/
theorem emptyOutputNetRaises : Obligations.EmptyOutputNetRaises := by
  intro s k n
  refine ⟨fun at_ empty lower => ?_, fun at_ empty acts lower => ?_⟩
  · unfold leaveCycle
    rw [copyNets_error at_ empty lower, Nat.zero_add]
  · obtain ⟨bank, copied⟩ := (copyNets_ok_iff s.net s.build.wiring.actSrc 0 s.act).2
      (forall_mem_of_forall_getElem? fun j m h => Option.isSome_iff_ne_none.2 (acts j m h))
    unfold leaveCycle
    rw [copied, copyNets_error at_ empty lower, Nat.zero_add]

/-! Full operands (R84, R158). -/

/-- An operation of the build with full operands, and for a filter with two divisors that are not zero, completes and
writes every result it names. -/
theorem exec_completes {i : Instr} {s : State} (command : i.isCommand = true) (present : i.wf s.build = true)
    (full : ∀ k, k < i.argCount → argAt s.arg k ≠ none)
    (divides : ∀ j : Inst, i = .lpf j → hasValue s.build.num (lpfBlend s.lpf[j].fc s.lpf[j].dt) = true) :
    ∃ t, exec i s = .next t ∧ ∀ k, k < i.resCount → (resAt t.res k).isSome = true := by
  have operandAt := exists_operand full
  have results {r : ResRegs} {n : Nat} (h : ∀ k : Fin n, (resAt r k.val).isSome = true) (k : Nat) (lt : k < n) :
      (resAt r k).isSome = true := h ⟨k, lt⟩
  cases i with
  | clarke =>
    obtain ⟨a, ha⟩ := operandAt 0 (by decide)
    obtain ⟨b, hb⟩ := operandAt 1 (by decide)
    obtain ⟨c, hc⟩ := operandAt 2 (by decide)
    exact ⟨_, execClarke_next.2 ⟨a, b, c, ha, hb, hc, rfl⟩,
      results (by simp [Instr.resCount, resAt, Fin.forall_fin_succ])⟩
  | park =>
    obtain ⟨th, hth⟩ := operandAt 0 (by decide)
    obtain ⟨a, ha⟩ := operandAt 1 (by decide)
    obtain ⟨b, hb⟩ := operandAt 2 (by decide)
    obtain ⟨c, hc⟩ := operandAt 3 (by decide)
    exact ⟨_, execPark_next.2 ⟨th, a, b, c, hth, ha, hb, hc, rfl⟩,
      results (by simp [Instr.resCount, resAt, Fin.forall_fin_succ])⟩
  | ipark =>
    obtain ⟨th, hth⟩ := operandAt 0 (by decide)
    obtain ⟨a, ha⟩ := operandAt 1 (by decide)
    obtain ⟨b, hb⟩ := operandAt 2 (by decide)
    obtain ⟨c, hc⟩ := operandAt 3 (by decide)
    exact ⟨_, execIpark_next.2 ⟨th, a, b, c, hth, ha, hb, hc, rfl⟩,
      results (by simp [Instr.resCount, resAt, Fin.forall_fin_succ])⟩
  | lpf i =>
    obtain ⟨x, hx⟩ := operandAt 0 (by decide : 0 < 1)
    exact ⟨_, execLpf_next.2 ⟨of_decide_eq_true present, x, hx, divides i rfl, rfl⟩,
      results (by simp [Instr.resCount, resAt])⟩
  | intg i =>
    obtain ⟨a, ha⟩ := operandAt 0 (by decide : 0 < 3)
    obtain ⟨b, hb⟩ := operandAt 1 (by decide : 1 < 3)
    obtain ⟨c, hc⟩ := operandAt 2 (by decide : 2 < 3)
    exact ⟨_, execIntg_next.2 ⟨of_decide_eq_true present, a, b, c, ha, hb, hc, rfl⟩,
      results (by simp [Instr.resCount, resAt])⟩
  | pi i =>
    obtain ⟨x, hx⟩ := operandAt 0 (by decide : 0 < 1)
    exact ⟨_, execPi_next.2 ⟨of_decide_eq_true present, x, hx, rfl⟩, results (by simp [Instr.resCount, resAt])⟩
  | pll i =>
    obtain ⟨a, ha⟩ := operandAt 0 (by decide : 0 < 3)
    obtain ⟨b, hb⟩ := operandAt 1 (by decide : 1 < 3)
    obtain ⟨c, hc⟩ := operandAt 2 (by decide : 2 < 3)
    exact ⟨_, execPll_next.2 ⟨of_decide_eq_true present, a, b, c, ha, hb, hc, rfl⟩,
      results (by simp [Instr.resCount, resAt, Fin.forall_fin_succ])⟩
  | cycle t => cases command

/-! The chain of a well-formed build (R92, R143, R158). -/

/-- The net holds a value. -/
def Cells.has (c : Cells) (n : Nat) : Prop := (c.read n).isSome = true

theorem Cells.has_write {c : Cells} {a n : Nat} (x : Scalar) (h : a = n ∨ c.has n) : Cells.has (c.write a x) n := by
  unfold Cells.has at *
  rw [Cells.read_write]
  split
  · rfl
  · exact h.resolve_left (by assumption)

/-- Results that hold values give every destination net one, and take none away (R93). -/
theorem storeResults_has {r : ResRegs} {dst : List (Option Nat)} {k : Nat} {net : Cells}
    (full : ∀ j, j < dst.length → (resAt r (k + j)).isSome = true) {n : Nat} (h : some n ∈ dst ∨ net.has n) :
    (storeResults r dst k net).has n := by
  induction dst generalizing k net with
  | nil => exact h.resolve_left List.not_mem_nil
  | cons d rest ih =>
    have restFull (j : Nat) (lt : j < rest.length) : (resAt r (k + 1 + j)).isSome = true := by
      rw [Nat.add_right_comm]
      exact full (j + 1) (Nat.succ_lt_succ lt)
    cases d with
    | none => exact ih restFull (h.imp_left fun mem => by simpa using mem)
    | some m =>
      obtain ⟨x, hx⟩ := Option.isSome_iff_exists.1 (full 0 (Nat.zero_lt_succ _))
      simp only [Nat.add_zero] at hx
      simp only [storeResults, hx]
      refine ih restFull ?_
      rcases h with mem | old
      · rcases List.mem_cons.1 mem with e | mem
        · exact .inr (Cells.has_write x (.inl (Option.some.inj e).symm))
        · exact .inl mem
      · exact .inr (Cells.has_write x (.inr old))

/-- A source of a well-formed wiring has a value once the nets it may read have theirs (R92 (c), (f)). -/
theorem srcValue_isSome {s : State} {written : List Nat} {src : Src} (inRange : s.build.nHold ≤ 16)
    (ok : srcOk s.build written src = true) (nets : ∀ n ∈ written, s.net.has n) : (srcValue s src).isSome = true := by
  cases src with
  | net k => exact nets k (by simpa [srcOk] using ok)
  | hold k =>
    have below : k < s.build.nHold := by simpa [srcOk] using ok
    simp [srcValue, below, below.trans_le inRange]
  | _ => rfl

/-- No operation names more operands than there are operand registers (R21, R84). -/
theorem argCount_le_four (i : Instr) : i.argCount ≤ 4 := by
  cases i <;> simp [Instr.argCount]

theorem argAt_argsOf {s : State} {args : List Src} {k : Nat} (h : k < 4) :
    argAt (argsOf s args) k = argValue s args k := by
  obtain rfl | rfl | rfl | rfl : k = 0 ∨ k = 1 ∨ k = 2 ∨ k = 3 := by omega
  all_goals rfl

/-- The operation of a step is one the wiring names. -/
theorem mem_wiringInstrs {w : Wiring} {st : WireStep} {i : Instr} (mem : st ∈ w.steps)
    (ok : decodeCommand st.cmd = .ok i) : i ∈ wiringInstrs w :=
  List.mem_filterMap.2 ⟨st, mem, by rw [ok]; rfl⟩

/-- On a valid configuration in the reference instance no filter of the wiring divides by zero (R158, R206). -/
theorem divides_of_valid {s : State} {j : Inst} (real : s.build.num = .real) (valid : validConfig s = true)
    (mem : .lpf j ∈ wiringInstrs s.build.wiring) :
    hasValue s.build.num (lpfBlend s.lpf[j].fc s.lpf[j].dt) = true := by
  obtain ⟨-, filters, -, -⟩ := validConfig_iff_validBy.1 valid
  rw [real] at filters ⊢
  exact lpf_hasValue (filters j mem).1 (filters j mem).2

/-- A step of a well-formed build with a valid configuration completes where the nets it may read hold values, and
leaves a value in each net it writes. -/
theorem issueWith_completes {s : State} {st : WireStep} {written : List Nat} (real : s.build.num = .real)
    (wf : buildWf s.build = true) (valid : validConfig s = true) (mem : st ∈ s.build.wiring.steps)
    (srcs : ∀ src ∈ st.args, srcOk s.build written src = true) (nets : ∀ n ∈ written, s.net.has n) :
    ∃ t, issueWith exec st s = .next t ∧ ∀ n ∈ written ++ stepNets st, t.net.has n := by
  obtain ⟨i, ok, present, args, dst⟩ := buildWf_step wf mem
  have command := decodeCommand_isCommand ok
  have inRange : s.build.nHold ≤ 16 := by
    simp only [buildWf, Build.inRange, Bool.and_eq_true, decide_eq_true_eq] at wf
    omega
  have full (k : Nat) (lt : k < i.argCount) : argAt (argsOf s st.args) k ≠ none := by
    have inside : k < st.args.length := args ▸ lt
    rw [argAt_argsOf (lt.trans_le (argCount_le_four i)), argValue, List.getElem?_eq_getElem inside]
    exact Option.isSome_iff_ne_none.1 (srcValue_isSome inRange (srcs _ (List.getElem_mem inside)) nets)
  obtain ⟨u, completes, results⟩ := exec_completes (s := s.setArg (argsOf s st.args)) command present full
    fun j e => divides_of_valid real valid (e ▸ mem_wiringInstrs mem ok)
  refine ⟨_, issueWith_next.2 ⟨i, u, ok, completes, rfl⟩, fun n h => ?_⟩
  have kept := (exec_command_frame command completes).1.net
  refine storeResults_has (fun j lt => ?_) ?_
  · rw [Nat.zero_add]; exact results j (dst ▸ lt)
  · rcases List.mem_append.1 h with old | new
    · rw [kept]; exact .inr (nets n old)
    · obtain ⟨d, here, e⟩ := List.mem_filterMap.1 new
      obtain rfl : d = some n := e
      exact .inl here

/-- The chain of a well-formed build with a valid configuration completes, and every net of its steps holds a value. -/
theorem runSteps_completes {steps : List WireStep} {s : State} {written : List Nat} (real : s.build.num = .real)
    (wf : buildWf s.build = true) (valid : validConfig s = true) (mem : ∀ st ∈ steps, st ∈ s.build.wiring.steps)
    (ok : stepsNetsOk s.build written steps = true) (nets : ∀ n ∈ written, s.net.has n) :
    ∃ t, runSteps steps s = .next t ∧ ∀ n ∈ written ++ steps.flatMap stepNets, t.net.has n := by
  induction steps generalizing s written with
  | nil => exact ⟨s, rfl, by simpa using nets⟩
  | cons st rest ih =>
    simp only [stepsNetsOk, Bool.and_eq_true, List.all_eq_true] at ok
    obtain ⟨⟨⟨srcs, -⟩, -⟩, restOk⟩ := ok
    obtain ⟨u, first, nets'⟩ := issueWith_completes real wf valid (mem st List.mem_cons_self) srcs nets
    have same := (issueWith_frame first).1.sameConfig
    have build := same.1
    obtain ⟨t, others, all⟩ := ih (s := u) (written := written ++ stepNets st) (build ▸ real) (build ▸ wf)
      ((validConfig_congr same).trans valid) (fun w h => build ▸ mem w (List.mem_cons_of_mem _ h)) (build ▸ restOk)
      nets'
    refine ⟨t, runSteps_cons_next.2 ⟨u, first, others⟩, fun n h => all n ?_⟩
    rwa [List.flatMap_cons, ← List.append_assoc] at h

/-- A cycle of a ready machine on a well-formed build with a valid configuration completes (R158). -/
theorem execCycle_completes {s : State} (tr : Bool) (real : s.build.num = .real) (takes : s.takesTick = true)
    (wf : buildWf s.build = true) (valid : validConfig s = true) : ∃ t, exec (.cycle tr) s = .next t := by
  have parts := wf
  simp only [buildWf, Bool.and_eq_true, List.all_eq_true, List.contains_iff_mem] at parts
  obtain ⟨⟨⟨⟨-, nets⟩, acts⟩, holds⟩, -⟩ := parts
  obtain ⟨u, chain, all⟩ := runSteps_completes (s := s.enterCycle tr) (written := []) real wf
    ((validConfig_congr (SameConfig.refl s)).trans valid) (fun _ => id) nets nofun
  have build := (runSteps_frame chain).build
  have copies {srcs : List Nat} (written : ∀ n ∈ srcs, n ∈ wiringNets s.build.wiring) (bank : Bank Scalar) :
      ∃ b, copyNets u.net srcs 0 bank = .ok b :=
    (copyNets_ok_iff u.net srcs 0 bank).2 fun n mem => all n (written n mem)
  obtain ⟨actBank, copiedActs⟩ := copies acts u.act
  obtain ⟨holdBank, copiedHolds⟩ := copies holds u.hold
  refine ⟨_, execCycle_next.2 (.inr ⟨takes, u, chain, leaveCycle_next.2 ⟨actBank, holdBank, ?_, ?_, rfl⟩⟩)⟩
  · rw [build]; exact copiedActs
  · rw [build]; exact copiedHolds

end Sys2Proof.Machine
end

section
/-! PROOFS. The sampling cycle (spec/44_cycle_driver.md): what a completed cycle is made of, and from that what it
latches, routes, stores, keeps and forgets. -/

namespace Sys2Proof.Machine

/-- A tick that starts no cycle leaves no trace (R140, R182, R184). -/
theorem execCycle_of_not_takes {s : State} (tr : Bool) (h : s.takesTick = false) : exec (.cycle tr) s = .next s :=
  execCycle_next.2 (.inl ⟨h, rfl⟩)

/-- Settles O13: in INIT mode and while busy the core takes no tick. -/
theorem tickWithoutCycleLeavesNoTrace : Obligations.TickWithoutCycleLeavesNoTrace := by
  intro s tr h
  refine execCycle_of_not_takes tr ?_
  rcases h with init | busy <;> simp [State.takesTick, *]

/-- A completed cycle is the prologue, the chain, the two copies of nets and the epilogue (R141): `u` is the state after
the chain, which keeps what every command keeps. -/
theorem execCycle_effect {s t : State} {tr : Bool} (takes : s.takesTick = true) (h : exec (.cycle tr) s = .next t) :
    ∃ (u : State) (acts holds : Bank Scalar),
      runSteps s.build.wiring.steps (s.enterCycle tr) = .next u ∧ KeptByIssue (s.enterCycle tr) u ∧
      copyNets u.net s.build.wiring.actSrc 0 s.act = .ok acts ∧
      copyNets u.net s.build.wiring.holdSrc 0 s.hold = .ok holds ∧
      t = { u with act := acts, hold := holds, stepIdx := 0, busy := false, edge := false, done := true, rearm := false,
                   bstate := u.captured.bstate, bidx := u.captured.bidx, buf := u.captured.buf } := by
  rcases execCycle_next.1 h with ⟨drops, -⟩ | ⟨-, u, chain, left⟩
  · cases drops.symm.trans takes
  · have kept := runSteps_frame chain
    obtain ⟨acts, holds, copiedActs, copiedHolds, rfl⟩ := leaveCycle_next.1 left
    rw [kept.build, kept.act] at copiedActs
    rw [kept.build, kept.hold] at copiedHolds
    refine ⟨u, acts, holds, chain, kept, copiedActs, copiedHolds, ?_⟩
    have noStart : u.rearm = false := kept.rearm
    rw [epilogueState_eq, noStart]
    rfl

/-- Settles O12: the prologue latches the Sample and the trigger, the chain keeps them and the configuration, and the
epilogue copies the nets to the outputs. -/
theorem cycleLatchesAndRoutes : Obligations.CycleLatchesAndRoutes := by
  intro s t tr takes h
  obtain ⟨u, acts, holds, -, kept, copiedActs, copiedHolds, rfl⟩ := execCycle_effect takes h
  exact ⟨kept.sa, kept.sb, kept.sc, kept.trigPrev, rfl, rfl, rfl, kept.run, kept.sameConfig, kept.pins, kept.inputs,
    kept.hrdata, fun j n at_ => (copyNets_get copiedActs j).2 n (Nat.zero_le _) at_,
    fun k n at_ => (copyNets_get copiedHolds k).2 n (Nat.zero_le _) at_,
    fun j above => copyNets_keeps_above copiedActs above, fun k above => copyNets_keeps_above copiedHolds above⟩

/-- Settles O11: the cycle completes, and a completed cycle has latched and finished. -/
theorem cycleCompletesWhenValid : Obligations.CycleCompletesWhenValid := by
  intro s tr real takes wf valid
  obtain ⟨t, h⟩ := execCycle_completes tr real takes wf valid
  obtain ⟨sa, sb, sc, trig, idle, step, done, -⟩ := cycleLatchesAndRoutes s t tr takes h
  exact ⟨t, h, sa, sb, sc, trig, idle, step, done⟩

/-! Unwired instances (R20, R85). -/

/-- The chain writes an instance only where one of its steps names it: whatever bank `f` a step keeps at `j` unless its
operation is `i`, the chain keeps at `j` where no step's operation is `i`. -/
theorem runSteps_keeps_unwired {α : Type} {w : Wiring} {i : Instr} {s t : State} (f : State → α)
    (one : ∀ {k : Instr} {u v : State}, BlockStep k u v → k ≠ i → f v = f u) (unwired : i ∉ wiringInstrs w)
    (h : runSteps w.steps s = .next t) : f t = f s := by
  refine runSteps_induct (p := fun u v => f v = f u) (fun _ => rfl) (fun h g => g.trans h)
    (fun st mem u v issued => ?_) h
  obtain ⟨-, -, -, k, ok, block⟩ := issueWith_frame issued
  exact one block fun e => unwired (e ▸ mem_wiringInstrs mem ok)

/-- Settles O43: a cycle that starts writes the blocks in its chain alone. -/
theorem cycleKeepsUnwiredInstances : Obligations.CycleKeepsUnwiredInstances := by
  intro s t tr h i
  cases takes : s.takesTick with
  | false =>
    obtain rfl : s = t := Host.Outcome.next.inj ((execCycle_of_not_takes tr takes).symm.trans h)
    exact ⟨fun _ => rfl, fun _ => rfl, fun _ => rfl, fun _ => rfl⟩
  | true =>
    obtain ⟨u, acts, holds, chain, -, -, -, rfl⟩ := execCycle_effect takes h
    exact ⟨fun unwired => (runSteps_keeps_unwired (fun s => s.lpf[i]) (fun block => block.lpf i) unwired chain :),
      fun unwired => (runSteps_keeps_unwired (fun s => s.intg[i]) (fun block => block.intg i) unwired chain :),
      fun unwired => (runSteps_keeps_unwired (fun s => s.pi[i]) (fun block => block.pi i) unwired chain :),
      fun unwired => (runSteps_keeps_unwired (fun s => s.pll[i]) (fun block => block.pll i) unwired chain :)⟩

/-- Settles O44: the prologue writes every one of these registers, so the two cycles start in one state. -/
theorem cycleForgetsOldNets : Obligations.CycleForgetsOldNets := by
  intro s tr net arg res x y z n g takes
  simp only [exec, execCycle, takes, if_true, show State.takesTick
    { s with net := net, arg := arg, res := res, sa := x, sb := y, sc := z, stepIdx := n, edge := g } = true from takes]
  rfl

/-! The buffer machine (R145 to R149). -/

/-- A store of the Sample writes the three lanes of its entry. -/
theorem storeSample_lanes (s : State) (n : Nat) :
    (s.storeSample n).buf.read (4 * n) = some s.sa ∧ (s.storeSample n).buf.read (4 * n + 1) = some s.sb ∧
    (s.storeSample n).buf.read (4 * n + 2) = some s.sc := by
  simp [storeSample_read, bufAddr]

/-- A store of the Sample leaves every other lane. -/
theorem storeSample_other (s : State) {n a : Nat} (h0 : a ≠ 4 * n) (h1 : a ≠ 4 * n + 1) (h2 : a ≠ 4 * n + 2) :
    (s.storeSample n).buf.read a = s.buf.read a := by
  have lane2 : bufAddr n 2 ≠ a := h2.symm
  have lane1 : bufAddr n 1 ≠ a := h1.symm
  have lane0 : bufAddr n 0 ≠ a := h0.symm
  rw [storeSample_read, if_neg lane2, if_neg lane1, if_neg lane0]

/-- Settles O45: the buffer machine of the epilogue sees the state and the index from before the cycle, the edge and the
Sample of the prologue. -/
theorem cycleRunsBufferMachine : Obligations.CycleRunsBufferMachine := by
  intro s t tr takes enabled inside idleAtZero notFull h
  obtain ⟨u, acts, holds, -, kept, -, -, rfl⟩ := execCycle_effect takes h
  have build : u.build = s.build := kept.build
  have bstate : u.bstate = s.bstate := kept.bstate
  have bidx : u.bidx = s.bidx := kept.bidx
  have buf : u.buf = s.buf := kept.buf
  have edge : u.edge = risingEdge tr s.trigPrev := kept.edge
  have sample : u.sa = s.pins.sa ∧ u.sb = s.pins.sb ∧ u.sc = s.pins.sc := ⟨kept.sa, kept.sb, kept.sc⟩
  obtain ⟨sa, sb, sc⟩ := sample
  have lanes := storeSample_lanes u s.bidx
  rw [sa, sb, sc] at lanes
  obtain ⟨laneA, laneB, laneC⟩ := lanes
  have others (a : Nat) (h0 : a ≠ 4 * s.bidx) (h1 : a ≠ 4 * s.bidx + 1) (h2 : a ≠ 4 * s.bidx + 2) :=
    buf ▸ storeSample_other u h0 h1 h2
  have machine := captured_cases u
  rw [build, bstate, bidx, edge] at machine
  dsimp only
  rcases machine with ⟨e, why⟩ | ⟨-, stores, ⟨last, e⟩ | ⟨notLast, e⟩⟩
  · have quiet : s.bstate = .idle ∧ risingEdge tr s.trigPrev = false :=
      (why.resolve_left (by simp [enabled])).resolve_right notFull
    obtain ⟨idle, noEdge⟩ := quiet
    rw [e, bstate, bidx, buf]
    refine ⟨fun _ _ => ⟨idle, idleAtZero idle, fun _ => rfl⟩, fun stores => ?_, kept.trigPrev, inside, idleAtZero⟩
    simp [idle, noEdge] at stores
  · rw [e]
    refine ⟨fun idle noEdge => ?_,
      fun _ => ⟨laneA, laneB, laneC, others, fun _ => ⟨rfl, rfl⟩, fun notLast => absurd last notLast⟩,
      kept.trigPrev, by dsimp only; omega, fun _ => rfl⟩
    simp [idle, noEdge] at stores
  · rw [e]
    refine ⟨fun idle noEdge => ?_,
      fun _ => ⟨laneA, laneB, laneC, others, fun last => absurd last notLast, fun _ => ⟨rfl, rfl⟩⟩,
      kept.trigPrev, by dsimp only; omega, nofun⟩
    simp [idle, noEdge] at stores

/-- Settles O46: the epilogue of a build without a buffer runs no buffer machine. -/
theorem cycleWithoutBufferStoresNothing : Obligations.CycleWithoutBufferStoresNothing := by
  intro s t tr takes disabled h
  obtain ⟨u, acts, holds, -, kept, -, -, rfl⟩ := execCycle_effect takes h
  have build : u.build = s.build := kept.build
  have trig : u.trigPrev = tr := kept.trigPrev
  have nothing : u.captured = u := by rw [State.captured, build, disabled]; rfl
  rw [nothing]
  refine ⟨kept.buf, kept.bidx, kept.bstate, trig, fun a => ?_, ?_, ?_⟩
  · simp [memRead, readBuf, build, disabled]
  · simp [readReg, bidxWord, build, disabled]
  · simp only [readReg, statusWord, build, disabled, trig, Bool.false_eq_true, if_false]
    cases tr <;> simp

/-! A running core between cycles (R158, R170). -/

/-- The host changes neither the build nor whether a cycle is in progress. -/
theorem hostEffect_machine {s t : State} (h : HostEffect s t) : t.build = s.build ∧ t.busy = s.busy := by
  cases h with
  | stored a r d init idle mapped writable => exact ⟨(storeReg_frame s r d).build, (storeReg_frame s r d).busy⟩
  | nothing => exact ⟨rfl, rfl⟩
  | read v => exact ⟨rfl, rfl⟩
  | stopped => exact ⟨rfl, rfl⟩
  | started init idle wf valid => exact ⟨rfl, rfl⟩
  | startedInCycle init busy wf valid => exact ⟨rfl, rfl⟩

/-- In RUN mode no host access stops the core: START is the only one that may, and it is no START (R185). -/
theorem hostAccess_of_run {s : State} (a : HostAccess) (run : s.run = true) : ∃ t, hostAccess s a = .next t := by
  unfold hostAccess
  split
  · unfold memWrite
    split
    · exact ⟨_, rfl⟩
    · split
      · exact ⟨_, rfl⟩
      · unfold writeReg writeCtrl
        rw [run]
        split
        · split <;> exact ⟨_, rfl⟩
        · split <;> exact ⟨_, rfl⟩
  · exact ⟨_, rfl⟩

theorem hostEdge_of_run {s : State} (e : PortEdge) (run : s.run = true) : ∃ t, hostEdge e s = .next t := by
  unfold hostEdge
  split
  · exact ⟨_, rfl⟩
  · exact hostAccess_of_run _ run

/-- The driver's part of an edge does not stop an idle core whose configuration is valid where it runs. -/
theorem driverEdge_completes {s : State} (e : PortEdge) (real : s.build.num = .real) (idle : s.busy = false)
    (valid : s.RunValid) : ∃ t, driverEdge e s = .next t := by
  unfold driverEdge
  rw [idle]
  simp only [Bool.false_eq_true, if_false]
  split
  · exact ⟨_, rfl⟩
  · rename_i i ok
    obtain ⟨-, rfl⟩ := decodeEvent_ok.1 ok
    split
    · unfold openCycle
      split <;> exact ⟨_, rfl⟩
    · cases takes : s.takesTick with
      | false => exact ⟨s, execCycle_of_not_takes _ takes⟩
      | true =>
        obtain ⟨wf, config⟩ := valid (.inl (takesTick_iff.1 takes).1)
        exact execCycle_completes _ real takes wf config

/-- No edge stops an idle running core with a valid configuration. -/
theorem clockEdge_completes {s : State} (e : PortEdge) (real : s.build.num = .real) (valid : s.RunValid)
    (run : s.run = true) (idle : s.busy = false) : ∃ t, clockEdge e s = .next t := by
  cases reset : e.rstN with
  | false => exact ⟨_, clockEdge_next.2 (.inl ⟨reset, rfl⟩)⟩
  | true =>
    have ports : (s.atEdge e.pins).RunValid := valid.of_sameConfig (SameConfig.refl s) id
    obtain ⟨u, host⟩ := hostEdge_of_run (s := s.atEdge e.pins) e run
    have effect := hostEdge_effect host
    obtain ⟨build, busy⟩ := hostEffect_machine effect
    obtain ⟨t, driver⟩ := driverEdge_completes e (s := u) (build ▸ real) (busy.trans idle)
      (hostEffect_runValid ports effect)
    exact ⟨t, clockEdge_next.2 (.inr ⟨reset, u, host, driver⟩)⟩

/-- Settles O42: whatever the edge is, the host's part does not stop a running core and the driver's part completes. -/
theorem runningCoreNeverStops : Obligations.RunningCoreNeverStops := by
  intro s real valid run idle
  unfold step
  split
  · exact clockEdge_completes _ real valid run idle
  · exact clockEdge_completes (s := { s with inputs := _ }) _ real (valid.of_sameConfig (SameConfig.refl s) id) run idle

end Sys2Proof.Machine
end

section
/-! PROOFS. The step (spec/44_cycle_driver.md section 1, spec/60_exceptions.md section 2): the host's part and then the
driver's, a tick at each kind of edge, the operands source by source, and the cycle of one command per edge. -/

namespace Sys2Proof.Machine

/-! The two parts of an edge (R179). -/

theorem step_quiet {s : State} (ended : s.inputs = []) :
    step s = driverEdge (PortEdge.quiet s.pins) (s.atEdge s.pins) := by
  rw [step_eq, ended]; rfl

theorem step_cons (s : State) (e : PortEdge) (rest : List PortEdge) :
    step { s with inputs := e :: rest } = clockEdge e { s with inputs := rest } := rfl

theorem step_listed {s : State} {e : PortEdge} {rest : List PortEdge} (listed : s.inputs = e :: rest)
    (high : e.rstN = true) : step s = andThen (hostEdge e (s.atPorts e.pins rest)) (driverEdge e) := by
  rw [step_eq, listed]
  exact if_pos high

theorem hostEdge_none {e : PortEdge} (s : State) (h : e.host = none) : hostEdge e s = .next s := by
  unfold hostEdge; rw [h]

theorem hostEdge_some {e : PortEdge} {a : HostAccess} (s : State) (h : e.host = some a) :
    hostEdge e s = hostAccess s a := by
  unfold hostEdge; rw [h]

/-! The driver's part of an edge. -/

theorem driverEdge_busy (e : PortEdge) {s : State} (busy : s.busy = true) : driverEdge e s = advance s := by
  unfold driverEdge; rw [if_pos busy]

/-- An edge without a host access is a reset or the driver's part alone. -/
theorem clockEdge_no_host {e : PortEdge} (s : State) (noHost : e.host = none) :
    clockEdge e s = if e.rstN then driverEdge e (s.atEdge e.pins) else .next (s.afterReset e.pins) := by
  unfold clockEdge
  rw [hostEdge_none _ noHost, andThen_next_left]

/-- No event at an edge without a tick (R83). -/
theorem driverEdge_no_tick {e : PortEdge} {s : State} (idle : s.busy = false) (noTick : e.word.getLsbD 1 = false) :
    driverEdge e s = .next s := by
  simp only [driverEdge, idle, decodeEvent, noTick, Bool.false_eq_true, if_false]

/-- A tick on an idle core is the event of its trigger level (R83, R140). -/
theorem driverEdge_tick {e : PortEdge} {s : State} (idle : s.busy = false) (tick : e.word.getLsbD 1 = true) :
    driverEdge e s =
      if e.overlap then openCycle (e.word.getLsbD 0) s else exec (.cycle (e.word.getLsbD 0)) s := by
  simp only [driverEdge, idle, decodeEvent, tick, Bool.false_eq_true, if_false, if_true]

theorem openCycle_idle {s : State} (tr : Bool) (idle : s.busy = false) :
    openCycle tr s = .next (if s.run then s.enterCycle tr else s) := by
  cases run : s.run <;> simp [openCycle, State.takesTick, idle, run]

theorem advance_issue {s : State} {st : WireStep} (at_ : s.build.wiring.steps[s.stepIdx]? = some st) :
    advance s = issueWith exec st s := by
  unfold advance; rw [at_]

theorem advance_leave {s : State} (at_ : s.build.wiring.steps[s.stepIdx]? = none) : advance s = leaveCycle s := by
  unfold advance; rw [at_]

/-! The operands, source by source (R93). -/

/-- An operand register holds the value of its source. -/
theorem argAt_of_src {s : State} {args : List Src} {k : Nat} (lt : k < 4) {src : Src} (at_ : args[k]? = some src) :
    argAt (argsOf s args) k = srcValue s src := by
  rw [argAt_argsOf lt, argValue, at_]; rfl

theorem argAt_beyond {s : State} {args : List Src} {k : Nat} (lt : k < 4) (beyond : args.length ≤ k) :
    argAt (argsOf s args) k = none := by
  rw [argAt_argsOf lt, argValue, List.getElem?_eq_none beyond]; rfl

theorem srcValue_hold (s : State) (h : Inst) :
    srcValue s (.hold h.val) = if h.val < s.build.nHold then some s.hold[h] else none := by
  simp [srcValue]

/-- The results listed from `res[0]` are the results by number. -/
theorem resAt_of_list {r : ResRegs} {k : Nat} {x : Option Scalar} (h : [r.res0, r.res1, r.res2][k]? = some x) :
    resAt r k = x := by
  match k with
  | 0 => exact Option.some.inj h
  | 1 => exact Option.some.inj h
  | 2 => exact Option.some.inj h
  | k + 3 => simp at h

/-- Settles O34: a step is its host part and its driver part; the driver's part is that of an idle core or of a busy
one; operands come from the sources and results go to the nets one by one. -/
theorem stepRunsTheDecodedInstruction : Obligations.StepRunsTheDecodedInstruction := by
  refine ⟨fun s ended => step_quiet ended, fun s e rest listed high => ⟨fun noHost => ?_, fun a access => ?_⟩,
    fun e u idle => ⟨driverEdge_no_tick idle, fun i ok single => ?_, fun tr ok overlap => ?_⟩,
    fun e u busy => ⟨fun st i at_ ok => ?_, fun at_ => (driverEdge_busy e busy).trans (advance_leave at_)⟩,
    fun s args k lt => ⟨argAt_beyond lt, argAt_of_src lt, argAt_of_src lt, argAt_of_src lt, argAt_of_src lt,
      fun n => argAt_of_src lt, fun x => argAt_of_src lt,
      fun h at_ => (argAt_of_src lt at_).trans (srcValue_hold s h)⟩,
    fun r dst net n wf => ⟨storeResults_read_other r dst 0 wf n, fun k x result named only => ?_⟩⟩
  · rw [step_listed listed high, hostEdge_none _ noHost]; rfl
  · rw [step_listed listed high, hostEdge_some _ access]; rfl
  · obtain ⟨tick, rfl⟩ := decodeEvent_ok.1 ok
    rw [driverEdge_tick idle tick, single]; rfl
  · obtain ⟨tick, event⟩ := decodeEvent_ok.1 ok
    obtain rfl : tr = e.word.getLsbD 0 := Instr.cycle.inj event
    rw [driverEdge_tick idle tick, overlap, if_pos rfl, openCycle_idle _ idle]
  · rw [driverEdge_busy e busy, advance_issue at_, issueWith_of_ok u ok]
  · rw [storeResults_read_self r dst 0 wf named only, Nat.zero_add, resAt_of_list result]

/-! A host write at the edge of a tick (R179). -/

/-- Address 0 of `REG` is `CTRL` (R62). -/
theorem decodeReg_zero (b : Build) : decodeReg b ((0#16).setWidth 12) = some .ctrl := rfl

/-- A host write at `REG` address 0 is a write of bit 0 of `CTRL` (R185). -/
theorem hostAccess_ctrl {s : State} {a : HostAccess} (write : a.hwe = true) (reg : a.hsel = false)
    (addr : a.haddr = 0#16) : hostAccess s a = writeCtrl s (a.hwdata.bits.getLsbD 0) := by
  simp only [hostAccess, memWrite, writeReg, write, reg, addr, decodeReg_zero, if_true, Bool.false_eq_true, if_false]

theorem writeCtrl_stop {s : State} : writeCtrl s false = .next { s with run := false } := rfl

/-- START of an idle core with a well-formed build and a valid configuration (R185). -/
theorem writeCtrl_start {s : State} (init : s.run = false) (wf : buildWf s.build = true)
    (valid : validConfig s = true) : writeCtrl s true = .next (if s.busy then s.startedInCycle else s.started) := by
  rw [writeCtrl, if_pos rfl, init, if_neg Bool.false_ne_true]
  exact startRun_next.2 ⟨wf, valid, rfl⟩

/-- Settles O36: the tick is judged against the state the write of `CTRL` leaves. -/
theorem hostAccessComesBeforeTick : Obligations.HostAccessComesBeforeTick := by
  intro s e a rest listed high access write reg addr idle tick single
  have driver {u : State} (idle : u.busy = false) : driverEdge e u = exec (.cycle (e.word.getLsbD 0)) u := by
    rw [driverEdge_tick idle tick, single]; rfl
  rw [step_listed listed high, hostEdge_some _ access, hostAccess_ctrl write reg addr]
  refine ⟨fun run stop => ?_, fun init start wf valid => ?_⟩
  · rw [stop, writeCtrl_stop, andThen_next_left]
    exact (driver (u := { s.atPorts e.pins rest with run := false }) idle).trans (execCycle_of_not_takes _ rfl)
  · have starts : writeCtrl (s.atPorts e.pins rest) true = .next (s.atPorts e.pins rest).started :=
      (writeCtrl_start (s := s.atPorts e.pins rest) init wf
        ((validConfig_congr (SameConfig.refl s)).trans valid)).trans (congrArg _ (if_neg (Bool.eq_false_iff.1 idle)))
    rw [start, starts, andThen_next_left]
    exact driver idle

/-- Settles O37: the driver of a busy core does not look at the event word. -/
theorem tickDuringCycleIsDropped : Obligations.TickDuringCycleIsDropped := by
  intro s e rest w o busy noHost
  have edge {f : PortEdge} (noHost : f.host = none) : clockEdge f { s with inputs := rest } =
      if f.rstN then advance (s.atPorts f.pins rest)
      else .next (({ s with inputs := rest } : State).afterReset f.pins) := by
    rw [clockEdge_no_host _ noHost]
    exact congrArg (fun o => if f.rstN = true then o else _) (driverEdge_busy f (s := s.atPorts f.pins rest) busy)
  rw [step_cons, step_cons, edge noHost, edge (f := { e with word := w, overlap := o }) noHost]

/-! A cycle of one command per edge (R143, log entry 4). -/

/-- The machine in the middle of a cycle at quiet edges. -/
structure State.Quiet (s : State) : Prop where
  ended : s.inputs = []
  busy : s.busy = true
  noStrobe : s.done = false
  noAnswer : s.hrdata = none

/-- A quiet edge changes nothing on the ports of a quiet machine. -/
theorem State.Quiet.atEdge_self {s : State} (quiet : s.Quiet) : s.atEdge s.pins = s := by
  obtain ⟨-, -, noStrobe, noAnswer⟩ := quiet
  unfold State.atEdge
  rw [← noStrobe, ← noAnswer]

theorem State.Quiet.step {s : State} (quiet : s.Quiet) : Machine.step s = advance s := by
  rw [step_busy quiet.ended quiet.busy, quiet.atEdge_self]

theorem State.Quiet.kept {s t : State} (quiet : s.Quiet) (kept : KeptByIssue s t) : t.Quiet :=
  ⟨kept.inputs.trans quiet.ended, kept.busy.trans quiet.busy, kept.done.trans quiet.noStrobe,
    kept.hrdata.trans quiet.noAnswer⟩

section Run
variable {M : Host.Core} {n : Nat} {s : M.State}

theorem coreRun_of_next {t : M.State} (h : M.step s = .next t) : M.run (n + 1) s = M.run n t := by
  rw [Host.Core.run, h]

theorem coreRun_of_fault {r : M.Fault} (h : M.step s = .fault r) : M.run (n + 1) s = .fault r := by
  rw [Host.Core.run, h]

theorem coreRun_of_refused {r : M.Refusal} (h : M.step s = .refused r) : M.run (n + 1) s = .refused r := by
  rw [Host.Core.run, h]

end Run

/-- One more step is that step and then the rest of the run. -/
theorem run_succ (n : Nat) (s : State) : Host.Core.run core (n + 1) s = andThen (step s) (Host.Core.run core n) := by
  cases h : step s with
  | next t => exact coreRun_of_next h
  | fault r => exact coreRun_of_fault h
  | refused r => exact coreRun_of_refused h

/-- The quiet edges of the rest of a cycle are the rest of the chain and the epilogue. -/
theorem run_rest_of_cycle {rest : List WireStep} {s : State} (quiet : s.Quiet)
    (drop : s.build.wiring.steps.drop s.stepIdx = rest) :
    Host.Core.run core (rest.length + 1) s = andThen (runSteps rest s) leaveCycle := by
  induction rest generalizing s with
  | nil =>
    rw [run_succ, quiet.step, advance_leave (List.getElem?_eq_none (List.drop_eq_nil_iff.1 drop))]
    simp only [runSteps, andThen_next_left]
    cases leaveCycle s <;> rfl
  | cons st rest ih =>
    have at_ : s.build.wiring.steps[s.stepIdx]? = some st := by
      rw [← List.head?_drop, drop]; rfl
    have next : s.build.wiring.steps.drop (s.stepIdx + 1) = rest := by
      rw [← List.tail_drop, drop]; rfl
    rw [List.length_cons, run_succ, quiet.step, advance_issue at_, runSteps, issueWith_runCommand]
    cases issued : issueWith exec st s with
    | next t =>
      obtain ⟨kept, moved, -⟩ := issueWith_frame issued
      exact ih (quiet.kept kept) (by rw [moved, kept.build, next])
    | fault r => rfl
    | refused r => rfl

/-- Settles O35: the prologue's edge leaves a quiet machine with the whole chain to go. -/
theorem overlappedCycleRefinesAtomicCycle : Obligations.OverlappedCycleRefinesAtomicCycle := by
  intro s e driverOnly idle tick run
  obtain ⟨high, noHost⟩ : e.rstN = true ∧ e.host = none := by
    simpa [PortEdge.driverOnly] using driverOnly
  have edge (o : Bool) : step { s with inputs := [{ e with overlap := o }] } =
      if o then openCycle (e.word.getLsbD 0) (s.atPorts e.pins [])
      else exec (.cycle (e.word.getLsbD 0)) (s.atPorts e.pins []) := by
    rw [step_cons, clockEdge_no_host (e := { e with overlap := o }) _ noHost]
    exact (if_pos high).trans (driverEdge_tick (s := s.atPorts e.pins []) idle tick)
  have quiet : ((s.atPorts e.pins []).enterCycle (e.word.getLsbD 0)).Quiet := ⟨rfl, rfl, rfl, rfl⟩
  have takes : (s.atPorts e.pins []).takesTick = true := takesTick_iff.2 ⟨run, idle⟩
  rw [run_succ, edge true, edge false]
  simp only [if_true, Bool.false_eq_true, if_false, openCycle, exec, execCycle, takes]
  exact run_rest_of_cycle quiet rfl

end Sys2Proof.Machine
end

section
/-! PROOFS. STOP and START during a cycle (spec/60_exceptions.md section 3): the commands and the outputs of a cycle do
not look at the mode, the trigger history or the buffer machine's registers. -/

namespace Sys2Proof.Machine

/-! What the commands of a cycle do not look at. -/

/-- The machine with another mode, re-arming, trigger history and place in the buffer. -/
def State.withControl (s : State) (run rearm trig : Bool) (st : BState) (n : Nat) : State :=
  { s with run := run, rearm := rearm, trigPrev := trig, bstate := st, bidx := n }

section WithControl
variable {s t : State} (run rearm trig : Bool) (bst : BState) (n : Nat)

/-- A command does not look at them (R84, R85). -/
theorem exec_withControl {i : Instr} (command : i.isCommand = true) (h : exec i s = .next t) :
    exec i (s.withControl run rearm trig bst n) = .next (t.withControl run rearm trig bst n) := by
  cases i with
  | clarke =>
    obtain ⟨a, b, c, ha, hb, hc, rfl⟩ := execClarke_next.1 h
    exact execClarke_next.2 ⟨a, b, c, ha, hb, hc, rfl⟩
  | park =>
    obtain ⟨th, a, b, c, hth, ha, hb, hc, rfl⟩ := execPark_next.1 h
    exact execPark_next.2 ⟨th, a, b, c, hth, ha, hb, hc, rfl⟩
  | ipark =>
    obtain ⟨th, d, q, z, hth, hd, hq, hz, rfl⟩ := execIpark_next.1 h
    exact execIpark_next.2 ⟨th, d, q, z, hth, hd, hq, hz, rfl⟩
  | lpf i =>
    obtain ⟨present, x, hx, divides, rfl⟩ := execLpf_next.1 h
    exact execLpf_next.2 ⟨present, x, hx, divides, rfl⟩
  | intg i =>
    obtain ⟨present, a, b, c, ha, hb, hc, rfl⟩ := execIntg_next.1 h
    exact execIntg_next.2 ⟨present, a, b, c, ha, hb, hc, rfl⟩
  | pi i =>
    obtain ⟨present, e, he, rfl⟩ := execPi_next.1 h
    exact execPi_next.2 ⟨present, e, he, rfl⟩
  | pll i =>
    obtain ⟨present, a, b, c, ha, hb, hc, rfl⟩ := execPll_next.1 h
    exact execPll_next.2 ⟨present, a, b, c, ha, hb, hc, rfl⟩
  | cycle tr => cases command

/-- No source of a step is one of them (R91). -/
theorem argsOf_withControl (args : List Src) : argsOf (s.withControl run rearm trig bst n) args = argsOf s args := by
  have sources : srcValue (s.withControl run rearm trig bst n) = srcValue s := by
    funext src
    cases src <;> rfl
  simp only [argsOf, argValue, sources]

theorem issueWith_withControl {st : WireStep} (h : issueWith exec st s = .next t) :
    issueWith exec st (s.withControl run rearm trig bst n) = .next (t.withControl run rearm trig bst n) := by
  obtain ⟨i, u, ok, completes, rfl⟩ := issueWith_next.1 h
  refine issueWith_next.2 ⟨i, u.withControl run rearm trig bst n, ok, ?_, rfl⟩
  rw [argsOf_withControl]
  exact exec_withControl run rearm trig bst n (decodeCommand_isCommand ok) completes

/-- A command does not look at the mode (R185). -/
theorem issueWith_run {st : WireStep} (h : issueWith exec st s = .next t) :
    issueWith exec st { s with run := run } = .next { t with run := run } := by
  have kept := (issueWith_frame h).1
  have moved := issueWith_withControl run s.rearm s.trigPrev s.bstate s.bidx h
  rwa [show t.withControl run s.rearm s.trigPrev s.bstate s.bidx = { t with run := run } by
    rw [← kept.rearm, ← kept.trigPrev, ← kept.bstate, ← kept.bidx]; rfl] at moved

end WithControl

/-- The epilogue does not look at the mode. -/
theorem leaveCycle_run {s t : State} (r : Bool) (h : leaveCycle s = .next t) :
    leaveCycle { s with run := r } = .next { t with run := r } := by
  obtain ⟨acts, holds, copiedActs, copiedHolds, rfl⟩ := leaveCycle_next.1 h
  refine leaveCycle_next.2 ⟨acts, holds, copiedActs, copiedHolds, ?_⟩
  have machine : ({ s with run := r } : State).captured = { s.captured with run := r, act := s.act, hold := s.hold } :=
    captured_unread s r s.act s.hold
  rw [epilogueState_eq, epilogueState_eq, machine]

/-! The buffer machine re-armed during a cycle (R185, R42, R146). -/

/-- Re-armed, the buffer machine stores nothing without a buffer or without an edge. -/
theorem captured_rearmed_quiet {s : State} (idle : s.bstate = .idle) (h : s.build.bufEn = false ∨ s.edge = false) :
    s.captured = s := by
  rcases captured_cases s with ⟨e, -⟩ | ⟨enabled, ⟨-, edge⟩ | filling, -⟩
  · exact e
  · simp [enabled, edge] at h
  · cases idle.symm.trans filling

/-- Re-armed, the buffer machine stores the Sample of a cycle with an edge in entry 0. -/
theorem captured_rearmed_edge {s : State} (idle : s.bstate = .idle) (start : s.bidx = 0)
    (enabled : s.build.bufEn = true) (edge : s.edge = true) :
    s.captured.buf = (s.storeSample 0).buf ∧
    (s.build.bufCap = 1 → s.captured.bstate = .idle ∧ s.captured.bidx = 0) ∧
    (s.build.bufCap ≠ 1 → s.captured.bstate = .filling ∧ s.captured.bidx = 1) := by
  have machine := captured_cases s
  rw [start] at machine
  rcases machine with ⟨-, noBuffer | ⟨-, noEdge⟩ | full⟩ | ⟨-, -, ⟨last, e⟩ | ⟨notLast, e⟩⟩
  · cases enabled.symm.trans noBuffer
  · cases edge.symm.trans noEdge
  · cases idle.symm.trans full
  · rw [e]
    exact ⟨rfl, fun _ => ⟨rfl, rfl⟩, fun other => absurd last.symm other⟩
  · rw [e]
    exact ⟨rfl, fun one => absurd one.symm notLast, fun _ => ⟨rfl, rfl⟩⟩

/-- Settles O53: a busy edge is a command, which looks at none of what STOP and START write, or the epilogue, whose
buffer machine a START has re-armed. -/
theorem stopLetsTheCycleFinish : Obligations.StopLetsTheCycleFinish := by
  intro s t ended busy stepped
  have advanced : advance (s.atEdge s.pins) = .next t := (step_busy ended busy).symm.trans stepped
  have started (d : HostData) (init : s.run = false) (bit : d.bits.getLsbD 0 = true) (wf : buildWf s.build = true)
      (valid : validConfig s = true) : writeReg s .ctrl d = .next s.startedInCycle := by
    rw [writeReg, if_pos rfl, bit, writeCtrl_start init wf valid, if_pos busy]
  have stepStarted : step s.startedInCycle = advance (s.atEdge s.pins).startedInCycle := step_busy ended busy
  have stepRun (r : Bool) : step { s with run := r } = advance { s.atEdge s.pins with run := r } := step_busy ended busy
  cases at_ : s.build.wiring.steps[s.stepIdx]? with
  | some st =>
    have issued : issueWith exec st (s.atEdge s.pins) = .next t :=
      (advance_issue (s := s.atEdge s.pins) at_).symm.trans advanced
    have kept := (issueWith_frame issued).1
    refine ⟨fun r => ?_, fun d init bit wf valid =>
      ⟨_, t.withControl true true true .idle 0, started d init bit wf valid, ?_, fun _ => rfl, fun idle => ?_⟩⟩
    · rw [stepRun, advance_issue (s := { s.atEdge s.pins with run := r }) at_]
      exact issueWith_run r issued
    · rw [stepStarted, advance_issue (s := (s.atEdge s.pins).startedInCycle) at_]
      exact issueWith_withControl (s := s.atEdge s.pins) true true true .idle 0 issued
    · cases idle.symm.trans (kept.busy.trans busy)
  | none =>
    have left : leaveCycle (s.atEdge s.pins) = .next t :=
      (advance_leave (s := s.atEdge s.pins) at_).symm.trans advanced
    obtain ⟨acts, holds, copiedActs, copiedHolds, rfl⟩ := leaveCycle_next.1 left
    refine ⟨fun r => ?_, fun d init bit wf valid =>
      ⟨_, (s.atEdge s.pins).startedInCycle.epilogueState acts holds, started d init bit wf valid, ?_, fun active => ?_,
        fun _ => ⟨?_, fun quiet => ?_, fun enabled edge => ?_⟩⟩⟩
    · rw [stepRun, advance_leave (s := { s.atEdge s.pins with run := r }) at_]
      exact leaveCycle_run r left
    · rw [stepStarted, advance_leave (s := (s.atEdge s.pins).startedInCycle) at_]
      exact leaveCycle_next.2 ⟨acts, holds, copiedActs, copiedHolds, rfl⟩
    · rw [epilogueState_eq] at active; cases active
    · rw [epilogueState_eq, epilogueState_eq]; rfl
    · rw [epilogueState_eq, captured_rearmed_quiet (s := (s.atEdge s.pins).startedInCycle) rfl quiet]
      exact ⟨rfl, rfl, rfl⟩
    · rw [epilogueState_eq]
      exact captured_rearmed_edge (s := (s.atEdge s.pins).startedInCycle) rfl rfl enabled edge

end Sys2Proof.Machine
end

section
/-! PROOFS. The host port (spec/20_memory.md, spec/60_exceptions.md section 3) and reset (spec/70_reset_and_hazards.md
section 1): the register map by number, what is read, what is refused, what a write leaves, START, STOP and the values
after reset. -/

namespace Sys2Proof.Machine

/-! The register map (R61, R62). -/

/-- A register number of a `REG` address in range is the register its fields name. -/
theorem regAt_bitVec (b : Build) (blk : BitVec 4) (i r : Inst) :
    decodeReg b (blk ++ BitVec.ofFin (w := 4) i ++ BitVec.ofFin (w := 4) r) = regAt b blk.toNat i r := by
  rw [regAt, if_pos blk.isLt, BitVec.ofNat_toNat, BitVec.setWidth_eq]

theorem onlyIf_true (o : Option RegName) : onlyIf true o = o := rfl

/-- Keeping a register where two conditions hold is giving it there and nothing elsewhere. -/
theorem onlyIf_and {p q : Prop} [Decidable p] [Decidable q] (r : RegName) :
    onlyIf (decide p && decide q) (some r) = if p ∧ q then some r else none := by
  rw [← Bool.decide_and]
  by_cases h : p ∧ q <;> simp [onlyIf, h]

section Blocks
variable (b : Build) (i r : Inst)

theorem regAt_global : regAt b 0 i r = onlyIf (decide (i = 0)) (globalReg r.val) := decodeReg_fields b 0 i r

theorem regAt_act : regAt b 1 i r = if i = 0 ∧ r.val < b.nAct then some (.act r) else none :=
  (decodeReg_fields b 1 i r).trans (onlyIf_and _)

theorem regAt_hold : regAt b 2 i r = if i = 0 ∧ r.val < b.nHold then some (.hold r) else none :=
  (decodeReg_fields b 2 i r).trans (onlyIf_and _)

theorem regAt_lpf : regAt b 4 i r = onlyIf (decide (i.val < b.nLpf)) (lpfReg i r.val) := decodeReg_fields b 4 i r

theorem regAt_intg : regAt b 5 i r = if i.val < b.nIntg ∧ r = 0 then some (.intgAcc i) else none := by
  refine (decodeReg_fields b 5 i r).trans ((onlyIf_and _).trans (if_congr ?_ rfl rfl))
  rw [Fin.ext_iff]; rfl

theorem regAt_pi : regAt b 6 i r = onlyIf (decide (i.val < b.nPi)) ((piRegOf r.val).map (.pi i)) :=
  decodeReg_fields b 6 i r

theorem regAt_pll : regAt b 7 i r = onlyIf (decide (i.val < b.nPll)) (pllReg i r.val) := decodeReg_fields b 7 i r

/-- Blocks 3 and 8 to 15 hold no register. -/
theorem regAt_unmapped {blk : Nat} (h : blk = 3 ∨ 8 ≤ blk) : regAt b blk i r = none := by
  unfold regAt
  split
  case isFalse => rfl
  case isTrue lt =>
    rw [decodeReg_fields, BitVec.toNat_ofNat, Nat.mod_eq_of_lt lt]
    split <;> first | rfl | omega

end Blocks

/-- A PI controller has registers 0 to 8 (R62). -/
theorem piRegOf_beyond {n : Nat} (h : 9 ≤ n) : piRegOf n = none := by
  unfold piRegOf
  split <;> first | rfl | omega

theorem globalReg_beyond {n : Nat} (h : 7 ≤ n) : globalReg n = none := by
  unfold globalReg
  split <;> first | rfl | omega

theorem lpfReg_beyond {i : Inst} {n : Nat} (h : 3 ≤ n) : lpfReg i n = none := by
  unfold lpfReg
  split <;> first | rfl | omega

theorem pllReg_beyond {i : Inst} {n : Nat} (h : 12 ≤ n) : pllReg i n = none := by
  unfold pllReg
  split
  case h_4 => rw [piRegOf_beyond (by omega)]; rfl
  all_goals omega

/-- Outside its condition, or beyond its registers, a block maps nothing. -/
theorem onlyIf_eq_none {p : Prop} [Decidable p] {o : Option RegName} (h : o = none ∨ ¬ p) :
    onlyIf (decide p) o = none := by
  rcases h with rfl | h <;> simp [onlyIf, *]

/-- Settles O47: block by block, from the three fields of the address. -/
theorem registerMap : Obligations.RegisterMap := by
  intro b i r
  refine ⟨fun blk => regAt_bitVec b blk i r, rfl, fun h => ?_, regAt_act b i r, regAt_hold b i r, fun present => ?_,
    fun h => ?_, regAt_intg b i r, fun present => ?_, fun h => ?_, fun present => ?_, fun h => ?_,
    fun blk h => regAt_unmapped b i r h⟩
  · rw [regAt_global]; exact onlyIf_eq_none (h.imp_left globalReg_beyond)
  · simp only [regAt_lpf, present, decide_true, onlyIf_true]; rfl
  · rw [regAt_lpf]; exact onlyIf_eq_none (h.imp lpfReg_beyond not_lt_of_ge)
  · simp only [regAt_pi, present, decide_true, onlyIf_true]; rfl
  · rw [regAt_pi]; exact onlyIf_eq_none (h.imp (fun beyond => by rw [piRegOf_beyond beyond]; rfl) not_lt_of_ge)
  · simp only [regAt_pll, present, decide_true, onlyIf_true]; rfl
  · rw [regAt_pll]; exact onlyIf_eq_none (h.imp pllReg_beyond not_lt_of_ge)

/-! Reads (R63, R65). -/

theorem memRead_reg (s : State) (a : BitVec 16) :
    memRead s false a = (decodeReg s.build (a.setWidth 12)).map (readReg s) := rfl

/-- A mapped lane of the buffer reads what it holds. -/
theorem memRead_lane {s : State} {a : BitVec 16} (enabled : s.build.bufEn = true) (entry : a.toNat / 4 < s.build.bufCap)
    (lane : a.toNat % 4 ≠ 3) : memRead s true a = (s.buf.read a.toNat).map Elem.scalar := by
  simp [memRead, readBuf, enabled, entry, lane]

/-- An unmapped lane, and a lane that was never stored, reads no value. -/
theorem memRead_no_lane {s : State} {a : BitVec 16}
    (h : a.toNat % 4 = 3 ∨ s.build.bufCap ≤ a.toNat / 4 ∨ s.build.bufEn = false ∨ s.buf.read a.toNat = none) :
    memRead s true a = none := by
  simp only [memRead, if_true, readBuf]
  rcases h with lane | entry | disabled | empty
  · simp [lane]
  · simp [entry]
  · simp [disabled]
  · simp [empty]

/-- A read looks at no port. -/
theorem memRead_hrdata (s : State) (v : Option Elem) (sel : Bool) (a : BitVec 16) :
    memRead { s with hrdata := v } sel a = memRead s sel a := by
  have registers : readReg { s with hrdata := v } = readReg s := by
    funext r
    cases r <;> rfl
  unfold memRead
  rw [registers]
  rfl

/-! Writes (R186). -/

/-- A host write where no address is mapped does nothing (R62). -/
theorem memWrite_unmapped {s : State} {a : BitVec 16} (d : HostData) (h : decodeReg s.build (a.setWidth 12) = none) :
    memWrite s false a d = .next s := by
  simp [memWrite, h]

theorem memWrite_mapped {s : State} {a : BitVec 16} {r : RegName} (d : HostData)
    (h : decodeReg s.build (a.setWidth 12) = some r) : memWrite s false a d = writeReg s r d := by
  simp [memWrite, h]

/-- A write to a register the host may not write now does nothing. -/
theorem writeReg_refused {s : State} {r : RegName} (d : HostData) (notCtrl : r ≠ .ctrl)
    (h : r.initWritable = false ∨ s.run = true ∨ s.busy = true) : writeReg s r d = .next s := by
  rw [writeReg, if_neg notCtrl]
  rcases h with h | h | h <;> simp [h]

/-- A write in INIT mode between cycles to a register marked `I` stores. -/
theorem writeReg_stores {s : State} {r : RegName} (d : HostData) (init : s.run = false) (idle : s.busy = false)
    (writable : r.initWritable = true) : writeReg s r d = .next (storeReg s r d) := by
  have notCtrl : r ≠ .ctrl := by rintro rfl; cases writable
  simp [writeReg, notCtrl, writable, init, idle]

/-- Settles O48: reads and writes by what the address names, the write refused by the rights of its register. -/
theorem refusedAccessesChangeNothing : Obligations.RefusedAccessesChangeNothing := by
  intro s a d
  refine ⟨fun unmapped => ⟨?_, memWrite_unmapped d unmapped⟩, memRead_no_lane, rfl, fun r mapped refused => ?_⟩
  · rw [memRead_reg, unmapped]; rfl
  · rw [memWrite_mapped d mapped]
    rcases refused with rfl | rfl | rfl | rfl | rfl | ⟨active, notCtrl⟩
    case inr.inr.inr.inr.inr => exact writeReg_refused d notCtrl (.inr active)
    all_goals exact writeReg_refused d (by decide) (.inl rfl)

/-! What a stored register reads, and the others (R184). -/

/-- A register of a PI controller reads what was stored: the scalar, or the two flag bits. -/
theorem readPiReg_store_self (p : PiRegs) (r : PiReg) (d : HostData) :
    readPiReg (storePiReg p r d) r =
      if r = .clampEn then .bits (clampEnWord (clampEnOfBits d.bits)) else .scalar d.scalar := by
  cases r <;> rfl

/-- The other registers of the PI controller read what they did. -/
theorem readPiReg_store_other (p : PiRegs) {r r' : PiReg} (d : HostData) (h : r' ≠ r) :
    readPiReg (storePiReg p r d) r' = readPiReg p r' := by
  cases r <;> cases r' <;> first | rfl | exact absurd rfl h

/-- `CLAMP_EN` as a number: bit 0 is `INT_EN`, bit 1 `OUT_EN` (R32). -/
theorem clampEnWord_toNat (c : ClampEn) : (clampEnWord c).toNat = c.intEn.toNat + 2 * c.outEn.toNat := by
  rcases c with ⟨intEn, outEn⟩
  cases intEn <;> cases outEn <;> rfl

/-- `CLAMP_EN` reads back the two low bits written (R32). -/
theorem clampEnWord_ofBits (v : BitVec 16) : (clampEnWord (clampEnOfBits v)).toNat = v.toNat % 4 := by
  have bit0 : (v.getLsbD 0).toNat = v.toNat / 2 ^ 0 % 2 := Nat.toNat_testBit v.toNat 0
  have bit1 : (v.getLsbD 1).toNat = v.toNat / 2 ^ 1 % 2 := Nat.toNat_testBit v.toNat 1
  rw [clampEnWord_toNat, clampEnOfBits, bit0, bit1]
  omega

/-- A write that leaves what `f` reads of one register of a bank leaves what it reads of all. -/
theorem put_reads {α β : Type} {b : Bank α} {i : Inst} {x : α} (f : α → β) (j : Inst) (h : j = i → f x = f b[i]) :
    f (Bank.put b i x)[j] = f b[j] := by
  rw [Bank.put_get]
  split
  case isTrue same => subst same; exact h rfl
  case isFalse => rfl

section Reads
variable (s : State) (i : Inst) (r : RegName)

/-- A write to a filter leaves a register whose field it leaves. -/
theorem readReg_setLpf (x : LpfRegs) (fc : r = .lpfFc i → x.fc = s.lpf[i].fc) (dt : r = .lpfDt i → x.dt = s.lpf[i].dt)
    (y : r = .lpfY i → x.y = s.lpf[i].y) : readReg (s.setLpf i x) r = readReg s r := by
  cases r with
  | lpfFc j => exact congrArg Elem.scalar (put_reads LpfRegs.fc j fun e => fc (e ▸ rfl))
  | lpfDt j => exact congrArg Elem.scalar (put_reads LpfRegs.dt j fun e => dt (e ▸ rfl))
  | lpfY j => exact congrArg Elem.scalar (put_reads LpfRegs.y j fun e => y (e ▸ rfl))
  | _ => rfl

theorem readReg_setIntg (x : IntgRegs) (other : r ≠ .intgAcc i) : readReg (s.setIntg i x) r = readReg s r := by
  cases r with
  | intgAcc j => exact congrArg Elem.scalar (put_reads IntgRegs.acc j fun e => absurd (e ▸ rfl) other)
  | _ => rfl

theorem readReg_setPi (x : PiRegs) (regs : ∀ q, r = .pi i q → readPiReg x q = readPiReg s.pi[i] q) :
    readReg (s.setPi i x) r = readReg s r := by
  cases r with
  | pi j q => exact put_reads (readPiReg · q) j fun e => regs q (e ▸ rfl)
  | _ => rfl

theorem readReg_setPll (x : PllRegs) (regs : ∀ q, r = .pllPi i q → readPiReg x.pi q = readPiReg s.pll[i].pi q)
    (theta : r = .theta i → x.theta = s.pll[i].theta) (omega : r = .omega i → x.omega = s.pll[i].omega)
    (freq : r = .freq i → x.freq = s.pll[i].freq) : readReg (s.setPll i x) r = readReg s r := by
  cases r with
  | pllPi j q => exact put_reads (fun p : PllRegs => readPiReg p.pi q) j fun e => regs q (e ▸ rfl)
  | theta j => exact congrArg Elem.scalar (put_reads PllRegs.theta j fun e => theta (e ▸ rfl))
  | omega j => exact congrArg Elem.scalar (put_reads PllRegs.omega j fun e => omega (e ▸ rfl))
  | freq j => exact congrArg Elem.scalar (put_reads PllRegs.freq j fun e => freq (e ▸ rfl))
  | _ => rfl

end Reads

/-- A stored register leaves what every other register reads (R184). -/
theorem readReg_storeReg_other (s : State) {r r' : RegName} (d : HostData) (other : r' ≠ r) :
    readReg (storeReg s r d) r' = readReg s r' := by
  have same {p : Prop} (e : r' = r) : p := absurd e other
  cases r with
  | ctrl => rfl
  | status => rfl
  | bidx => rfl
  | sa => rfl
  | sb => rfl
  | sc => rfl
  | dt => cases r' <;> first | rfl | exact same rfl
  | act j =>
    cases r' with
    | act k => exact congrArg Elem.scalar (put_reads id k fun e => same (e ▸ rfl))
    | _ => rfl
  | hold j =>
    cases r' with
    | hold k => exact congrArg Elem.scalar (put_reads id k fun e => same (e ▸ rfl))
    | _ => rfl
  | lpfFc i => exact readReg_setLpf s i r' _ same (fun _ => rfl) (fun _ => rfl)
  | lpfDt i => exact readReg_setLpf s i r' _ (fun _ => rfl) same (fun _ => rfl)
  | lpfY i => exact readReg_setLpf s i r' _ (fun _ => rfl) (fun _ => rfl) same
  | intgAcc i => exact readReg_setIntg s i r' _ other
  | pi i r => exact readReg_setPi s i r' _ fun q e => readPiReg_store_other _ d fun h => same (e.trans (h ▸ rfl))
  | pllPi i r =>
    exact readReg_setPll s i r' _ (fun q e => readPiReg_store_other _ d fun h => same (e.trans (h ▸ rfl)))
      (fun _ => rfl) (fun _ => rfl) (fun _ => rfl)
  | theta i => exact readReg_setPll s i r' _ (fun _ _ => rfl) same (fun _ => rfl) (fun _ => rfl)
  | omega i => exact readReg_setPll s i r' _ (fun _ _ => rfl) (fun _ => rfl) same (fun _ => rfl)
  | freq i => exact readReg_setPll s i r' _ (fun _ _ => rfl) (fun _ => rfl) (fun _ => rfl) same

/-- What a register that takes a word reads after it: the scalar, or for `CLAMP_EN` the two low bits (R32, R184). -/
theorem readReg_storeReg_self (s : State) {r : RegName} (d : HostData) (writable : r.initWritable = true) :
    readReg (storeReg s r d) r = .scalar d.scalar ∨
      ∃ v : BitVec 16, readReg (storeReg s r d) r = .bits v ∧ v.toNat = d.bits.toNat % 4 ∧
        ((∃ i, r = .pi i .clampEn) ∨ (∃ i, r = .pllPi i .clampEn)) := by
  have controller {p : PiRegs} {q : PiReg} {at_ : PiReg → RegName} (e : r = at_ q)
      (reads : readReg (storeReg s r d) r = readPiReg (storePiReg p q d) q)
      (block : (∃ i, at_ .clampEn = .pi i .clampEn) ∨ (∃ i, at_ .clampEn = .pllPi i .clampEn)) :
      readReg (storeReg s r d) r = .scalar d.scalar ∨
        ∃ v : BitVec 16, readReg (storeReg s r d) r = .bits v ∧ v.toNat = d.bits.toNat % 4 ∧
          ((∃ i, r = .pi i .clampEn) ∨ (∃ i, r = .pllPi i .clampEn)) := by
    rw [readPiReg_store_self] at reads
    by_cases flag : q = .clampEn
    · rw [if_pos flag] at reads
      rw [flag] at e
      rw [← e] at block
      exact .inr ⟨_, reads, clampEnWord_ofBits d.bits, block⟩
    · rw [if_neg flag] at reads
      exact .inl reads
  cases r with
  | ctrl => cases writable
  | status => cases writable
  | bidx => cases writable
  | sa => cases writable
  | sb => cases writable
  | sc => cases writable
  | dt => exact .inl rfl
  | act j => exact .inl (congrArg Elem.scalar (Bank.put_self s.act j _))
  | hold k => exact .inl (congrArg Elem.scalar (Bank.put_self s.hold k _))
  | lpfFc i => exact .inl (congrArg (fun p : LpfRegs => Elem.scalar p.fc) (Bank.put_self s.lpf i _))
  | lpfDt i => exact .inl (congrArg (fun p : LpfRegs => Elem.scalar p.dt) (Bank.put_self s.lpf i _))
  | lpfY i => exact .inl (congrArg (fun p : LpfRegs => Elem.scalar p.y) (Bank.put_self s.lpf i _))
  | intgAcc i => exact .inl (congrArg (fun p : IntgRegs => Elem.scalar p.acc) (Bank.put_self s.intg i _))
  | pi i q =>
    exact controller (at_ := .pi i) rfl (congrArg (readPiReg · q) (Bank.put_self s.pi i _)) (.inl ⟨i, rfl⟩)
  | pllPi i q =>
    exact controller (at_ := .pllPi i) rfl (congrArg (fun p : PllRegs => readPiReg p.pi q) (Bank.put_self s.pll i _))
      (.inr ⟨i, rfl⟩)
  | theta i => exact .inl (congrArg (fun p : PllRegs => Elem.scalar p.theta) (Bank.put_self s.pll i _))
  | omega i => exact .inl (congrArg (fun p : PllRegs => Elem.scalar p.omega) (Bank.put_self s.pll i _))
  | freq i => exact .inl (congrArg (fun p : PllRegs => Elem.scalar p.freq) (Bank.put_self s.pll i _))

/-- Settles O49: the write stores, the stored register reads back, and every other register and lane is left. -/
theorem initWriteIsReadBack : Obligations.InitWriteIsReadBack := by
  intro s r a d init idle mapped writable
  have kept := storeReg_frame s r d
  refine ⟨storeReg s r d, (memWrite_mapped d mapped).trans (writeReg_stores d init idle writable), ?_,
    fun r' other => readReg_storeReg_other s d other, kept.buf, kept.build, readReg_storeReg_self s d writable⟩
  rw [memRead_reg, kept.build, mapped]
  rfl

end Sys2Proof.Machine
end

section
/-! PROOFS. Idempotent accesses, START and STOP, the flag registers as words, and reset (spec/20_memory.md section 2,
spec/60_exceptions.md section 3, spec/10_state.md, spec/70_reset_and_hazards.md section 1). -/

namespace Sys2Proof.Machine

/-! An access done twice (R68). -/

theorem Bank.put_put {α : Type} (b : Bank α) (i : Inst) (x y : α) : Bank.put (Bank.put b i x) i y = Bank.put b i y :=
  Vector.set_set ..

theorem setLpf_setLpf (s : State) (i : Inst) (x y : LpfRegs) : (s.setLpf i x).setLpf i y = s.setLpf i y := by
  simp only [State.setLpf, Bank.put_put]

theorem setIntg_setIntg (s : State) (i : Inst) (x y : IntgRegs) : (s.setIntg i x).setIntg i y = s.setIntg i y := by
  simp only [State.setIntg, Bank.put_put]

theorem setPi_setPi (s : State) (i : Inst) (x y : PiRegs) : (s.setPi i x).setPi i y = s.setPi i y := by
  simp only [State.setPi, Bank.put_put]

theorem setPll_setPll (s : State) (i : Inst) (x y : PllRegs) : (s.setPll i x).setPll i y = s.setPll i y := by
  simp only [State.setPll, Bank.put_put]

theorem storePiReg_idem (p : PiRegs) (r : PiReg) (d : HostData) :
    storePiReg (storePiReg p r d) r d = storePiReg p r d := by
  cases r <;> rfl

/-- A register that takes a word twice is as one that takes it once. -/
theorem storeReg_idem (s : State) (r : RegName) (d : HostData) : storeReg (storeReg s r d) r d = storeReg s r d := by
  cases r with
  | act j => simp only [storeReg, Bank.put_put]
  | hold k => simp only [storeReg, Bank.put_put]
  | lpfFc i => simp only [storeReg, setLpf_setLpf, State.setLpf_lpf, Bank.put_self]
  | lpfDt i => simp only [storeReg, setLpf_setLpf, State.setLpf_lpf, Bank.put_self]
  | lpfY i => simp only [storeReg, setLpf_setLpf, State.setLpf_lpf, Bank.put_self]
  | intgAcc i => exact setIntg_setIntg ..
  | pi i r => simp only [storeReg, setPi_setPi, State.setPi_pi, Bank.put_self, storePiReg_idem]
  | pllPi i r => simp only [storeReg, setPll_setPll, State.setPll_pll, Bank.put_self, storePiReg_idem]
  | theta i => simp only [storeReg, setPll_setPll, State.setPll_pll, Bank.put_self]
  | omega i => simp only [storeReg, setPll_setPll, State.setPll_pll, Bank.put_self]
  | freq i => simp only [storeReg, setPll_setPll, State.setPll_pll, Bank.put_self]
  | _ => rfl

/-- START of a running core, and STOP of a stopped one, change nothing (R185). -/
theorem writeCtrl_idem {s t : State} {v : Bool} (h : writeCtrl s v = .next t) : writeCtrl t v = .next t := by
  cases v with
  | false =>
    obtain rfl := Host.Outcome.next.inj h
    rfl
  | true =>
    have run : t.run = true := by
      rw [writeCtrl, if_pos rfl] at h
      split at h
      case isTrue run => obtain rfl := Host.Outcome.next.inj h; exact run
      case isFalse =>
        obtain ⟨-, -, rfl⟩ := startRun_next.1 h
        split <;> rfl
    rw [writeCtrl, if_pos rfl, if_pos run]

theorem writeReg_idem {s t : State} {r : RegName} {d : HostData} (h : writeReg s r d = .next t) :
    writeReg t r d = .next t := by
  unfold writeReg at h
  split at h
  case isTrue ctrl =>
    rw [writeReg, if_pos ctrl]
    exact writeCtrl_idem h
  case isFalse notCtrl =>
    split at h
    case isTrue may =>
      obtain rfl := Host.Outcome.next.inj h
      have kept := storeReg_frame s r d
      simp only [Bool.and_eq_true, Bool.not_eq_true'] at may
      obtain ⟨⟨writable, init⟩, idle⟩ := may
      rw [writeReg_stores d (kept.run.trans init) (kept.busy.trans idle) writable, storeReg_idem]
    case isFalse refused =>
      obtain rfl := Host.Outcome.next.inj h
      rw [writeReg, if_neg notCtrl, if_neg refused]

/-- A host access leaves the build. -/
theorem hostAccess_build {s t : State} {a : HostAccess} (h : hostAccess s a = .next t) : t.build = s.build :=
  (hostEffect_machine (hostAccess_effect h)).1

theorem hostAccess_write {s : State} {a : HostAccess} (write : a.hwe = true) :
    hostAccess s a = memWrite s a.hsel a.haddr a.hwdata := by
  rw [hostAccess, if_pos write]

theorem hostAccess_read {s : State} {a : HostAccess} (read : a.hwe = false) :
    hostAccess s a = .next { s with hrdata := memRead s a.hsel a.haddr } := by
  rw [hostAccess, if_neg (by simp [read])]

/-- An access done twice is as an access done once (R68). -/
theorem hostAccess_idem {s t : State} {a : HostAccess} (h : hostAccess s a = .next t) : hostAccess t a = .next t := by
  have build := hostAccess_build h
  cases write : a.hwe with
  | false =>
    rw [hostAccess_read write] at h ⊢
    obtain rfl := Host.Outcome.next.inj h
    exact congrArg (fun v => Host.Outcome.next { s with hrdata := v }) (memRead_hrdata s _ _ _)
  | true =>
    rw [hostAccess_write write] at h ⊢
    cases space : a.hsel with
    | true => rfl
    | false =>
      rw [space] at h
      cases mapped : decodeReg s.build (a.haddr.setWidth 12) with
      | none => exact memWrite_unmapped _ (build ▸ mapped)
      | some r =>
        rw [memWrite_mapped _ mapped] at h
        rw [memWrite_mapped _ (build ▸ mapped)]
        exact writeReg_idem h

/-- Settles O50: the reads by the definitions of the registers, the edge of a read, and the accesses twice. -/
theorem accessesAreIdempotent : Obligations.AccessesAreIdempotent := by
  refine ⟨fun s a => ⟨fun r mapped => ?_, memRead_lane⟩, fun s i => ⟨rfl, fun p at_ block => ?_⟩,
    fun s e rest a listed high access read idle noTick => ?_,
    fun s a => ⟨fun read => ⟨_, hostAccess_read read, rfl, memRead_hrdata s _⟩, fun t => hostAccess_idem⟩⟩
  · rw [memRead_reg, mapped]; rfl
  · rcases block with ⟨rfl, rfl⟩ | ⟨rfl, rfl⟩ <;> rfl
  · rw [step_listed listed high, hostEdge_some _ access, hostAccess_read read, andThen_next_left]
    exact driverEdge_no_tick idle noTick

/-! START and STOP (R185). -/

theorem writeReg_ctrl (s : State) (d : HostData) : writeReg s .ctrl d = writeCtrl s (d.bits.getLsbD 0) := if_pos rfl

/-- START of a stopped core is `startRun` (R185). -/
theorem writeReg_start {s : State} {d : HostData} (init : s.run = false) (bit : d.bits.getLsbD 0 = true) :
    writeReg s .ctrl d = startRun s := by
  rw [writeReg_ctrl, bit, writeCtrl, if_pos rfl, init, if_neg Bool.false_ne_true]

/-- START with an invalid configuration raises `InvalidConfig` (R172). -/
theorem startRun_invalid {s : State} (wf : buildWf s.build = true) (invalid : validConfig s = false) :
    ∃ blk inst, startRun s = .fault (.invalidConfig blk inst) := by
  obtain ⟨w, fault⟩ := Option.isSome_iff_exists.1 (Option.isNone_eq_false_iff.1 invalid)
  refine ⟨w.1, w.2, ?_⟩
  rw [startRun, if_pos wf, fault]

/-- Settles O51: bit 0 of the write against the mode, and START by the two checks it makes. -/
theorem startAndStop : Obligations.StartAndStop := by
  intro s d
  refine ⟨fun init bit wf valid => ⟨fun idle => ?_, fun busy => ?_⟩, fun init bit wf invalid => ?_,
    fun init bit illFormed => ?_, fun run bit => ?_, fun same => ?_⟩
  · rw [writeReg_ctrl, bit, writeCtrl_start init wf valid, if_neg (by simp [idle])]; rfl
  · rw [writeReg_ctrl, bit, writeCtrl_start init wf valid, if_pos busy]; rfl
  · rw [writeReg_start init bit]; exact startRun_invalid wf invalid
  · rw [writeReg_start init bit, startRun, illFormed]; rfl
  · rw [writeReg_ctrl, bit]; rfl
  · rw [writeReg_ctrl, same]
    cases run : s.run with
    | true => rw [writeCtrl, if_pos rfl, if_pos run]
    | false => rw [writeCtrl_stop, ← run]

/-! The flag registers as words (R23, R32, R40 to R42). -/

/-- `STATUS` as a number: the code in bits 1:0, `TRIG_PREV` in bit 2 (R41, R42). -/
theorem statusWord_toNat (s : State) : (statusWord s).toNat =
    4 * s.trigPrev.toNat + (if s.build.bufEn then s.bstate.code else 0#2).toNat := by
  have word (t : Bool) (x : BitVec 2) : ((BitVec.ofBool t ++ x).zeroExtend 16).toNat = 4 * t.toNat + x.toNat := by
    revert t x; decide
  exact word _ _

theorem ctrlWord_toNat (s : State) : (ctrlWord s).toNat = s.run.toNat := by
  unfold ctrlWord
  cases s.run <;> rfl

/-- Settles O54: each word as a number, by its fields. -/
theorem flagRegistersAsWords : Obligations.FlagRegistersAsWords := by
  intro s i
  refine ⟨⟨_, rfl, ctrlWord_toNat s⟩, ⟨_, _, rfl, statusWord_toNat s, fun disabled => ?_, fun idle => ?_,
      fun enabled filling => ?_, fun enabled full => ?_⟩, ⟨_, rfl, fun disabled => ?_, fun enabled below => ?_⟩,
    ⟨_, rfl, clampEnWord_toNat _⟩, ⟨_, rfl, clampEnWord_toNat _⟩⟩
  · simp [disabled]
  · simp [idle, BState.code]
  · simp [enabled, filling, BState.code]
  · simp [enabled, full, BState.code]
  · simp [bidxWord, disabled]
  · simp only [bidxWord, enabled, if_true, BitVec.toNat_ofNat]
    omega

/-! Reset (R200 to R204). -/

/-- Settles O55: the reset branch of a clock edge. -/
theorem resetEdgeResetsEverything : Obligations.ResetEdgeResetsEverything := by
  intro s e rest listed low
  rw [step_eq, listed]
  exact clockEdge_next.2 (.inl ⟨low, rfl⟩)

/-- Settles O56: the machine after reset is a literal whose banks hold one value everywhere. -/
theorem resetValues : Obligations.ResetValues := by
  rintro b s rfl
  refine ⟨rfl, rfl, rfl, rfl, zero_val, rfl, rfl, rfl, zero_val, zero_val, zero_val, fun j => ?_, fun i => ?_,
    fun i p block => ?_, fun i => ?_, fun _ => rfl, fun _ => rfl, fun k => ?_, fun k => ?_, ?_, rfl⟩
  · simp [State.resetOf]
  · simp [State.resetOf, LpfRegs.reset, IntgRegs.reset]
  · have reset : p = PiRegs.reset := by
      rcases block with rfl | rfl <;> simp [State.resetOf, PllRegs.reset]
    simp [reset, PiRegs.reset]
  · simp [State.resetOf, PllRegs.reset]
  · unfold argAt; split <;> rfl
  · unfold resAt; split <;> rfl
  · cases enabled : b.bufEn <;> simp [readReg, statusWord, State.resetOf, enabled, BState.code]

end Sys2Proof.Machine
end

section
/-! PROOFS. The frame transforms (spec/40_frame_transform.md): their real values, the two round trips, `PARK` as
`CLARKE` turned by the angle, the balanced set, and the pseudocode in any numerics record. -/

namespace Sys2Proof.Machine

/-! Values in the reference instance (R101 to R103). -/

@[simp] theorem clarkeAlpha_val (a b c : Scalar) :
    (clarkeAlpha a b c).val = 2 / 3 * (a.val - 1 / 2 * b.val - 1 / 2 * c.val) := by
  simp only [clarkeAlpha, Scalar.val, twoThirds_val, half_val]

@[simp] theorem clarkeBeta_val (b c : Scalar) :
    (clarkeBeta b c).val = 2 / 3 * (Real.sqrt 3 / 2 * (b.val - c.val)) := by
  simp only [clarkeBeta, Scalar.val, twoThirds_val]

@[simp] theorem parkD_val (th a b c : Scalar) : (parkD th a b c).val = realParkD th.val a.val b.val c.val := by
  simp only [parkD, Scalar.val, twoThirds_val, angleB_val, angleC_val, realParkD]

@[simp] theorem parkQ_val (th a b c : Scalar) : (parkQ th a b c).val = realParkQ th.val a.val b.val c.val := by
  simp only [parkQ, Scalar.val, twoThirds_val, angleB_val, angleC_val, realParkQ]

@[simp] theorem parkZero_val (a b c : Scalar) : (parkZero a b c).val = (a.val + b.val + c.val) / 3 := by
  rw [parkZero, div_val (by simp), three_val]
  rfl

/-- Settles O1: the model's two results have the values of R103. -/
theorem clarkeWritesAlphaAndBeta : Obligations.ClarkeWritesAlphaAndBeta := by
  intro s a b c ha hb hc
  exact ⟨_, execClarke_next.2 ⟨a, b, c, ha, hb, hc, rfl⟩, rfl, holds_some (clarkeAlpha_val a b c),
    holds_some (clarkeBeta_val b c), rfl⟩

/-- Settles O2: the model's three results have the values of R101. -/
theorem parkWritesRotatingFrame : Obligations.ParkWritesRotatingFrame := by
  refine ⟨by decide, fun s th a b c hth ha hb hc => ?_⟩
  exact ⟨_, execPark_next.2 ⟨th, a, b, c, hth, ha, hb, hc, rfl⟩, rfl, holds_some (parkD_val th a b c),
    holds_some (parkQ_val th a b c), holds_some (parkZero_val a b c)⟩

/-! The three phase angles are a third of a turn apart. -/

section Angles
variable (x : ℝ)

theorem cos_third : Real.cos (2 * Real.pi / 3) = -1 / 2 := by
  rw [show 2 * Real.pi / 3 = Real.pi - Real.pi / 3 by ring, Real.cos_pi_sub, Real.cos_pi_div_three]
  norm_num

theorem sin_third : Real.sin (2 * Real.pi / 3) = Real.sqrt 3 / 2 := by
  rw [show 2 * Real.pi / 3 = Real.pi - Real.pi / 3 by ring, Real.sin_pi_sub, Real.sin_pi_div_three]

theorem cos_sub_third :
    Real.cos (x - 2 * Real.pi / 3) = -1 / 2 * Real.cos x + Real.sqrt 3 / 2 * Real.sin x := by
  rw [Real.cos_sub, cos_third, sin_third]; ring

theorem cos_add_third :
    Real.cos (x + 2 * Real.pi / 3) = -1 / 2 * Real.cos x - Real.sqrt 3 / 2 * Real.sin x := by
  rw [Real.cos_add, cos_third, sin_third]; ring

theorem sin_sub_third :
    Real.sin (x - 2 * Real.pi / 3) = -1 / 2 * Real.sin x - Real.sqrt 3 / 2 * Real.cos x := by
  rw [Real.sin_sub, cos_third, sin_third]; ring

theorem sin_add_third :
    Real.sin (x + 2 * Real.pi / 3) = -1 / 2 * Real.sin x + Real.sqrt 3 / 2 * Real.cos x := by
  rw [Real.sin_add, cos_third, sin_third]; ring

/-- The direct component from cosine and sine of the one angle. -/
theorem realParkD_eq (a b c : ℝ) : realParkD x a b c =
    2 / 3 * (a - 1 / 2 * b - 1 / 2 * c) * Real.cos x + 2 / 3 * (Real.sqrt 3 / 2 * (b - c)) * Real.sin x := by
  rw [realParkD, cos_sub_third, cos_add_third]; ring

/-- The quadrature component from cosine and sine of the one angle. -/
theorem realParkQ_eq (a b c : ℝ) : realParkQ x a b c =
    2 / 3 * (a - 1 / 2 * b - 1 / 2 * c) * Real.sin x - 2 / 3 * (Real.sqrt 3 / 2 * (b - c)) * Real.cos x := by
  rw [realParkQ, sin_sub_third, sin_add_third]; ring

end Angles

/-! The round trips on the real numbers. -/

section RoundTrip
variable (x : ℝ)

theorem sqrt_three_sq : Real.sqrt 3 ^ 2 = 3 := Real.sq_sqrt (by norm_num)

/-- Phase a of the vector that `PARK` makes of three phases. -/
theorem phaseA_of_park (a b c : ℝ) :
    realIparkPhase x (realParkD x a b c) (realParkQ x a b c) ((a + b + c) / 3) = a := by
  rw [realIparkPhase, realParkD_eq, realParkQ_eq]
  linear_combination (2 / 3 * (a - 1 / 2 * b - 1 / 2 * c)) * Real.cos_sq_add_sin_sq x

theorem phaseB_of_park (a b c : ℝ) :
    realIparkPhase (x - 2 * Real.pi / 3) (realParkD x a b c) (realParkQ x a b c) ((a + b + c) / 3) = b := by
  rw [realIparkPhase, realParkD_eq, realParkQ_eq, cos_sub_third, sin_sub_third]
  linear_combination (2 / 3 * (b - 1 / 2 * a - 1 / 2 * c)) * Real.cos_sq_add_sin_sq x +
    ((b - c) / 6 * (Real.cos x ^ 2 + Real.sin x ^ 2)) * sqrt_three_sq

theorem phaseC_of_park (a b c : ℝ) :
    realIparkPhase (x + 2 * Real.pi / 3) (realParkD x a b c) (realParkQ x a b c) ((a + b + c) / 3) = c := by
  rw [realIparkPhase, realParkD_eq, realParkQ_eq, cos_add_third, sin_add_third]
  linear_combination (2 / 3 * (c - 1 / 2 * a - 1 / 2 * b)) * Real.cos_sq_add_sin_sq x +
    ((c - b) / 6 * (Real.cos x ^ 2 + Real.sin x ^ 2)) * sqrt_three_sq

/-- The direct component of the three phases that `IPARK` makes of a vector. -/
theorem parkD_of_phases (d q z : ℝ) :
    realParkD x (realIparkPhase x d q z) (realIparkPhase (x - 2 * Real.pi / 3) d q z)
      (realIparkPhase (x + 2 * Real.pi / 3) d q z) = d := by
  simp only [realParkD_eq, realIparkPhase, cos_sub_third, cos_add_third, sin_sub_third, sin_add_third]
  linear_combination d * Real.cos_sq_add_sin_sq x +
    ((d * Real.sin x ^ 2 - q * Real.cos x * Real.sin x) / 3) * sqrt_three_sq

theorem parkQ_of_phases (d q z : ℝ) :
    realParkQ x (realIparkPhase x d q z) (realIparkPhase (x - 2 * Real.pi / 3) d q z)
      (realIparkPhase (x + 2 * Real.pi / 3) d q z) = q := by
  simp only [realParkQ_eq, realIparkPhase, cos_sub_third, cos_add_third, sin_sub_third, sin_add_third]
  linear_combination q * Real.cos_sq_add_sin_sq x +
    ((q * Real.cos x ^ 2 - d * Real.cos x * Real.sin x) / 3) * sqrt_three_sq

/-- The mean of the three phases is the zero component. -/
theorem mean_of_phases (d q z : ℝ) :
    (realIparkPhase x d q z + realIparkPhase (x - 2 * Real.pi / 3) d q z +
      realIparkPhase (x + 2 * Real.pi / 3) d q z) / 3 = z := by
  simp only [realIparkPhase, cos_sub_third, cos_add_third, sin_sub_third, sin_add_third]
  ring

end RoundTrip

/-- `PARK` on four given operands. -/
theorem exec_park_of_arg {s : State} {th a b c : Scalar}
    (h : s.arg = { arg0 := some th, arg1 := some a, arg2 := some b, arg3 := some c }) :
    exec .park s = .next (s.setRes
      { res0 := some (parkD th a b c), res1 := some (parkQ th a b c), res2 := some (parkZero a b c) }) :=
  execPark_next.2 ⟨th, a, b, c, by rw [h], by rw [h], by rw [h], by rw [h], rfl⟩

/-- `IPARK` on four given operands. -/
theorem exec_ipark_of_arg {s : State} {th d q z : Scalar}
    (h : s.arg = { arg0 := some th, arg1 := some d, arg2 := some q, arg3 := some z }) :
    exec .ipark s = .next (s.setRes
      { res0 := some (iparkPhase th d q z), res1 := some (iparkPhase (angleB th) d q z),
        res2 := some (iparkPhase (angleC th) d q z) }) :=
  execIpark_next.2 ⟨th, d, q, z, by rw [h], by rw [h], by rw [h], by rw [h], rfl⟩

/-- `CLARKE` on three given operands. -/
theorem exec_clarke_of_arg (s : State) (a b c : Scalar) (o : Option Scalar) :
    exec .clarke (s.setArg { arg0 := some a, arg1 := some b, arg2 := some c, arg3 := o }) =
      .next ((s.setArg { arg0 := some a, arg1 := some b, arg2 := some c, arg3 := o }).setRes
        { res0 := some (clarkeAlpha a b c), res1 := some (clarkeBeta b c), res2 := none }) := rfl

/-- Settles O14: the phases of the vector that `PARK` makes, one by one. -/
theorem parkThenIparkIsIdentity : Obligations.ParkThenIparkIsIdentity := by
  intro s th a b c loaded
  refine ⟨_, exec_park_of_arg loaded, _, exec_ipark_of_arg rfl, holds_some ?_, holds_some ?_, holds_some ?_⟩
  · simp only [iparkPhase_val, parkD_val, parkQ_val, parkZero_val, phaseA_of_park]
  · simp only [iparkPhase_val, angleB_val, parkD_val, parkQ_val, parkZero_val, phaseB_of_park]
  · simp only [iparkPhase_val, angleC_val, parkD_val, parkQ_val, parkZero_val, phaseC_of_park]

/-- Settles O15: the components of the phases that `IPARK` makes, one by one. -/
theorem iparkThenParkIsIdentity : Obligations.IparkThenParkIsIdentity := by
  intro s th d q z loaded
  refine ⟨_, exec_ipark_of_arg loaded, _, exec_park_of_arg rfl, holds_some ?_, holds_some ?_, holds_some ?_⟩
  · simp only [iparkPhase_val, angleB_val, angleC_val, parkD_val, parkD_of_phases]
  · simp only [iparkPhase_val, angleB_val, angleC_val, parkQ_val, parkQ_of_phases]
  · simp only [iparkPhase_val, angleB_val, angleC_val, parkZero_val, mean_of_phases]

/-- Settles O16: the components of `PARK` from cosine and sine of the one angle are those of `CLARKE`. -/
theorem parkTurnsClarke : Obligations.ParkTurnsClarke := by
  intro s th a b c loaded
  exact ⟨_, _, _, _, exec_park_of_arg loaded, exec_clarke_of_arg s a b c none, holds_some (clarkeAlpha_val a b c),
    holds_some (clarkeBeta_val b c), holds_some (by rw [parkD_val, realParkD_eq]),
    holds_some (by rw [parkQ_val, realParkQ_eq])⟩

/-- Settles O17: a balanced set is the three phases of a vector with the one component `v` at the angle `psi`. -/
theorem parkOfBalancedSet : Obligations.ParkOfBalancedSet := by
  intro s th a b c v psi loaded ha hb hc
  refine ⟨_, exec_park_of_arg loaded, holds_some ?_, holds_some ?_, holds_some ?_⟩
  · rw [parkD_val, realParkD_eq, ha, hb, hc, cos_sub_third, cos_add_third, Real.cos_sub]
    linear_combination (v * Real.sin psi * Real.sin th.val / 3) * sqrt_three_sq
  · rw [parkQ_val, realParkQ_eq, ha, hb, hc, cos_sub_third, cos_add_third, Real.sin_sub]
    linear_combination (-(v * Real.sin psi * Real.cos th.val / 3)) * sqrt_three_sq
  · rw [parkZero_val, ha, hb, hc, cos_sub_third, cos_add_third]
    ring

/-! The pseudocode in any numerics record (R8). -/

section AnyRecord
variable (N : Num) (ext : Nat → N.S)

theorem evalIn_half : half.evalIn N ext = some (N.ofRat (1 / 2)) :=
  congrArg (fun q => some (N.ofRat q)) (by simpa using (Rat.num_div_den { num := 1, den := 2 }).symm)

theorem evalIn_twoThirds : twoThirds.evalIn N ext = some (N.ofRat (2 / 3)) :=
  congrArg (fun q => some (N.ofRat q)) (by simpa using (Rat.num_div_den { num := 2, den := 3 }).symm)

theorem evalIn_one : one.evalIn N ext = some (N.ofRat 1) := rfl

theorem evalIn_three : three.evalIn N ext = some (N.ofRat 3) := rfl

theorem evalIn_twoPi : Scalar.twoPi.evalIn N ext = some N.twoPi := rfl

theorem evalIn_twoPiDiv3 : Scalar.twoPiDiv3.evalIn N ext = some N.twoPiDiv3 := rfl

theorem evalIn_sqrt3Div2 : Scalar.sqrt3Div2.evalIn N ext = some N.sqrt3Div2 := rfl

variable {N ext} {th a b c : Scalar} {w x y z : N.S}

theorem evalIn_angleB (hw : th.evalIn N ext = some w) :
    (angleB th).evalIn N ext = some (N.sub w N.twoPiDiv3) := by
  simp only [angleB, evalIn_sub, hw, evalIn_twoPiDiv3, Option.bind_some]

theorem evalIn_angleC (hw : th.evalIn N ext = some w) :
    (angleC th).evalIn N ext = some (N.add w N.twoPiDiv3) := by
  simp only [angleC, evalIn_add, hw, evalIn_twoPiDiv3, Option.bind_some]

/-- One phase of `IPARK` (R102). -/
theorem evalIn_iparkPhase (hw : th.evalIn N ext = some w) (hx : a.evalIn N ext = some x) (hy : b.evalIn N ext = some y)
    (hz : c.evalIn N ext = some z) : (iparkPhase th a b c).evalIn N ext = some (numIparkPhase N w x y z) := by
  simp only [iparkPhase, evalIn_add, evalIn_mul, evalIn_cos, evalIn_sin, hw, hx, hy, hz, Option.bind_some,
    numIparkPhase]

variable (hw : th.evalIn N ext = some w) (hx : a.evalIn N ext = some x) (hy : b.evalIn N ext = some y)
  (hz : c.evalIn N ext = some z)
include hw hx hy hz

/-- The direct component (R101). -/
theorem evalIn_parkD : (parkD th a b c).evalIn N ext = some (numProject N N.cos w x y z) := by
  simp only [parkD, evalIn_add, evalIn_mul, evalIn_cos, evalIn_twoThirds, evalIn_angleB hw, evalIn_angleC hw, hw, hx,
    hy, hz, Option.bind_some, numProject]

/-- The quadrature component (R101). -/
theorem evalIn_parkQ : (parkQ th a b c).evalIn N ext = some (numProject N N.sin w x y z) := by
  simp only [parkQ, evalIn_add, evalIn_mul, evalIn_sin, evalIn_twoThirds, evalIn_angleB hw, evalIn_angleC hw, hw, hx,
    hy, hz, Option.bind_some, numProject]

end AnyRecord

/-- Settles O57: each result is evaluated operator by operator. -/
theorem frameTransformsFollowThePseudocode : Obligations.FrameTransformsFollowThePseudocode := by
  intro N ext s a b c th x y z w hw hx hy hz loaded
  refine ⟨⟨_, _, _, exec_park_of_arg loaded, evalIn_parkD hw hx hy hz, evalIn_parkQ hw hx hy hz, ?_⟩,
    ⟨_, _, _, exec_ipark_of_arg loaded, evalIn_iparkPhase hw hx hy hz, evalIn_iparkPhase (evalIn_angleB hw) hx hy hz,
      evalIn_iparkPhase (evalIn_angleC hw) hx hy hz⟩,
    ⟨_, _, exec_clarke_of_arg s a b c none, ?_, ?_⟩⟩
  · simp only [parkZero, evalIn_div, evalIn_add, evalIn_three, hx, hy, hz, Option.bind_some]
  · simp only [clarkeAlpha, evalIn_mul, evalIn_sub, evalIn_twoThirds, evalIn_half, hx, hy, hz, Option.bind_some]
  · simp only [clarkeBeta, evalIn_mul, evalIn_sub, evalIn_twoThirds, evalIn_sqrt3Div2, hy, hz, Option.bind_some]

end Sys2Proof.Machine
end

section
/-! PROOFS. The filter and the integrator (spec/41_filter_integrator.md): when the blend coefficient has a value, what
one update gives, where a zero divisor raises, and what `n` updates give. -/

namespace Sys2Proof.Machine

/-! The blend coefficient (R110, R112). -/

/-- The blend coefficient in any `NUM`: two divisions, in the order of the pseudocode (R110, R8). -/
theorem valueIn_lpfBlend {c : Numerics} {fc h : Scalar} {f p : c.num.S} (hf : fc.valueIn c = some f)
    (hp : h.valueIn c = some p) : (lpfBlend fc h).valueIn c =
      (c.num.div (c.num.ofRat 1) (c.num.mul c.num.twoPi f)).bind fun tau => c.num.div p (c.num.add tau p) := by
  unfold Scalar.valueIn at *
  simp only [lpfBlend, lpfBlendDivisor, lpfTau, lpfTauDivisor, evalIn_div, evalIn_add, evalIn_mul, evalIn_one,
    evalIn_twoPi, hf, hp, Option.bind_some, Option.bind_assoc]

theorem tauDivisor_ne_zero {f : ℝ} (cutoff : f ≠ 0) : 2 * Real.pi * f ≠ 0 :=
  mul_ne_zero (mul_ne_zero two_ne_zero Real.pi_ne_zero) cutoff

/-- In the reference instance the blend coefficient has its value wherever no divisor is zero (R112 (d)). -/
theorem lpfBlend_real {fc h : Scalar} (fcReal : fc.HasReal) (hReal : h.HasReal) (cutoff : fc.val ≠ 0)
    (sum : 1 / (2 * Real.pi * fc.val) + h.val ≠ 0) :
    (lpfBlend fc h).valueIn .real = some (realBlend fc.val h.val) := by
  have tau := tauDivisor_ne_zero cutoff
  rw [valueIn_lpfBlend (valueIn_real_of_hasReal fcReal) (valueIn_real_of_hasReal hReal)]
  change ((if 2 * Real.pi * fc.val = 0 then none else some (((1 : ℚ) : ℝ) / (2 * Real.pi * fc.val))).bind fun tau =>
    if tau + h.val = 0 then none else some (h.val / (tau + h.val))) = _
  rw [if_neg tau, Option.bind_some, Rat.cast_one, if_neg sum]
  rfl

/-- A quotient that has a value in the reference instance has a divisor with a value other than zero (R6). -/
theorem divisor_of_valueIn_real {a b : Scalar} {x : ℝ} (h : (Scalar.div a b).valueIn .real = some x) :
    b.val ≠ 0 ∧ b.HasReal := by
  obtain ⟨u, -, h⟩ := Option.bind_eq_some_iff.1 h
  obtain ⟨v, hv, h⟩ := Option.bind_eq_some_iff.1 h
  obtain ⟨nonzero, -⟩ := (Option.ite_none_left_eq_some (p := v = 0)).1 h
  exact ⟨val_of_evalIn b hv ▸ nonzero, v, hv⟩

/-- Where the blend coefficient has a value in the reference instance, no divisor is zero (R112). -/
theorem divisors_of_lpfBlend {fc h : Scalar} {x : ℝ} (value : (lpfBlend fc h).valueIn .real = some x) :
    fc.val ≠ 0 ∧ 1 / (2 * Real.pi * fc.val) + h.val ≠ 0 := by
  obtain ⟨sum, v, hv⟩ := divisor_of_valueIn_real value
  obtain ⟨tau, htau, -⟩ := Option.bind_eq_some_iff.1 hv
  obtain ⟨product, -⟩ := divisor_of_valueIn_real htau
  have tauVal : (lpfTau fc).val = 1 / (2 * Real.pi * fc.val) := by
    rw [lpfTau, div_val product, one_val]; rfl
  refine ⟨fun zero => product ?_, tauVal ▸ sum⟩
  simp [lpfTauDivisor, Scalar.val, zero]

/-! One update (R110). -/

/-- A filter whose blend coefficient has no value in the build's `NUM` raises `InvalidConfig` (R112, R172). -/
theorem exec_lpf_raises {s : State} {i : Inst} {x : Scalar} (present : i.val < s.build.nLpf)
    (loaded : s.arg.arg0 = some x) (noValue : (lpfBlend s.lpf[i].fc s.lpf[i].dt).valueIn s.build.num = none) :
    exec (.lpf i) s = .fault (.invalidConfig 4 i.val) := by
  have no : hasValue s.build.num (lpfBlend s.lpf[i].fc s.lpf[i].dt) = false := by
    rw [Bool.eq_false_iff, Ne, hasValue_iff, noValue]
    simp
  have wf : Instr.wf s.build (.lpf i) = true := decide_eq_true present
  simp only [exec, execLpf, withInstance_of_wf _ wf, loaded, operand_some, no, Bool.false_eq_true, if_false]

/-- A filter whose blend coefficient has a value completes with its output in `Y` and in the result (R110). -/
theorem exec_lpf_of_value {s : State} {i : Inst} {x : Scalar} {c : s.build.num.num.S} (present : i.val < s.build.nLpf)
    (loaded : s.arg.arg0 = some x) (value : (lpfBlend s.lpf[i].fc s.lpf[i].dt).valueIn s.build.num = some c) :
    exec (.lpf i) s = .next ((s.setLpf i { s.lpf[i] with y := lpfOutput s.lpf[i] x }).setRes
      { res0 := some (lpfOutput s.lpf[i] x), res1 := none, res2 := none }) :=
  execLpf_next.2 ⟨present, x, loaded, (hasValue_iff _ _).2 ⟨c, value⟩, rfl⟩

/-- The filter `i` in the reference instance with operand `x`: it is there, loaded, and no divisor is zero. -/
structure LpfReady (s : State) (i : Inst) (x : Scalar) : Prop where
  real : s.build.num = .real
  present : i.val < s.build.nLpf
  loaded : s.arg.arg0 = some x
  fcReal : s.lpf[i].fc.HasReal
  dtReal : s.lpf[i].dt.HasReal
  cutoff : s.lpf[i].fc.val ≠ 0
  sum : 1 / (2 * Real.pi * s.lpf[i].fc.val) + s.lpf[i].dt.val ≠ 0

/-- The blend coefficient of a filter, as a real number. -/
noncomputable def LpfRegs.blend (r : LpfRegs) : ℝ := realBlend r.fc.val r.dt.val

theorem LpfReady.blend_value {s : State} {i : Inst} {x : Scalar} (ready : LpfReady s i x) :
    (lpfBlend s.lpf[i].fc s.lpf[i].dt).valueIn .real = some s.lpf[i].blend :=
  lpfBlend_real ready.fcReal ready.dtReal ready.cutoff ready.sum

/-- One update of a ready filter: the output, which is its new state, is the blend of input and old state. -/
theorem LpfReady.completes {s : State} {i : Inst} {x : Scalar} (ready : LpfReady s i x) :
    ∃ y : Scalar, exec (.lpf i) s = .next ((s.setLpf i { s.lpf[i] with y := y }).setRes
        { res0 := some y, res1 := none, res2 := none }) ∧
      y.val = s.lpf[i].blend * x.val + (1 - s.lpf[i].blend) * s.lpf[i].y.val := by
  have value := ready.blend_value
  have blendVal : (lpfBlend s.lpf[i].fc s.lpf[i].dt).val = s.lpf[i].blend := val_of_evalIn _ value
  refine ⟨lpfOutput s.lpf[i] x, ?_, ?_⟩
  · exact execLpf_next.2 ⟨ready.present, x, ready.loaded, ready.real ▸ (hasValue_iff _ _).2 ⟨_, value⟩, rfl⟩
  · simp only [lpfOutput, Scalar.val, one_val, blendVal]

/-- Settles O4: a ready filter completes. -/
theorem lpfBlendsInputAndOutput : Obligations.LpfBlendsInputAndOutput := by
  intro s i x real present loaded fcReal dtReal cutoff sum
  obtain ⟨y, completes, value⟩ := LpfReady.completes ⟨real, present, loaded, fcReal, dtReal, cutoff, sum⟩
  exact ⟨_, completes, y, rfl, value⟩

/-- With cutoff and period above zero no divisor is zero (R111). -/
theorem LpfReady.of_pos {s : State} {i : Inst} {x : Scalar} (real : s.build.num = .real)
    (present : i.val < s.build.nLpf) (loaded : s.arg.arg0 = some x)
    (fcReal : s.lpf[i].fc.HasReal) (dtReal : s.lpf[i].dt.HasReal)
    (cutoff : 0 < s.lpf[i].fc.val) (period : 0 < s.lpf[i].dt.val) : LpfReady s i x :=
  ⟨real, present, loaded, fcReal, dtReal, cutoff.ne', by positivity⟩

/-- With cutoff and period above zero the blend coefficient is a weight (R111). -/
theorem realBlend_between {fc h : ℝ} (cutoff : 0 < fc) (period : 0 < h) : 0 < realBlend fc h ∧ realBlend fc h < 1 := by
  have tau : 0 < 1 / (2 * Real.pi * fc) := by positivity
  refine ⟨div_pos period (by positivity), ?_⟩
  rw [realBlend, div_lt_one (by positivity)]
  linarith

/-- Settles O5: a filter with cutoff and period above zero is ready, and its blend coefficient is a weight. -/
theorem lpfCompletesWhenConfigured : Obligations.LpfCompletesWhenConfigured := by
  intro s i x real present loaded fcReal dtReal cutoff period
  obtain ⟨above, below⟩ := realBlend_between cutoff period
  obtain ⟨y, completes, value⟩ := (LpfReady.of_pos real present loaded fcReal dtReal cutoff period).completes
  refine ⟨_, above, below, rfl, _, completes, ?_⟩
  simpa only [State.setRes_lpf, State.setLpf_lpf, Bank.put_self, LpfRegs.blend] using value

/-- Settles O6: a zero divisor leaves the blend coefficient without a value, and without one the filter raises. -/
theorem lpfZeroDivisorRaises : Obligations.LpfZeroDivisorRaises := by
  intro s i x present loaded
  refine ⟨fun real zero => exec_lpf_raises present loaded ?_, exec_lpf_raises present loaded⟩
  rw [real, Option.eq_none_iff_forall_ne_some]
  intro c value
  obtain ⟨cutoff, sum⟩ := divisors_of_lpfBlend value
  exact zero.elim cutoff sum

/-- Settles O7: with a zero period the blend coefficient is zero. -/
theorem lpfZeroPeriodFreezes : Obligations.LpfZeroPeriodFreezes := by
  intro s i x real present loaded fcReal dtReal cutoff period
  have sum : 1 / (2 * Real.pi * s.lpf[i].fc.val) + s.lpf[i].dt.val ≠ 0 := by
    rw [period, add_zero]
    exact one_div_ne_zero (tauDivisor_ne_zero cutoff)
  obtain ⟨y, completes, value⟩ := LpfReady.completes ⟨real, present, loaded, fcReal, dtReal, cutoff, sum⟩
  have blend : s.lpf[i].blend = 0 := by rw [LpfRegs.blend, realBlend, period, zero_div]
  refine ⟨_, completes, ?_, ?_⟩
  · simpa only [State.setRes_lpf, State.setLpf_lpf, Bank.put_self, blend, zero_mul, sub_zero, one_mul,
      zero_add] using value
  · simp only [State.setRes_lpf, State.setLpf_lpf, Bank.put_self, State.setRes_res]

/-! Repeated updates. -/

/-- One more update is that update and then the rest. -/
theorem execTimes_succ (i : Instr) (n : Nat) (s : State) :
    execTimes i (n + 1) s = andThen (exec i s) (execTimes i n) := rfl

/-- A ready filter stays ready on the same operand. -/
theorem LpfReady.next {s : State} {i : Inst} {x : Scalar} (ready : LpfReady s i x) (y : Scalar) (r : ResRegs) :
    LpfReady ((s.setLpf i { s.lpf[i] with y := y }).setRes r) i x := by
  obtain ⟨real, present, loaded, fcReal, dtReal, cutoff, sum⟩ := ready
  constructor <;>
    simpa only [State.setRes_lpf, State.setLpf_lpf, Bank.put_self, State.setRes_build, State.setLpf_build,
      State.setRes_arg, State.setLpf_arg]

/-- `n` updates of a ready filter with a constant input. -/
theorem LpfReady.times {s : State} {i : Inst} {x : Scalar} (n : Nat) (ready : LpfReady s i x) :
    NextWith (execTimes (.lpf i) n s) fun t =>
      t.lpf[i].y.val = x.val + (1 - s.lpf[i].blend) ^ n * (s.lpf[i].y.val - x.val) := by
  induction n generalizing s with
  | zero => exact ⟨s, rfl, by ring⟩
  | succ n ih =>
    obtain ⟨y, completes, value⟩ := ready.completes
    obtain ⟨t, rest, decays⟩ := ih (ready.next y _)
    refine ⟨t, by rw [execTimes_succ, completes, andThen_next_left]; exact rest, ?_⟩
    simp only [State.setRes_lpf, State.setLpf_lpf, Bank.put_self, LpfRegs.blend] at decays value ⊢
    rw [decays, value]
    ring

/-- Settles O19: a filter with cutoff and period above zero is ready, and stays ready. -/
theorem lpfConstantInputDecays : Obligations.LpfConstantInputDecays :=
  fun n _ _ _ real present loaded fcReal dtReal cutoff period =>
    (LpfReady.of_pos real present loaded fcReal dtReal cutoff period).times n

/-- A constant integrand adds its value times the step (R113). -/
theorem realTrap_constant (v h : ℝ) : realTrap v v h = v * h := by
  rw [realTrap]; ring

/-- Settles O20, by induction on the number of updates. -/
theorem intgConstantIntegrandIsExact : Obligations.IntgConstantIntegrandIsExact := by
  intro n
  induction n with
  | zero => exact fun s i v h _ _ _ _ => ⟨s, rfl, by simp⟩
  | succ n ih =>
    intro s i v h present hcur hprev hh
    have completes := execIntg_next.2 ⟨present, v, v, h, hcur, hprev, hh, rfl⟩
    obtain ⟨t, rest, sum⟩ :=
      ih ((s.setIntg i { acc := intgSum s.intg[i].acc v v h }).setRes _) i v h present hcur hprev hh
    refine ⟨t, by rw [execTimes_succ, exec, completes, andThen_next_left]; exact rest, ?_⟩
    simp only [State.setRes_intg, State.setIntg_intg, Bank.put_self, intgSum_val, realTrap_constant] at sum
    dsimp only
    rw [sum]
    push_cast
    ring

/-! The pseudocode in any `NUM` (R8). -/

/-- The trapezoid in any record (R11). -/
theorem evalIn_trap {N : Num} {ext : Nat → N.S} {cur prev h : Scalar} {x y z : N.S} (hx : cur.evalIn N ext = some x)
    (hy : prev.evalIn N ext = some y) (hz : h.evalIn N ext = some z) :
    (trap cur prev h).evalIn N ext = some (numTrap N x y z) := by
  simp only [trap, evalIn_mul, evalIn_add, evalIn_half, hx, hy, hz, Option.bind_some, numTrap]

/-- The filter's output in the build's `NUM` (R110). -/
theorem valueIn_lpfOutput {c : Numerics} {r : LpfRegs} {a : Scalar} {x y c1 : c.num.S} (hx : a.valueIn c = some x)
    (hy : r.y.valueIn c = some y) (hc : (lpfBlend r.fc r.dt).valueIn c = some c1) :
    (lpfOutput r a).valueIn c =
      some (c.num.add (c.num.mul c1 x) (c.num.mul (c.num.sub (c.num.ofRat 1) c1) y)) := by
  unfold Scalar.valueIn at *
  simp only [lpfOutput, evalIn_add, evalIn_mul, evalIn_sub, evalIn_one, hx, hy, hc, Option.bind_some]

/-- Settles O58: the filter's blend coefficient division by division, and the integrator's sum. -/
theorem filterAndIntegratorFollowThePseudocode : Obligations.FilterAndIntegratorFollowThePseudocode := by
  refine ⟨fun s i a x fc h y0 loaded hx present hfc hh hy => ?_,
    fun N ext s i a b c x y z acc hx hy hz ha hb hc present hacc => ?_⟩
  · have blend := valueIn_lpfBlend hfc hh
    intro N
    cases tau : N.div (N.ofRat 1) (N.mul N.twoPi fc) with
    | none => exact exec_lpf_raises present loaded (blend.trans (by rw [tau]; rfl))
    | some tau' =>
      rw [tau, Option.bind_some] at blend
      dsimp only
      cases c1 : N.div h (N.add tau' h) with
      | none => exact exec_lpf_raises present loaded (blend.trans c1)
      | some c =>
        have value := blend.trans c1
        refine ⟨_, exec_lpf_of_value present loaded value, ?_, ?_⟩
        · simp only [State.setRes_lpf, State.setLpf_lpf, Bank.put_self, State.setRes_res]
        · simpa only [State.setRes_lpf, State.setLpf_lpf, Bank.put_self] using valueIn_lpfOutput hx hy value
  · refine ⟨_, execIntg_next.2 ⟨present, a, b, c, ha, hb, hc, rfl⟩, ?_, ?_⟩
    · simp only [State.setRes_intg, State.setIntg_intg, Bank.put_self, State.setRes_res]
    · simp only [State.setRes_intg, State.setIntg_intg, Bank.put_self, intgSum, evalIn_add, evalIn_trap hx hy hz, hacc,
        Option.bind_some]

end Sys2Proof.Machine
end

section
/-! PROOFS. The PI controller and the PLL (spec/42_pi_controller.md, spec/43_pll.md): one call in the real numbers, the
bounds it keeps, `n` calls with a constant error, the wrap of the angle, and the pseudocode in any numerics record. -/

namespace Sys2Proof.Machine

/-! One call of `pi_update` (R120, R121). -/

@[simp] theorem piRawOutput_val (dt : Scalar) (p : PiRegs) (e : Scalar) :
    (piRawOutput dt p e).val = p.kp.val * e.val + p.ki.val * (piAcc dt p e).val := rfl

/-- With `OUT_EN` and its bounds in order, the output is the clamp of the unclamped one (R120, R121). -/
theorem piOutput_val_of_outEn {dt e : Scalar} {p : PiRegs} (enabled : p.clampEn.outEn = true)
    (ordered : p.outLo.val ≤ p.outHi.val) :
    (piOutput dt p e).val =
      realClamp (p.kp.val * e.val + p.ki.val * (piAcc dt p e).val) p.outLo.val p.outHi.val := by
  rw [piOutput, if_pos enabled, clamp_val_eq_realClamp ordered, piRawOutput_val]

/-- What the model's call leaves and returns is what R120 says, in all clamp variants. -/
theorem piUpdated_piAfter (dt : Scalar) (p : PiRegs) (e : Scalar) :
    PiUpdated dt p (piAfter dt p e) e (piOutput dt p e) := by
  refine ⟨rfl, fun disabled => ?_, piAcc_val_of_intEn, fun disabled => ?_, piOutput_val_of_outEn⟩
  · rw [piAfter, piAcc, if_neg (by simp [disabled]), piRawSum_val]
  · rw [piOutput, if_neg (by simp [disabled]), piRawOutput_val]
    rfl

/-- Settles O9: the model's call is the `pi_update` of R120. -/
theorem piUpdatesAccumulatorAndOutput : Obligations.PiUpdatesAccumulatorAndOutput := by
  intro s i e
  refine ⟨decode_encode (.pi i), fun present loaded => ?_⟩
  exact ⟨_, execPi_next.2 ⟨present, e, loaded, rfl⟩, _, _, rfl, piUpdated_piAfter s.dt s.pi[i] e⟩

/-! The six steps of the PLL (R130). -/

@[simp] theorem pllError_val (p : PllRegs) (a b c : Scalar) :
    (pllError p a b c).val = 0 - realParkD p.theta.val a.val b.val c.val := by
  simp only [pllError, Scalar.val, parkD_val]
  rw [Rat.cast_zero]

theorem twoPi_ne_zero : Scalar.val .twoPi ≠ 0 := mul_ne_zero two_ne_zero Real.pi_ne_zero

@[simp] theorem pllFreq_val (dt : Scalar) (p : PllRegs) (a b c : Scalar) :
    (pllFreq dt p a b c).val = (pllOmega dt p a b c).val / (2 * Real.pi) := div_val twoPi_ne_zero

@[simp] theorem pllRawAngle_val (dt : Scalar) (p : PllRegs) (a b c : Scalar) :
    (pllRawAngle dt p a b c).val = p.theta.val + realTrap (pllOmega dt p a b c).val p.omega.val dt.val :=
  congrArg (p.theta.val + ·) (trap_val _ _ _)

/-- The wrap is one strict comparison with `2π` and at most one subtraction (R132). -/
@[simp] theorem wrapAngle_val (t : Scalar) :
    (wrapAngle t).val = if t.val > 2 * Real.pi then t.val - 2 * Real.pi else t.val := rfl

/-- Settles O10: the registers the model leaves are the six steps, value by value. -/
theorem pllPerformsSixSteps : Obligations.PllPerformsSixSteps := by
  intro s i a b c
  refine ⟨decode_encode (.pll i), fun present ha hb hc => ?_⟩
  refine ⟨_, execPll_next.2 ⟨present, a, b, c, ha, hb, hc, rfl⟩, pllAfter s.dt s.pll[i] a b c,
    pllError s.pll[i] a b c, rfl, pllError_val _ a b c, piUpdated_piAfter s.dt s.pll[i].pi _, pllFreq_val _ _ a b c,
    _, rfl, ?_⟩
  rw [pllAfter, wrapAngle_val, pllRawAngle_val]

/-- `PLL i` leaves in its instance what the six steps do with some operands (R130). -/
theorem exec_pll_regs {s t : State} {i : Inst} (completes : exec (.pll i) s = .next t) :
    ∃ a b c, t.pll[i] = pllAfter s.dt s.pll[i] a b c := by
  obtain ⟨-, a, b, c, -, -, -, rfl⟩ := execPll_next.1 completes
  exact ⟨a, b, c, Bank.put_self s.pll i _⟩

/-! Bounds (R46, R124). -/

/-- With its clamp enabled and its bounds in order the accumulator lies in them. -/
theorem piAcc_between {dt e : Scalar} {p : PiRegs} (enabled : p.clampEn.intEn = true)
    (ordered : p.intLo.val ≤ p.intHi.val) :
    p.intLo.val ≤ (piAcc dt p e).val ∧ (piAcc dt p e).val ≤ p.intHi.val := by
  rw [piAcc, if_pos enabled]
  exact clamp_between ordered

/-- With its clamp enabled and its bounds in order the output lies in them. -/
theorem piOutput_between {dt e : Scalar} {p : PiRegs} (enabled : p.clampEn.outEn = true)
    (ordered : p.outLo.val ≤ p.outHi.val) :
    p.outLo.val ≤ (piOutput dt p e).val ∧ (piOutput dt p e).val ≤ p.outHi.val := by
  rw [piOutput, if_pos enabled]
  exact clamp_between ordered

/-- Settles O21: accumulator and output are clamps, and a clamp lies in its bounds. -/
theorem piStaysInItsBounds : Obligations.PiStaysInItsBounds := by
  refine ⟨fun s t i completes => ?_, fun s t i completes => ?_⟩
  · obtain ⟨-, e, loaded, e'⟩ := execPi_next.1 completes
    rw [exec_pi_regs completes loaded]
    subst e'
    exact ⟨piAcc_between, fun enabled ordered => ⟨_, rfl, piOutput_between enabled ordered⟩⟩
  · obtain ⟨a, b, c, regs⟩ := exec_pll_regs completes
    rw [regs]
    exact ⟨piAcc_between, piOutput_between⟩

/-! Repeated calls with a constant error. -/

/-- The last of the calls, after the others. -/
theorem execTimes_succ_last (i : Instr) (n : Nat) (s : State) :
    execTimes i (n + 1) s = andThen (execTimes i n s) (exec i) := by
  induction n generalizing s with
  | zero =>
    rw [execTimes_succ]
    change andThen (exec i s) .next = exec i s
    cases exec i s <;> rfl
  | succ n ih =>
    rw [execTimes_succ, execTimes_succ i n s]
    cases exec i s with
    | next t => exact ih t
    | fault r => rfl
    | refused r => rfl

/-- `t` is what `n + 1` calls of `PI i` with error `e` and no integrator clamp make of `s`: the first adds the trapezoid
with the old error, each later one a rectangle (R120). -/
structure PiIntegrated (i : Inst) (e : Scalar) (n : Nat) (s t : State) : Prop where
  build : t.build = s.build
  arg : t.arg = s.arg
  dt : t.dt = s.dt
  regs : t.pi[i] = { s.pi[i] with acc := t.pi[i].acc, eprev := e }
  acc : t.pi[i].acc.val =
    s.pi[i].acc.val + realTrap e.val s.pi[i].eprev.val s.dt.val + n * (s.dt.val * e.val)
  answer : ∃ out, t.res.res0 = some out ∧ (s.pi[i].clampEn.outEn = true → s.pi[i].outLo.val ≤ s.pi[i].outHi.val →
    out.val = realClamp (s.pi[i].kp.val * e.val + s.pi[i].ki.val * t.pi[i].acc.val) s.pi[i].outLo.val s.pi[i].outHi.val)

/-- One call without an integrator clamp. -/
theorem exec_pi_integrates {s : State} {i : Inst} {e : Scalar} (present : i.val < s.build.nPi)
    (loaded : s.arg.arg0 = some e) (noClamp : s.pi[i].clampEn.intEn = false) :
    NextWith (exec (.pi i) s) (PiIntegrated i e 0 s) := by
  have completes := execPi_next.2 ⟨present, e, loaded, rfl⟩
  have regs := exec_pi_regs completes loaded
  obtain ⟨same, acc, -, -, out⟩ := piUpdated_piAfter s.dt s.pi[i] e
  refine ⟨_, completes, rfl, rfl, rfl, ?_, ?_, _, rfl, ?_⟩
  · rw [regs]; exact same
  · rw [regs, acc noClamp]; simp
  · rw [regs]; exact out

/-- `n + 1` calls without an integrator clamp. -/
theorem execTimes_pi_integrates {s : State} {i : Inst} {e : Scalar} (n : Nat) (present : i.val < s.build.nPi)
    (loaded : s.arg.arg0 = some e) (noClamp : s.pi[i].clampEn.intEn = false) :
    NextWith (execTimes (.pi i) (n + 1) s) (PiIntegrated i e n s) := by
  induction n with
  | zero => rw [execTimes_succ_last]; exact exec_pi_integrates present loaded noClamp
  | succ n ih =>
    obtain ⟨u, calls, before⟩ := ih
    have clamp : u.pi[i].clampEn = s.pi[i].clampEn := by rw [before.regs]
    obtain ⟨t, last, after⟩ := exec_pi_integrates (s := u) (i := i) (e := e) (before.build ▸ present)
      (before.arg ▸ loaded) (clamp ▸ noClamp)
    refine ⟨t, by rw [execTimes_succ_last, calls]; exact last, after.build.trans before.build,
      after.arg.trans before.arg, after.dt.trans before.dt, ?_, ?_, ?_⟩
    · rw [after.regs, before.regs]
    · rw [after.acc, before.acc, before.dt, show u.pi[i].eprev = e by rw [before.regs]]
      simp only [realTrap]
      push_cast
      ring
    · have answer := after.answer
      rw [before.regs] at answer
      exact answer

/-- From rest, `n ≥ 1` calls integrate the error over `n - 1/2` periods. -/
theorem PiIntegrated.acc_from_rest {i : Inst} {e : Scalar} {n : Nat} {s t : State} (h : PiIntegrated i e n s t)
    (accZero : s.pi[i].acc.val = 0) (eprevZero : s.pi[i].eprev.val = 0) :
    t.pi[i].acc.val = s.dt.val * e.val * (((n + 1 : Nat) : ℝ) - 1 / 2) := by
  rw [h.acc, accZero, eprevZero, realTrap]
  push_cast
  ring

/-- Settles O23: the integral of `n` calls, from rest. -/
theorem piIntegratesConstantError : Obligations.PiIntegratesConstantError := by
  intro n s i e atLeastOne present loaded noClamp accZero eprevZero
  obtain ⟨m, rfl⟩ := Nat.exists_eq_add_of_le' atLeastOne
  obtain ⟨t, calls, integrated⟩ := execTimes_pi_integrates m present loaded (by rw [noClamp])
  exact ⟨t, calls, integrated.acc_from_rest accZero eprevZero⟩

theorem realClamp_le {x lo hi : ℝ} (ordered : lo ≤ hi) : realClamp x lo hi ≤ hi := by
  unfold realClamp
  split
  · exact le_refl _
  · split
    · exact ordered
    · exact le_of_not_gt (by assumption)

theorem realClamp_of_ge {x lo hi : ℝ} (ordered : lo ≤ hi) (above : hi ≤ x) : realClamp x lo hi = hi := by
  rcases above.eq_or_lt with rfl | lt
  · rw [realClamp, if_neg (lt_irrefl _), if_neg (not_lt.2 ordered)]
  · exact realClamp_of_gt lt

/-- Settles O24: the last call's output is the clamp of the unclamped one, from the integral of the error. -/
theorem piSaturatesAtItsUpperBound : Obligations.PiSaturatesAtItsUpperBound := by
  intro n s i e atLeastOne present loaded clamps ordered accZero eprevZero _ _ _ _
  obtain ⟨m, rfl⟩ := Nat.exists_eq_add_of_le' atLeastOne
  obtain ⟨t, calls, integrated⟩ := execTimes_pi_integrates m present loaded (by rw [clamps])
  obtain ⟨out, answered, value⟩ := integrated.answer
  have clamped := value (by rw [clamps]) ordered
  rw [integrated.acc_from_rest accZero eprevZero] at clamped
  exact ⟨t, calls, out, answered, clamped ▸ realClamp_le ordered, fun past => clamped ▸ realClamp_of_ge ordered past⟩

/-! The angle (R46, R132, R135). -/

/-- The angle `PLL i` leaves, from the angular frequency it leaves (R130, R132). -/
theorem exec_pll_theta {s t : State} {i : Inst} (completes : exec (.pll i) s = .next t) {t1 : ℝ}
    (raw : t1 = s.pll[i].theta.val + realTrap t.pll[i].omega.val s.pll[i].omega.val s.dt.val) :
    t.pll[i].theta.val = if t1 > 2 * Real.pi then t1 - 2 * Real.pi else t1 := by
  obtain ⟨a, b, c, regs⟩ := exec_pll_regs completes
  rw [regs] at raw ⊢
  rw [raw, pllAfter, wrapAngle_val, pllRawAngle_val]

/-- Settles O25: the angle is one comparison with `2π`; each clause is one side of it. -/
theorem pllWrapsAtMostOnce : Obligations.PllWrapsAtMostOnce := by
  intro s t i completes
  refine ⟨_, rfl, ?_⟩
  have wrapped := exec_pll_theta completes rfl
  generalize s.pll[i].theta.val + realTrap t.pll[i].omega.val s.pll[i].omega.val s.dt.val = t1 at wrapped ⊢
  have positive := Real.pi_pos
  have stays (le : t1 ≤ 2 * Real.pi) : t.pll[i].theta.val = t1 := wrapped.trans (if_neg (not_lt.2 le))
  have turns (gt : 2 * Real.pi < t1) : t.pll[i].theta.val = t1 - 2 * Real.pi := wrapped.trans (if_pos gt)
  refine ⟨stays, turns, fun negative => ?_, fun full => ?_, fun two => ?_, fun one two => ?_⟩
  · rw [stays (by linarith)]; exact negative
  · rw [stays full.le, full]
  · rw [turns (by linarith)]; linarith
  · rw [turns one]; constructor <;> linarith

/-- Settles O26: below `2π` the angle stays as it is, above it one turn is taken off, and it is not `2π`. -/
theorem pllKeepsAngleInRange : Obligations.PllKeepsAngleInRange := by
  intro s t i completes low high notBelow notAbove notFull
  rw [exec_pll_theta completes rfl]
  split
  case isTrue past => constructor <;> linarith
  case isFalse within => exact ⟨by linarith, lt_of_le_of_ne (not_lt.1 within) notFull⟩

/-! The pseudocode in any numerics record (R8). -/

section AnyRecord
variable {N : Num} {ext : Nat → N.S}

/-- The clamp of bounds that are not reversed (R10). -/
theorem evalIn_clamp {a lo hi : Scalar} {x l h : N.S} (hx : a.evalIn N ext = some x) (hl : lo.evalIn N ext = some l)
    (hh : hi.evalIn N ext = some h) (ordered : N.gt l h = false) :
    (clamp a lo hi).evalIn N ext = some (numClamp N x l h) := by
  simp only [clamp, evalIn_ifGt, evalIn_ifLt, hx, hl, hh, Option.bind_some, ordered, Bool.false_eq_true, if_false,
    numClamp]
  split
  · rfl
  · split <;> rfl

variable {p : PiRegs} {v : NumPi N} {dt e : Scalar} {d x : N.S} (values : v.ValuesOf ext p)
  (hd : dt.evalIn N ext = some d) (hx : e.evalIn N ext = some x)
include values hd hx

/-- The accumulator (R120). -/
theorem evalIn_piAcc : (piAcc dt p e).evalIn N ext = some (v.nextAcc p.clampEn d x) := by
  obtain ⟨-, -, acc, eprev, int, -⟩ := values
  have sum : (piRawSum dt p e).evalIn N ext = some (N.add v.acc (numTrap N x v.eprev d)) := by
    simp only [piRawSum, evalIn_add, acc, evalIn_trap hx eprev hd, Option.bind_some]
  by_cases enabled : p.clampEn.intEn = true
  · obtain ⟨lo, hi, ordered⟩ := int enabled
    simp only [piAcc, NumPi.nextAcc, enabled, if_true, evalIn_clamp sum lo hi ordered]
  · simp only [piAcc, NumPi.nextAcc, enabled, if_false, sum, Bool.false_eq_true]

/-- The output (R120). -/
theorem evalIn_piOutput : (piOutput dt p e).evalIn N ext = some (v.output p.clampEn d x) := by
  have acc := evalIn_piAcc values hd hx
  obtain ⟨kp, ki, -, -, -, out⟩ := values
  have raw : (piRawOutput dt p e).evalIn N ext =
      some (N.add (N.mul v.kp x) (N.mul v.ki (v.nextAcc p.clampEn d x))) := by
    simp only [piRawOutput, evalIn_add, evalIn_mul, kp, ki, hx, acc, Option.bind_some]
  by_cases enabled : p.clampEn.outEn = true
  · obtain ⟨lo, hi, ordered⟩ := out enabled
    simp only [piOutput, NumPi.output, enabled, if_true, evalIn_clamp raw lo hi ordered]
  · simp only [piOutput, NumPi.output, enabled, if_false, raw, Bool.false_eq_true]

end AnyRecord

/-- The wrap of the angle (R132). -/
theorem evalIn_wrapAngle {N : Num} {ext : Nat → N.S} {t : Scalar} {x : N.S} (hx : t.evalIn N ext = some x) :
    (wrapAngle t).evalIn N ext = some (if N.gt x N.twoPi then N.sub x N.twoPi else x) := by
  simp only [wrapAngle, evalIn_ifGt, evalIn_sub, evalIn_twoPi, hx, Option.bind_some]
  split <;> rfl

/-- Settles O59: the PI controller by its two values, the PLL step by step. -/
theorem controllersFollowThePseudocode : Obligations.ControllersFollowThePseudocode := by
  refine ⟨fun N ext s i a x dt v loaded hx hdt present values => ?_,
    fun N ext s i a b c x y z dt th om v ha hb hc hx hy hz hdt present values hth hom => ?_⟩
  · have completes := execPi_next.2 ⟨present, a, loaded, rfl⟩
    have regs := exec_pi_regs completes loaded
    refine ⟨_, completes, _, rfl, evalIn_piOutput values hdt hx, ?_, ?_⟩
    · rw [regs]; exact evalIn_piAcc values hdt hx
    · rw [regs]; rfl
  · have completes := execPll_next.2 ⟨present, a, b, c, ha, hb, hc, rfl⟩
    have error : (pllError s.pll[i] a b c).evalIn N ext = some (N.sub (N.ofRat 0) (numProject N N.cos th x y z)) := by
      simp only [pllError, evalIn_sub, evalIn_parkD hth hx hy hz, Option.bind_some]
      rfl
    have omega := evalIn_piOutput values hdt error
    have angle : (pllRawAngle s.dt s.pll[i] a b c).evalIn N ext = some (N.add th (numTrap N
        (v.output s.pll[i].pi.clampEn dt (N.sub (N.ofRat 0) (numProject N N.cos th x y z))) om dt)) := by
      simp only [pllRawAngle, evalIn_add, hth, evalIn_trap omega hom hdt, pllOmega, Option.bind_some]
    refine ⟨_, completes, _, _, _, rfl, rfl, rfl, ?_⟩
    simp only [State.setRes_pll, State.setPll_pll, Bank.put_self, State.setRes_res]
    refine ⟨evalIn_piAcc values hdt error, error, omega, ?_, evalIn_wrapAngle angle, trivial⟩
    rw [pllAfter, pllFreq, evalIn_div, pllOmega, omega, evalIn_twoPi, Option.bind_some, Option.bind_some]

end Sys2Proof.Machine
end
